-- ==== Sys2Proof/Config.lean ====
section
/-! DEFINITION. The parameters of the block (`00_scope.md` R6) and the free values: what the spec leaves unspecified. `W_CNT` is an
argument, `W`, everywhere; what R6 derives from it is derived from `W` here. -/

namespace Sys2Proof

/-- `W_CNT` of this hardware: bits of a count, of a node weight and of `ILEN` (R6). It is only the default of the argument `W` that
every width, the state and every operation take: the model is one for each `W` of 1 or more (R6, D2, U14; log 4). -/
abbrev Config.wCnt : Nat := 32

/-- `W_BLEN = W_CNT + 8`: bits of `BLEN` and `OLEN` (R6). -/
abbrev Config.wBlen (W : Nat := Config.wCnt) : Nat := W + 8

/-- `NNODE_MAX`: the arena capacity, 256 leaves and 255 internal nodes (R6). -/
abbrev Config.nnodeMax : Nat := 511

/-- `NSYM_MAX`: the number of symbols, so of entries of `FREQ` and `CODE` (R6, R35). -/
abbrev Config.nsymMax : Nat := 256

/-- `CODELEN_MAX`: the longest code, in bits (R6, R65). -/
abbrev Config.codeLenMax : Nat := 255

/-- `LEN_MAX`: the longest admitted input (R6). -/
abbrev Config.lenMax (W : Nat := Config.wCnt) : Nat := 2 ^ W - 1

/-- `BITS_MAX`: the longest admitted bit sequence (R6). -/
abbrev Config.bitsMax (W : Nat := Config.wCnt) : Nat := 2 ^ Config.wBlen W - 1

/-- Bits of a `NODEREC` (R60). -/
abbrev Config.nodeW (W : Nat := Config.wCnt) : Nat := 27 + W

/-- Bits of a `CODEENT` (R61). -/
abbrev Config.codeW : Nat := 263

/-- `N_READERS`: the agents that read one finished tree (R137); this hardware has one, the sequencer itself. -/
abbrev Config.nReaders : Nat := 1

/-! ### Free values (log 7)

No body: nothing in Lean can evaluate one. The argument is the counter `State.free`, which advances whenever the values may
have changed. -/

/-- `IPOS` after an operation (R27, U1). -/
opaque Config.freeIpos (W : Nat) : Nat → BitVec W
/-- `CPOS` after an operation (R27, U1). -/
opaque Config.freeCpos : Nat → BitVec 8
/-- `BPOS` after an operation (R27, U1). -/
opaque Config.freeBpos (W : Nat) : Nat → BitVec (Config.wBlen W)
/-- `CUR` after an operation (R27, U1). -/
opaque Config.freeCur : Nat → BitVec 9
/-- `SCAN` after an operation (R27, U1). -/
opaque Config.freeScan : Nat → BitVec 9
/-- `MLEFT` after an operation (R27, U1). -/
opaque Config.freeMleft : Nat → BitVec 9
/-- What a host read of the record with the second argument as its index returns when no node of the tree is there
(R38, R44, U2). -/
opaque Config.freeNode (W : Nat) : Nat → Nat → BitVec (Config.nodeW W)

end Sys2Proof
end

