-- ==== Sys2Proof/Word.lean ====
section
/-! DEFINITION. The word types of the block (`00_scope.md` R6, R8; `20_memory.md` R35). -/

namespace Sys2Proof

/-- A Symbol, one input or output byte (R6: `W_SYM` = 8). -/
abbrev Byte := BitVec 8

/-- A count or a weight (R59). All quantities are unsigned (R8). -/
abbrev Cnt (W : Nat := Config.wCnt) := BitVec W

/-- A node index (R6: `W_IDX` = 9). -/
abbrev Idx := BitVec 9

/-- The length of `BITS` or `OUT` (R6: `W_BLEN`). -/
abbrev BLen (W : Nat := Config.wCnt) := BitVec (Config.wBlen W)

/-- A command word, format `CMD4` (R54): `OP` in bits 2..0, `S` in bit 3. -/
abbrev Cmd := BitVec 4

/-- A bit string in transmission order, first bit first (R8); `true` is the bit 1. -/
abbrev Bits := List Bool

/-- `NULL` = 511: the index that names no node (R6). -/
abbrev nullIdx : Idx := 0x1FF#9

end Sys2Proof
end

