-- ==== Sys2Proof/Syntax.lean ====
section
/-! DEFINITION. The commands, one constructor per row of `spec/opcode_table.json` (`30_encoding.md` R56). -/

namespace Sys2Proof

/-- The seven commands of the block. A command has no operand (R54). -/
inductive Instr where
  /-- `NOP` (R115). -/
  | nop
  /-- `COUNT` (R71). -/
  | count
  /-- `BUILD`, tolerant (R76). -/
  | build
  /-- `BUILD.S`, strict (R85). -/
  | buildS
  /-- `GEN` (R89). -/
  | gen
  /-- `ENCODE` (R96). -/
  | encode
  /-- `DECODE` (R104). -/
  | decode
  deriving DecidableEq, Repr

end Sys2Proof
end

