-- ==== Sys2Proof/WellFormed.lean ====
section
/-! DEFINITION. When the two fields of a command word form a command (`30_encoding.md` R54, R55, R57). -/

namespace Sys2Proof

/-- The two fields of the format `CMD4` (R54). -/
structure CmdFields where
  /-- Bit 3, the strict flag. -/
  s : Bool
  /-- Bits 2..0, the operation selector. -/
  op : BitVec 3
  deriving DecidableEq, Repr

/-- The selector names one of the block's operations (R56: 0 to 5). -/
def CmdFields.opAssigned (f : CmdFields) : Bool := f.op ≤ 5#3

/-- `S` = 1 stands only with `OP` = 2 (R55). -/
def CmdFields.strictAllowed (f : CmdFields) : Bool := !f.s || f.op == 2#3

/-- The fields form a command; every other word is reserved (R57). -/
def CmdFields.wf (f : CmdFields) : Bool := f.opAssigned && f.strictAllowed

/-- The fields of a command (R56). -/
def Instr.fields : Instr → CmdFields
  | .nop => ⟨false, 0#3⟩
  | .count => ⟨false, 1#3⟩
  | .build => ⟨false, 2#3⟩
  | .buildS => ⟨true, 2#3⟩
  | .gen => ⟨false, 3#3⟩
  | .encode => ⟨false, 4#3⟩
  | .decode => ⟨false, 5#3⟩

/-- A command is well formed when its fields are. -/
def Instr.wf (i : Instr) : Bool := i.fields.wf

end Sys2Proof
end

