-- ==== Sys2Proof/Decode.lean ====
section
/-! DEFINITION. Command words to commands and back (`30_encoding.md` R54 to R57, R70). -/

namespace Sys2Proof

/-- Why a word is no command. -/
inductive DecodeError where
  /-- One of the nine reserved words (R57). The step then does what R57 says: SAFE, no stop. -/
  | reserved (w : Cmd)
  deriving DecidableEq, Repr

/-- `decode_cmd` (R70): total, one meaning a word. -/
def decode (w : Cmd) : Except DecodeError Instr :=
  if w = 0x0#4 then .ok .nop
  else if w = 0x1#4 then .ok .count
  else if w = 0x2#4 then .ok .build
  else if w = 0xA#4 then .ok .buildS
  else if w = 0x3#4 then .ok .gen
  else if w = 0x4#4 then .ok .encode
  else if w = 0x5#4 then .ok .decode
  else .error (.reserved w)

/-- The word of a command: `S` in bit 3, `OP` in bits 2..0 (R54, R56). -/
def encode (i : Instr) : Cmd := BitVec.ofBool i.fields.s ++ i.fields.op

/-- The command the decoder reads from a word numbered as `spec/opcode_table.json` numbers it. A command is one 4-bit word
(R53), so bits above bit 3 belong to no command. -/
def decodeTableWord (_nbits w : Nat) : Option Instr :=
  if w < 16 then
    match decode (BitVec.ofNat 4 w) with
    | .ok i => some i
    | .error _ => none
  else none

end Sys2Proof
end

