-- ==== Sys2Proof/Machine/State.lean ====
section
/-! DEFINITION. The state of the block (`10_state.md` R13), the host's moves, the port events, the stops, and reset. -/

namespace Sys2Proof.Machine

variable {W : Nat}

/-! ### Enumerations -/

/-- `PHASE` (R14): which unit is running. The codes 6 and 7 are never taken (U10). -/
inductive Phase where
  | idle | count | build | gen | encode | decode
  deriving DecidableEq, Repr

/-- `ERR` (R17, R123): the status of the last completed operation. The codes 5 to 7 are never written (U10). -/
inductive Err where
  | ok | emptyInput | encoding | decoding | illegalCmd
  deriving DecidableEq, Repr

/-- `.kind` of a node record (R19). -/
inductive Kind where
  | leaf | internal
  deriving DecidableEq, Repr

/-! ### Table entries -/

/-- A record of the arena `NODE` (R19). -/
structure NodeRec (W : Nat := Config.wCnt) where
  kind : Kind
  sym : Byte
  weight : Cnt W
  left : Idx
  right : Idx
  deriving DecidableEq, Repr

/-- The all-zero record: what `NODE` holds where nothing was written (DESIGN CHOICE, log 9). -/
abbrev NodeRec.blank : NodeRec W := ⟨.leaf, 0#8, 0#_, 0#9, 0#9⟩

/-- An entry of `CODE` (R23): `len` = 0 is "no entry"; bit `j` of `bits` is position `j` of the code. -/
structure CodeEnt where
  len : BitVec 8
  bits : BitVec Config.codeLenMax
  deriving DecidableEq, Repr

/-- The absent code entry (R23). -/
abbrev CodeEnt.absent : CodeEnt := ⟨0#8, 0#_⟩

/-- A table: (index, entry) pairs, indices rising, no entry equal to what an unlisted index reads as. -/
abbrev Memory (α : Type) := List (Nat × α)

/-! ### The host and the ports -/

/-- One access of the host (R119). -/
inductive Access where
  /-- `RD_REG n`. -/
  | rdReg (n : BitVec 3)
  /-- `RD_FREQ s`. -/
  | rdFreq (s : Byte)
  /-- `RD_NODE i`. -/
  | rdNode (i : Idx)
  /-- `RD_CODE s`. -/
  | rdCode (s : Byte)
  /-- A read of `IN[k]` (R45, R120 "read any space"; log 11). -/
  | rdIn (k : Nat)
  /-- `RD_BITS k`. -/
  | rdBits (k : Nat)
  /-- `RD_OUT m`. -/
  | rdOut (m : Nat)
  /-- `LOAD_IN seq` (R46). -/
  | loadIn (seq : List Byte)
  /-- `LOAD_BITS seq` (R46). -/
  | loadBits (seq : Bits)
  /-- `WR_REG n, w`: with `n` = 0 the command word `w` is written to `CMD` and the host goes on at once (R114). -/
  | wrReg (n : BitVec 3) (w : Cmd)
  deriving DecidableEq, Repr

/-- One move of the host (R119 to R121, R141). -/
inductive HostMove where
  /-- A command line of a program (R121): the word is written to `CMD` and the host takes no other move until `DONE`. -/
  | line (w : Cmd)
  /-- A later command line of a pseudo-operation (R68): as `line`, but not made once a line has ended with `ERR` ≠ 0. -/
  | lineIfOk (w : Cmd)
  /-- One access. -/
  | access (a : Access)
  /-- The host stands still while the sequencer makes one micro-step. -/
  | wait
  /-- `rst` is asserted and released (R141). -/
  | rst
  deriving DecidableEq, Repr

/-- What the host port answers to an access (R119; `host_rdata` and `host_ack` of R122). -/
inductive Answer (W : Nat := Config.wCnt) where
  /-- A register's value, zero-extended (R32). -/
  | reg (v : BLen W)
  /-- An entry of `FREQ`. -/
  | count (v : Cnt W)
  /-- A record in the format `NODEREC` (R60). -/
  | node (v : BitVec (Config.nodeW W))
  /-- An entry in the format `CODEENT` (R61). -/
  | code (v : BitVec Config.codeW)
  /-- A byte of `IN` or `OUT`. -/
  | byte (v : Byte)
  /-- A bit of `BITS`. -/
  | bit (v : Bool)
  /-- A load was taken. -/
  | loaded
  /-- `host_ack` = 0: no value, no change (R38, R45). -/
  | notAccepted
  deriving DecidableEq, Repr

/-- What happens on the ports; only the events and their order are normative (R122; log 2). -/
inductive Event (W : Nat := Config.wCnt) where
  /-- A command word was accepted (R114). -/
  | accepted (w : Cmd)
  /-- One `BEAT1` on the encoder's serial output (R97). -/
  | bit (b : Bool)
  /-- One `BEAT8` on the decoder's symbol output (R106). -/
  | sym (v : Byte)
  /-- An operation completed with this status (R116). -/
  | completed (e : Err)
  /-- The answer to a host access. -/
  | answer (a : Answer W)
  /-- `rst` (R141). -/
  | reset
  deriving DecidableEq, Repr

/-! ### The state -/

/-- The complete state of the block (R13), and four fields of the model's own at the end. `W` is `W_CNT`, an argument of the model
(R6) and no state (R33); `State` alone is the state of this hardware. -/
structure State (W : Nat := Config.wCnt) where
  /-- `PHASE` (R14). -/
  phase : Phase
  /-- `S_LATCH` (R15). -/
  sLatch : Bool
  /-- `DONE` (R16). -/
  done : Bool
  /-- `ERR` (R17). -/
  err : Err
  /-- `FREQ` (R18). -/
  freq : Memory (Cnt W)
  /-- `NODE` (R19). -/
  node : Memory (NodeRec W)
  /-- `NSYM` (R20). -/
  nsym : Idx
  /-- `NNODE` (R20). -/
  nnode : Idx
  /-- `ROOT` (R20). -/
  root : Idx
  /-- `CODE` (R23). -/
  code : Memory CodeEnt
  /-- `IN` (R24). -/
  input : List Byte
  /-- `ILEN` (R24). -/
  ilen : BitVec W
  /-- `BITS` (R25). -/
  bits : Bits
  /-- `BLEN` (R25). -/
  blen : BLen W
  /-- `OUT` (R26). -/
  out : List Byte
  /-- `OLEN` (R26). -/
  olen : BLen W
  /-- `IPOS` (R27). -/
  ipos : BitVec W
  /-- `CPOS` (R27). -/
  cpos : BitVec 8
  /-- `BPOS` (R27). -/
  bpos : BLen W
  /-- `CUR` (R27). -/
  cur : Idx
  /-- `SCAN` (R27). -/
  scan : BitVec 9
  /-- `MLEFT` (R27). -/
  mleft : BitVec 9
  /-- `PQ` (R28): a set of node indices, kept as the rising list of its elements. -/
  pq : List Idx
  /-- `STK` (R29): pairs of a node index and the path to it, the top first. -/
  stk : List (Idx × Bits)
  /-- Model's own: inside ENCODE, the next micro-step is a beat (true) or a lookup (false) (R98; log 5). -/
  beat : Bool
  /-- Model's own: the moves the host has still to make, the next one first (log 1). -/
  host : List HostMove
  /-- Model's own: the events on the ports, the latest first (log 2). -/
  events : List (Event W)
  /-- Model's own: the free-value counter (log 7). -/
  free : Nat
  deriving DecidableEq, Repr

/-! ### Stops -/

/-- Stops of the model in states that break the invariants of `10_state.md`, for which the spec gives no effect (R118: an
operation is total "on every state that satisfies the invariants"). No run from reset reaches one; all are SAFE (log 6). -/
inductive Fault where
  /-- COUNT, ENCODE or DECODE at a position where its sequence has no element (`ILEN` or `BLEN` exceeds the sequence). -/
  | noElement
  /-- GEN or DECODE at a record at or above `NNODE` (R38, R144). -/
  | unusedNode
  /-- GEN on a path of more than 255 edges (R65). -/
  | pathTooLong
  /-- BUILD, merging, with fewer than two nodes in `PQ` (R80). -/
  | queueUnderflow
  /-- BUILD with 511 records in use and one more to write (R38). -/
  | arenaFull
  /-- An operation did not complete within the micro-steps the spec counts (R155), which a cyclic arena can cause. -/
  | noCompletion
  deriving DecidableEq, Repr

/-- Why a command or a load has no meaning. -/
inductive Refusal where
  /-- Raised by an arm of `exec` only: the command of this mnemonic is not modelled. SAFE. -/
  | notModelled (mnemonic : String)
  /-- Raised by GEN when the root is a leaf, which R94 says to refuse; no run from reset reaches it. SAFE (log 6). -/
  | leafRoot
  /-- Raised by `LOAD_IN` of more than `LEN_MAX` bytes and `LOAD_BITS` of more than `BITS_MAX` bits, host moves that do not exist and
  that a model refuses (R46, R140, U15). SAFE (log 3). -/
  | overlongLoad
  deriving DecidableEq, Repr

/-- The state right after reset (R34, R142), at any `W_CNT`. The working registers and `NODE`, which the spec leaves unspecified, hold zeros
(DESIGN CHOICE, UNSAFE, log 8 and log 9). -/
def State.resetAt (W : Nat) : State W where
  phase := .idle
  sLatch := false
  done := false
  err := .ok
  freq := []
  node := []
  nsym := 0#9
  nnode := 0#9
  root := nullIdx
  code := []
  input := []
  ilen := 0#_
  bits := []
  blen := 0#_
  out := []
  olen := 0#_
  ipos := 0#_
  cpos := 0#8
  bpos := 0#_
  cur := 0#9
  scan := 0#9
  mleft := 0#9
  pq := []
  stk := []
  beat := false
  host := []
  events := []
  free := 0

/-- This hardware right after reset. -/
def State.reset : State := State.resetAt Config.wCnt

end Sys2Proof.Machine
end

