-- ==== Sys2Proof/Machine/Ops.lean ====
section
/-! DEFINITION. The named operations over tables, sequences and control state; acceptance (R114), completion (R116) and
taking an error (R125). -/

namespace Sys2Proof.Machine

variable {W : Nat}

/-- The outcome of a step of this machine. -/
abbrev Result (W : Nat := Config.wCnt) := Host.Outcome (State W) Fault Refusal

/-! ### Tables (`20_memory.md` R37) -/

/-- `MemRead(space, i)` (R9, R37); `d` is what an unlisted index reads as. -/
def Memory.read {α : Type} (d : α) : Memory α → Nat → α
  | [], _ => d
  | (k, v) :: t, i => if i = k then v else Memory.read d t i

/-- Put an entry at its place in a rising list, instead of the one at its index. -/
def Memory.insert {α : Type} (i : Nat) (v : α) : Memory α → Memory α
  | [] => [(i, v)]
  | (k, w) :: t =>
    if i < k then (i, v) :: (k, w) :: t
    else if i = k then (i, v) :: t
    else (k, w) :: Memory.insert i v t

/-- `MemWrite(space, i, v)` (R9, R37); writing `d`, what an unlisted index reads as, removes the entry. -/
def Memory.write {α : Type} [DecidableEq α] (d : α) (m : Memory α) (i : Nat) (v : α) : Memory α :=
  if v = d then m.filter (fun c => c.1 != i) else Memory.insert i v m

/-- The canonical form of a table: rising indices below `bound`, no entry equal to `d`. -/
def Memory.wf {α : Type} [DecidableEq α] (d : α) (bound : Nat) (m : Memory α) : Bool :=
  decide (m.Pairwise (fun a b => a.1 < b.1)) && m.all (fun c => decide (c.1 < bound) && decide (c.2 ≠ d))

/-- `FREQ[s]` (R18): 0 where nothing was counted. -/
def freqAt (s : State W) (b : Byte) : Cnt W := Memory.read 0#_ s.freq b.toNat

/-- `CODE[s]` (R23): the absent entry where nothing was written. -/
def codeAt (s : State W) (b : Byte) : CodeEnt := Memory.read CodeEnt.absent s.code b.toNat

/-- `NODE[i]` (R19). -/
def nodeAt (s : State W) (i : Idx) : NodeRec W := Memory.read NodeRec.blank s.node i.toNat

/-- `FREQ[s] <- v`. -/
def setFreq (b : Byte) (v : Cnt W) (s : State W) : State W :=
  { s with freq := Memory.write 0#_ s.freq b.toNat v }

/-- `CODE[s] <- v`. -/
def setCode (b : Byte) (v : CodeEnt) (s : State W) : State W :=
  { s with code := Memory.write CodeEnt.absent s.code b.toNat v }

/-- `NODE[i] <- rec`. -/
def setNode (i : Idx) (r : NodeRec W) (s : State W) : State W :=
  { s with node := Memory.write NodeRec.blank s.node i.toNat r }

/-- A unit's read of a record: only records in use exist for it (R38, R144). -/
def useNode (s : State W) (i : Idx) : Option (NodeRec W) :=
  if i < s.nnode then some (nodeAt s i) else none

/-- BUILD's allocation (R43): the record goes to the next free index. -/
def allocNode (r : NodeRec W) (s : State W) (k : State W → Result W) : Result W :=
  if s.nnode.toNat < Config.nnodeMax then k { setNode s.nnode r s with nnode := s.nnode + 1#9 }
  else .fault .arenaFull

/-! ### Sequences and port events (R9, R63) -/

/-- Something happens on the ports. -/
def emit (e : Event W) (s : State W) : State W := { s with events := e :: s.events }

/-- `append(BITS, b)`: one beat on the serial output (R97). -/
def appendBit (b : Bool) (s : State W) : State W :=
  emit (.bit b) { s with bits := s.bits ++ [b], blen := s.blen + 1#_ }

/-- `append(OUT, v)`: one beat on the symbol output (R106). -/
def appendSym (v : Byte) (s : State W) : State W :=
  emit (.sym v) { s with out := s.out ++ [v], olen := s.olen + 1#_ }

/-- `BITS <- ε ; BLEN <- 0`. -/
def clearBits (s : State W) : State W := { s with bits := [], blen := 0#_ }

/-- `OUT <- ε ; OLEN <- 0`. -/
def clearOut (s : State W) : State W := { s with out := [], olen := 0#_ }

/-! ### Acceptance and completion -/

/-- Acceptance of the command word `w` (R114): `DONE <- 0`, `S_LATCH <- w[3]`, `PHASE <- p`; `ERR` stays. -/
def accept (w : Cmd) (p : Phase) (s : State W) : State W :=
  emit (.accepted w) { s with done := false, sLatch := w.getLsbD 3, phase := p }

/-- Completion (R116): `DONE <- 1`, `ERR` written, `PHASE <- IDLE`. -/
def complete (e : Err) (s : State W) : State W :=
  emit (.completed e) { s with done := true, err := e, phase := .idle }

/-- A unit stops: its working registers hold unspecified values (R27, U1: free values, log 7); `PQ` and `STK` are empty
outside their phases (R28, R29). -/
def release (s : State W) : State W :=
  { s with
    ipos := Config.freeIpos W s.free
    cpos := Config.freeCpos s.free
    bpos := Config.freeBpos W s.free
    cur := Config.freeCur s.free
    scan := Config.freeScan s.free
    mleft := Config.freeMleft s.free
    pq := []
    stk := []
    beat := false
    free := s.free + 1 }

/-- `finish OK` (R9). -/
def finishOk (s : State W) : State W := complete .ok (release s)

/-- Step (1) of taking an error (R125): the output sequence of the running operation is emptied. -/
def clearOutput (s : State W) : State W :=
  match s.phase with
  | .encode => clearBits s
  | .decode => clearOut s
  | _ => s

/-- TAKING AN ERROR, `raise <Error>` (R125): output emptied, `ERR` written, `DONE <- 1`, `PHASE <- IDLE`. Nothing is saved and
nothing is vectored. There is no return from it: the block is idle and takes the next command (R133). -/
def raise (e : Err) (s : State W) : State W := complete e (release (clearOutput s))

/-- A reserved command word accepted while idle (R57, R129): no unit runs and no output sequence is touched. -/
def takeIllegal (w : Cmd) (s : State W) : State W := complete .illegalCmd (accept w .idle s)

/-! ### Running -/

/-- Go on with the next state, or stop. -/
def andThen (o : Result W) (k : State W → Result W) : Result W :=
  match o with
  | .next s => k s
  | .fault r => .fault r
  | .refused r => .refused r

/-- Micro-steps of one unit until it has completed, at most `n` of them (R10, R155). -/
def runUnit (micro : State W → Result W) : Nat → State W → Result W
  | 0, s => if s.phase = .idle then .next s else .fault .noCompletion
  | n + 1, s => if s.phase = .idle then .next s else andThen (micro s) (runUnit micro n)

/-- A command is taken only while idle (R114); a command while busy is ignored (R117). -/
def whenIdle (s : State W) (r : Result W) : Result W := if s.phase = .idle then r else .next s

/-- `rst` (R141, R146): every element of state to its reset value, whatever the block was doing. The host's moves, the events and
the free-value counter are no state of the block. -/
def hardReset (s : State W) : State W :=
  emit .reset { State.resetAt W with host := s.host, events := s.events, free := s.free + 1 }

end Sys2Proof.Machine
end

