-- ==== Sys2Proof/Machine/Flags.lean ====
section
/-! DEFINITION. The status flags (`10_state.md` R31) and the host-visible registers (R32). There are no arithmetic flags. -/

namespace Sys2Proof.Machine

variable {W : Nat}

/-- The code of `PHASE` (R14, R58). -/
def Phase.toCode : Phase → BitVec 3
  | .idle => 0#3
  | .count => 1#3
  | .build => 2#3
  | .gen => 3#3
  | .encode => 4#3
  | .decode => 5#3

/-- The code of `ERR` (R17, R123). -/
def Err.toCode : Err → BitVec 3
  | .ok => 0#3
  | .emptyInput => 1#3
  | .encoding => 2#3
  | .decoding => 3#3
  | .illegalCmd => 4#3

/-- `BUSY` (R14): a unit is running. -/
def busy (s : State W) : Bool := decide (s.phase ≠ .idle)

/-- `STATUS` in the format `STATUS8` (R58). -/
def statusWord (s : State W) : BitVec 8 :=
  s.phase.toCode ++ s.err.toCode ++ BitVec.ofBool s.done ++ BitVec.ofBool (busy s)

/-- Register `n` of the host port (R32), zero-extended; `CMD` reads as 0. -/
def hostReg (s : State W) (n : BitVec 3) : BLen W :=
  match n.toNat with
  | 1 => (statusWord s).setWidth _
  | 2 => s.nsym.setWidth _
  | 3 => s.nnode.setWidth _
  | 4 => s.root.setWidth _
  | 5 => s.ilen.setWidth _
  | 6 => s.blen
  | 7 => s.olen
  | _ => 0#_

end Sys2Proof.Machine
end

