-- ==== Sys2Proof/Machine/Operands.lean ====
section
/-! DEFINITION. Operand assembly (`30_encoding.md` R62) and the bit formats of the entries (R59 to R61). Commands have no
operands (R54); what the units take from the tables and sequences is assembled here. -/

namespace Sys2Proof.Machine

variable {W : Nat}

/-- `code(s)` (R9, R62): the bits of an entry at positions 0, 1, ..., `len` - 1, in that order. -/
def CodeEnt.string (c : CodeEnt) : Bits := (List.range c.len.toNat).map (fun j => c.bits.getLsbD j)

/-- The number whose bit `j` is position `j` of a path (R61). -/
def pathNumber : Bits → Nat
  | [] => 0
  | b :: p => b.toNat + 2 * pathNumber p

/-- The entry GEN builds from a path (R62): `len <- |p|`, `bits[j] <- p[j]`, the other bits 0. -/
def CodeEnt.ofPath (p : Bits) : CodeEnt := ⟨BitVec.ofNat 8 p.length, BitVec.ofNat _ (pathNumber p)⟩

/-- `kind` as a bit (R19): `LEAF` 0, `INTERNAL` 1. -/
def Kind.bit : Kind → BitVec 1
  | .leaf => 0#1
  | .internal => 1#1

/-- The format `NODEREC` (R60). -/
def NodeRec.pack (r : NodeRec W) : BitVec (Config.nodeW W) :=
  (r.weight ++ (r.right ++ (r.left ++ (r.sym ++ r.kind.bit : BitVec 9) : BitVec 18) : BitVec 27)).cast
    (Nat.add_comm W 27)

/-- The format `CODEENT` (R61). -/
def CodeEnt.pack (c : CodeEnt) : BitVec Config.codeW := c.bits ++ c.len

/-- The leaf record of a symbol (R77). -/
def leafRec (b : Byte) (w : Cnt W) : NodeRec W := ⟨.leaf, b, w, nullIdx, nullIdx⟩

/-- An internal record (R80, R84). -/
def internalRec (w : Cnt W) (left right : Idx) : NodeRec W := ⟨.internal, 0#8, w, left, right⟩

/-- The next input byte, `IN[IPOS]` (R71, R96). -/
def inputByte (s : State W) : Option Byte := s.input[s.ipos.toNat]?

/-- The next input bit of the decoder, `BITS[BPOS]` (R104). -/
def inputBit (s : State W) : Option Bool := s.bits[s.bpos.toNat]?

/-- The child the walk goes to (R90, R105): left on 0, right on 1. -/
def NodeRec.child (r : NodeRec W) (b : Bool) : Idx := if b then r.right else r.left

end Sys2Proof.Machine
end

