-- ==== Sys2Proof/Machine/Codegen.lean ====
section
/-! DEFINITION. `canonical_codegen`, command `GEN` (`42_codegen.md`). -/

namespace Sys2Proof.Machine

variable {W : Nat}

/-- The head of GEN's loop: with `STK` empty the operation finishes (R89). -/
def genHead (s : State W) : Result W := if s.stk = [] then .next (finishOk s) else .next s

/-- Acceptance, the clear and the first push (R89). A leaf root is refused (R94; log 6). -/
def startGen (s : State W) : Result W :=
  let t := { accept (encode .gen) .gen s with code := [] }
  if s.root = nullIdx then genHead { t with stk := [] }
  else
    match useNode s s.root with
    | none => .fault .unusedNode
    | some r =>
      match r.kind with
      | .leaf => .refused .leafRoot
      | .internal => genHead { t with stk := [(s.root, [])] }

/-- The children GEN pushes, the one to be visited first on top (R89, R91). -/
def genChildren (r : NodeRec W) (p : Bits) : List (Idx × Bits) :=
  if r.right = nullIdx then [(r.left, p ++ [false])] else [(r.left, p ++ [false]), (r.right, p ++ [true])]

/-- One micro-step of GEN (R91): one pop; a leaf writes its entry, an internal node pushes its children. -/
def genMicro (s : State W) : Result W :=
  match s.stk with
  | [] => .next (finishOk s)
  | (n, p) :: rest =>
    if Config.codeLenMax < p.length then .fault .pathTooLong
    else
      match useNode s n with
      | none => .fault .unusedNode
      | some r =>
        match r.kind with
        | .leaf => genHead { setCode r.sym (CodeEnt.ofPath p) s with stk := rest }
        | .internal => genHead { s with stk := genChildren r p ++ rest }

/-- `GEN` (R89): the code table of the tree; `NNODE` micro-steps (R91). -/
def execGen (s : State W) : Result W :=
  whenIdle s (andThen (startGen s) (runUnit genMicro s.nnode.toNat))

end Sys2Proof.Machine
end

