-- ==== Sys2Proof/Machine/Control.lean ====
section
/-! DEFINITION. The command that runs no unit, and the reserved words (`45_control.md` R115; `30_encoding.md` R57). -/

namespace Sys2Proof.Machine

variable {W : Nat}

/-- `NOP` (R115): accepted and completed at once; it resets `ERR` to 0. -/
def execNop (s : State W) : Result W := whenIdle s (.next (complete .ok (accept (encode .nop) .idle s)))

/-- A reserved word written to `CMD` (R57, R129). -/
def reservedWord (w : Cmd) (s : State W) : Result W := whenIdle s (.next (takeIllegal w s))

end Sys2Proof.Machine
end

