-- ==== Sys2Proof/Machine/Decoder.lean ====
section
/-! DEFINITION. `huffman_decoder`, command `DECODE` (`44_decoder.md`). -/

namespace Sys2Proof.Machine

variable {W : Nat}

/-- The head of DECODE's loop: after the last bit the walk must stand on the root (R107). -/
def decodeHead (s : State W) : Result W :=
  if s.bpos < s.blen then .next s
  else if s.cur = s.root then .next (finishOk s)
  else .next (raise .decoding s)

/-- Acceptance and step 0 of DECODE (R104), with the null tree decided before any bit (R109). -/
def startDecode (s : State W) : Result W :=
  let t := { clearOut (accept (encode .decode) .decode s) with bpos := 0#_, cur := s.root }
  if s.root = nullIdx then
    if s.blen = 0#_ then .next (finishOk t) else .next (raise .decoding t)
  else decodeHead t

/-- One micro-step of DECODE: one bit consumed. With the one-child root every bit is the symbol (R108); otherwise one edge of the
walk, and at a leaf its symbol and back to the root (R105). -/
def decodeMicro (s : State W) : Result W :=
  match inputBit s with
  | none => .fault .noElement
  | some b =>
    match useNode s s.root with
    | none => .fault .unusedNode
    | some root =>
      if root.right = nullIdx then
        match useNode s root.left with
        | none => .fault .unusedNode
        | some r => decodeHead { appendSym r.sym s with bpos := s.bpos + 1#_ }
      else
        match useNode s s.cur with
        | none => .fault .unusedNode
        | some c =>
          match useNode s (c.child b) with
          | none => .fault .unusedNode
          | some r =>
            match r.kind with
            | .leaf => decodeHead { appendSym r.sym s with cur := s.root, bpos := s.bpos + 1#_ }
            | .internal => decodeHead { s with cur := c.child b, bpos := s.bpos + 1#_ }

/-- `DECODE` (R104): the symbols of the bit sequence; `BLEN` micro-steps (R155). -/
def execDecode (s : State W) : Result W :=
  whenIdle s (andThen (startDecode s) (runUnit decodeMicro s.blen.toNat))

end Sys2Proof.Machine
end

