-- ==== Sys2Proof/Machine/Encoder.lean ====
section
/-! DEFINITION. `huffman_encoder`, command `ENCODE` (`43_encoder.md`). -/

namespace Sys2Proof.Machine

variable {W : Nat}

/-- The head of ENCODE's loop: with `IPOS` at `ILEN` the operation finishes (R96). -/
def encodeHead (s : State W) : Result W := if s.ipos < s.ilen then .next s else .next (finishOk s)

/-- Acceptance and step 0 of ENCODE (R98): `BITS`, `BLEN`, `IPOS` cleared. -/
def startEncode (s : State W) : Result W :=
  encodeHead { clearBits (accept (encode .encode) .encode s) with ipos := 0#_, beat := false }

/-- One micro-step of ENCODE (R98): the lookup of a symbol's entry, where a missing one raises `EncodingError` (R99), or one beat of
the entry's code (R97). -/
def encodeMicro (s : State W) : Result W :=
  match inputByte s with
  | none => .fault .noElement
  | some b =>
    let c := codeAt s b
    if s.beat = false then
      if c.len = 0#8 then .next (raise .encoding s) else .next { s with cpos := 0#8, beat := true }
    else
      let t := appendBit (c.bits.getLsbD s.cpos.toNat) s
      if s.cpos.toNat + 1 < c.len.toNat then .next { t with cpos := s.cpos + 1#8 }
      else encodeHead { t with cpos := s.cpos + 1#8, ipos := s.ipos + 1#_, beat := false }

/-- `ENCODE` (R96): the codes of the input symbols in order; a symbol takes a lookup and at most 255 beats (R98, R155). -/
def execEncode (s : State W) : Result W :=
  whenIdle s (andThen (startEncode s) (runUnit encodeMicro (256 * s.ilen.toNat)))

end Sys2Proof.Machine
end

