-- ==== Sys2Proof/Machine/FrequencyCounter.lean ====
section
/-! DEFINITION. `frequency_counter`, command `COUNT` (`40_frequency_counter.md`). -/

namespace Sys2Proof.Machine

variable {W : Nat}

/-- The head of COUNT's loop: with `IPOS` at `ILEN` the operation finishes (R71). -/
def countHead (s : State W) : Result W := if s.ipos < s.ilen then .next s else .next (finishOk s)

/-- Acceptance and step 0 of COUNT (R72): all entries cleared, `IPOS <- 0`. -/
def startCount (s : State W) : Result W :=
  countHead { accept (encode .count) .count s with freq := [], ipos := 0#_ }

/-- One micro-step of COUNT (R72): one byte read, its entry incremented. -/
def countMicro (s : State W) : Result W :=
  match inputByte s with
  | none => .fault .noElement
  | some b => countHead { setFreq b (freqAt s b + 1#_) s with ipos := s.ipos + 1#_ }

/-- `COUNT` (R71): the histogram of `IN`; `ILEN` micro-steps (R155). -/
def execCount (s : State W) : Result W :=
  whenIdle s (andThen (startCount s) (runUnit countMicro s.ilen.toNat))

end Sys2Proof.Machine
end

