-- ==== Sys2Proof/Machine/TreeBuilder.lean ====
section
/-! DEFINITION. `huffman_tree_builder`, commands `BUILD` and `BUILD.S` (`41_tree_builder.md`). -/

namespace Sys2Proof.Machine

variable {W : Nat}

/-- `before(x, y)` (R79): the four tests in their order, each deciding when it distinguishes the nodes. -/
def before (node : Memory (NodeRec W)) (x y : Idx) : Bool :=
  let p := Memory.read NodeRec.blank node x.toNat
  let q := Memory.read NodeRec.blank node y.toNat
  if p.weight ≠ q.weight then p.weight < q.weight
  else
    match p.kind, q.kind with
    | .leaf, .leaf => p.sym < q.sym
    | .internal, .leaf => true
    | .leaf, .internal => false
    | .internal, .internal => x < y

/-- The least element under `before` of a set that holds `m` (R79). -/
def leastOf (node : Memory (NodeRec W)) (m : Idx) (q : List Idx) : Idx :=
  q.foldl (fun m y => if before node y m then y else m) m

/-- Remove the least element of `PQ` (R80). -/
def extractMin (node : Memory (NodeRec W)) : List Idx → Option (Idx × List Idx)
  | [] => none
  | x :: q => some (leastOf node x q, (x :: q).erase (leastOf node x q))

/-- Insert an index into `PQ`; a set, kept as the rising list of its elements (R28). -/
def pqInsert (i : Idx) : List Idx → List Idx
  | [] => [i]
  | x :: q => if i < x then i :: x :: q else if i = x then x :: q else x :: pqInsert i q

/-- Acceptance and the start of the leaf scan (R76, R77). `NNODE` counts the leaves while `SCAN` goes up. -/
def startBuild (w : Cmd) (s : State W) : Result W :=
  .next { accept w .build s with nnode := 0#9, scan := 0#9 }

/-- After the scan (R76): the null tree (R83, R85), the synthesized root (R84), or the first `PQ` (R78). -/
def buildRoots (s : State W) : Result W :=
  if s.nnode = 0#9 then
    if s.sLatch then .next (raise .emptyInput { s with nsym := 0#9, root := nullIdx })
    else .next (finishOk { s with nsym := 0#9, root := nullIdx })
  else if s.nnode = 1#9 then
    allocNode (internalRec (nodeAt s 0#9).weight 0#9 nullIdx) { s with nsym := 1#9 } fun t =>
      .next (finishOk { t with root := 1#9 })
  else
    .next { s with
      nsym := s.nnode
      pq := (List.range s.nnode.toNat).map (BitVec.ofNat 9)
      mleft := s.nnode - 1#9 }

/-- `SCAN` goes on to the next symbol; after the last one the scan is over (R77). -/
def scanNext (s : State W) : Result W :=
  if s.scan = 255#9 then buildRoots { s with scan := 256#9 } else .next { s with scan := s.scan + 1#9 }

/-- One micro-step of the leaf scan (R77): a leaf for the symbol `SCAN` if it was counted. -/
def buildScan (s : State W) : Result W :=
  let b : Byte := s.scan.setWidth 8
  if freqAt s b = 0#_ then scanNext s else allocNode (leafRec b (freqAt s b)) s scanNext

/-- The head of the merge loop: with no merge left the last record is the root (R81). -/
def mergeHead (s : State W) : Result W :=
  if s.mleft = 0#9 then .next (finishOk { s with root := s.nnode - 1#9 }) else .next s

/-- One merge (R80): `a` and `b` leave `PQ`, their parent enters it. -/
def buildMerge (s : State W) : Result W :=
  match extractMin s.node s.pq with
  | none => .fault .queueUnderflow
  | some (a, q) =>
    match extractMin s.node q with
    | none => .fault .queueUnderflow
    | some (b, q') =>
      allocNode (internalRec ((nodeAt s a).weight + (nodeAt s b).weight) a b)
        { s with pq := pqInsert s.nnode q', mleft := s.mleft - 1#9 } mergeHead

/-- One micro-step of BUILD: a scan step while symbols are left, then merges (R76). -/
def buildMicro (s : State W) : Result W := if s.scan < 256#9 then buildScan s else buildMerge s

/-- The micro-steps BUILD can need: 256 scan steps and 255 merges (R155). -/
abbrev buildSteps : Nat := 511

/-- `BUILD` (R76): the tree of `FREQ`; an empty table gives the null tree and no error (R83). -/
def execBuild (s : State W) : Result W :=
  whenIdle s (andThen (startBuild (encode .build) s) (runUnit buildMicro buildSteps))

/-- `BUILD.S` (R85): as `BUILD`, but an empty table raises `EmptyInputError`. -/
def execBuildS (s : State W) : Result W :=
  whenIdle s (andThen (startBuild (encode .buildS) s) (runUnit buildMicro buildSteps))

end Sys2Proof.Machine
end

