-- ==== Sys2Proof/Machine/Sequencer.lean ====
section
/-! DEFINITION. The sequencer seen one micro-step at a time and one command at a time (`00_scope.md` R10, R11; `45_control.md` R114). -/

namespace Sys2Proof.Machine

variable {W : Nat}

/-- One micro-step of the running unit; an idle block stays as it is (R138). -/
def microStep (s : State W) : Result W :=
  match s.phase with
  | .idle => .next s
  | .count => countMicro s
  | .build => buildMicro s
  | .gen => genMicro s
  | .encode => encodeMicro s
  | .decode => decodeMicro s

/-- `k` micro-steps with the host passive. -/
def microSteps : Nat → State W → Result W
  | 0, s => .next s
  | k + 1, s => andThen (microStep s) (microSteps k)

/-- A word written to `CMD` while idle: acceptance and the operation's step 0 alone (R114). -/
def acceptWord (w : Cmd) (s : State W) : Result W :=
  match decode w with
  | .error _ => reservedWord w s
  | .ok .nop => execNop s
  | .ok .count => startCount s
  | .ok .build => startBuild w s
  | .ok .buildS => startBuild w s
  | .ok .gen => startGen s
  | .ok .encode => startEncode s
  | .ok .decode => startDecode s

/-- The command `i` run to completion, at any `W_CNT` (R6); `exec` is this at the `W_CNT` of this hardware. -/
def execAt (i : Instr) (s : State W) : Result W :=
  match i with
  | .nop => execNop s
  | .count => execCount s
  | .build => execBuild s
  | .buildS => execBuildS s
  | .gen => execGen s
  | .encode => execEncode s
  | .decode => execDecode s

end Sys2Proof.Machine
end

