-- ==== Sys2Proof/Machine/HostPort.lean ====
section
/-! DEFINITION. The host's accesses (`45_control.md` R119, R120; `20_memory.md` R38, R45, R46). -/

namespace Sys2Proof.Machine

variable {W : Nat}

/-- What a host read of `NODE[i]` returns (R38): index 511 names no record; a record that is no node of the tree reads as a free
value (U2, log 7). -/
def rdNode (s : State W) (i : Idx) : Answer W :=
  if i = nullIdx then .notAccepted
  else if i < s.nnode then .node (nodeAt s i).pack
  else .node (Config.freeNode W s.free i.toNat)

/-- A byte of a sequence; a position at or beyond its length is not admitted (R38). -/
def rdByte (o : Option Byte) : Answer W :=
  match o with
  | some b => .byte b
  | none => .notAccepted

/-- A bit of a sequence; a position at or beyond its length is not admitted (R38). -/
def rdBit (o : Option Bool) : Answer W :=
  match o with
  | some b => .bit b
  | none => .notAccepted

/-- `LOAD_IN` (R46): `IN` and `ILEN` as one value; a longer sequence than `LEN_MAX` is not admitted and is refused (log 3). -/
def loadIn (seq : List Byte) (s : State W) : Result W :=
  if seq.length ≤ Config.lenMax W then
    .next (emit (.answer .loaded) { s with input := seq, ilen := BitVec.ofNat _ seq.length })
  else .refused .overlongLoad

/-- `LOAD_BITS` (R46): `BITS` and `BLEN` as one value; a longer sequence than `BITS_MAX` is not admitted and is refused (log 3). -/
def loadBits (seq : Bits) (s : State W) : Result W :=
  if seq.length ≤ Config.bitsMax W then
    .next (emit (.answer .loaded) { s with bits := seq, blen := BitVec.ofNat _ seq.length })
  else .refused .overlongLoad

/-- An access made while idle (R119). A write to a read-only register is ignored (R32). -/
def idleAccess (a : Access) (s : State W) : Result W :=
  match a with
  | .rdReg n => .next (emit (.answer (.reg (hostReg s n))) s)
  | .rdFreq b => .next (emit (.answer (.count (freqAt s b))) s)
  | .rdNode i => .next (emit (.answer (rdNode s i)) s)
  | .rdCode b => .next (emit (.answer (.code (codeAt s b).pack)) s)
  | .rdIn k => .next (emit (.answer (rdByte s.input[k]?)) s)
  | .rdBits k => .next (emit (.answer (rdBit s.bits[k]?)) s)
  | .rdOut k => .next (emit (.answer (rdByte s.out[k]?)) s)
  | .loadIn seq => loadIn seq s
  | .loadBits seq => loadBits seq s
  | .wrReg n w => if n = 0#3 then acceptWord w s else .next s

/-- An access made while busy (R45, R117): only `STATUS` is read; everything else is dropped without a change. -/
def busyAccess (a : Access) (s : State W) : State W :=
  if a = .rdReg 1#3 then emit (.answer (.reg (hostReg s 1#3))) s else emit (.answer .notAccepted) s

/-- One access of the host (R119). -/
def hostAccess (a : Access) (s : State W) : Result W :=
  if s.phase = .idle then idleAccess a s else .next (busyAccess a s)

/-- The next move of the host, if it has one, and the state with that move made. -/
def fetchMove (s : State W) : Option HostMove × State W :=
  match s.host with
  | [] => (none, s)
  | m :: rest => (some m, { s with host := rest })

end Sys2Proof.Machine
end

