-- ==== Sys2Proof/Machine/CommandLine.lean ====
section
/-! DEFINITION. Command lines of a program and the pseudo-operations (`30_encoding.md` R67, R68; `45_control.md` R121). -/

namespace Sys2Proof.Machine

variable {W : Nat}

/-- A command line (R121): the word is decoded and its command, under the dispatch `run`, runs to completion; a reserved word
reports itself (R57). -/
def runLine (run : Instr → State W → Result W) (w : Cmd) (s : State W) : Result W :=
  match decode w with
  | .ok i => run i s
  | .error (.reserved v) => reservedWord v s

/-- A later line of a pseudo-operation (R68): not made after an error. -/
def runLineIfOk (run : Instr → State W → Result W) (w : Cmd) (s : State W) : Result W :=
  if s.err = .ok then runLine run w s else .next s

/-- `COMPRESS <bytes>` (R68). -/
def compressMoves (seq : List Byte) : List HostMove :=
  [.access (.loadIn seq), .line (encode .count), .lineIfOk (encode .build), .lineIfOk (encode .gen),
    .lineIfOk (encode .encode)]

/-- `ROUNDTRIP <bytes>` (R68). -/
def roundtripMoves (seq : List Byte) : List HostMove := compressMoves seq ++ [.lineIfOk (encode .decode)]

end Sys2Proof.Machine
end

