-- ==== Sys2Proof/Machine/Step.lean ====
section
/-! DEFINITION. One step: the host's next move, or a micro-step of the sequencer while the host is passive (R11, R120, R121). -/

namespace Sys2Proof.Machine

variable {W : Nat}

/-- One step, with the commands dispatched by `run`. A command line (R121) runs its command to completion; any other move is one
event between two micro-steps. -/
def stepWith (run : Instr → State W → Result W) (s : State W) : Result W :=
  match fetchMove s with
  | (none, t) => microStep t
  | (some (.line w), t) => runLine run w t
  | (some (.lineIfOk w), t) => runLineIfOk run w t
  | (some (.access a), t) => hostAccess a t
  | (some .wait, t) => microStep t
  | (some .rst, t) => .next (hardReset t)

/-- One step of the block with the argument `W_CNT` = `W` (R6). -/
def stepAt (W : Nat) (s : State W) : Result W := stepWith execAt s

/-- One step of this hardware. -/
def step (s : State) : Host.Outcome State Fault Refusal := stepWith exec s

/-- The state in which the host's next move is the command line of the word `w` (log 13). -/
def State.withFetchWord (s : State) (_nbits w : Nat) : State :=
  { s with host := .line (BitVec.ofNat 4 w) :: s.host }

end Sys2Proof.Machine
end

