-- ==== Sys2Proof/Safety.lean ====
section
/-! DEFINITION. What the spec promises of the state: the invariants of `10_state.md`, and the functions the rules use to say what a
command computes. -/

namespace Sys2Proof.Machine

variable {W : Nat}

/-! ### Tables, sequences, control -/

/-- Every table is in canonical form, with its indices in range (R35). -/
def MemWf (s : State W) : Prop :=
  Memory.wf 0#_ Config.nsymMax s.freq = true ∧ Memory.wf NodeRec.blank Config.nnodeMax s.node = true ∧
    Memory.wf CodeEnt.absent Config.nsymMax s.code = true

/-- Each length register holds the length of its sequence (R24 to R26). -/
structure LenOk (s : State W) : Prop where
  input : s.input.length = s.ilen.toNat
  bits : s.bits.length = s.blen.toNat
  out : s.out.length = s.olen.toNat

/-- `LenOk`, with the bounds that keep it while ENCODE and DECODE append (R102, R106). -/
structure LenInv (s : State W) : Prop where
  lens : LenOk s
  encPos : s.phase = .encode → s.ipos < s.ilen
  encBeat : s.phase = .encode → s.beat = true → s.cpos.toNat < Config.codeLenMax
  encBits : s.phase = .encode →
    s.bits.length ≤ 255 * s.ipos.toNat + (if s.beat then s.cpos.toNat else 0)
  decPos : s.phase = .decode → s.bpos < s.blen
  decOut : s.phase = .decode → s.out.length ≤ s.bpos.toNat

/-- `BUSY` and `DONE` are never both 1 (R58); `PQ`, `STK` and ENCODE's place exist only in their phases (R28, R29). -/
structure ControlInv (s : State W) : Prop where
  busyNotDone : s.phase ≠ .idle → s.done = false
  queue : s.phase ≠ .build → s.pq = []
  stack : s.phase ≠ .gen → s.stk = []
  place : s.phase ≠ .encode → s.beat = false

/-- The sum of all entries of `FREQ` (R72). -/
def freqSum (s : State W) : Nat :=
  ((List.range Config.nsymMax).map (fun b => (freqAt s (BitVec.ofNat 8 b)).toNat)).sum

/-- The counts never exceed what a count or a weight can hold (R74, R86). -/
structure CountInv (s : State W) : Prop where
  fits : freqSum s ≤ Config.lenMax W
  pos : s.phase = .count → s.ipos < s.ilen
  sum : s.phase = .count → freqSum s = s.ipos.toNat

/-- Bits of a code entry at or above its length are 0 (R23). -/
def CodeBitsInv (s : State W) : Prop :=
  ∀ (b : Byte) (j : Nat), (codeAt s b).len.toNat ≤ j → (codeAt s b).bits.getLsbD j = false

/-! ### The tree -/

/-- Record `i` of the arena, by number. -/
def nodeNo (s : State W) (i : Nat) : NodeRec W := Memory.read NodeRec.blank s.node i

/-- Record `j` is an internal record with `i` as a child. -/
def isChild (s : State W) (j i : Nat) : Bool :=
  decide ((nodeNo s j).kind = .internal) &&
    (decide ((nodeNo s j).left.toNat = i) || decide ((nodeNo s j).right.toNat = i))

/-- How many records in use have `i` as a child (R21 (d)). -/
def parents (s : State W) (i : Nat) : Nat :=
  ((List.range s.nnode.toNat).filter (fun j => isChild s j i)).length

/-- Records `0` to `n - 1` are leaves with rising symbols below `top` and positive weights (R21 (b), R77). -/
structure LeavesOk (s : State W) (n top : Nat) : Prop where
  isLeaf : ∀ i, i < n → (nodeNo s i).kind = .leaf ∧ (nodeNo s i).left = nullIdx ∧ (nodeNo s i).right = nullIdx
  weight : ∀ i, i < n → 1 ≤ (nodeNo s i).weight.toNat
  below : ∀ i, i < n → (nodeNo s i).sym.toNat < top
  rising : ∀ i j, i < j → j < n → (nodeNo s i).sym.toNat < (nodeNo s j).sym.toNat

/-- Records `n` to `m - 1` are internal, made of two different earlier records (R21 (c), (e)). -/
def InternalsOk (s : State W) (n m : Nat) : Prop :=
  ∀ i, n ≤ i → i < m →
    (nodeNo s i).kind = .internal ∧ (nodeNo s i).sym = 0#8 ∧ (nodeNo s i).left ≠ (nodeNo s i).right ∧
    (nodeNo s i).left.toNat < i ∧ (nodeNo s i).right.toNat < i ∧
    (nodeNo s i).weight = (nodeAt s (nodeNo s i).left).weight + (nodeAt s (nodeNo s i).right).weight

/-- The combinations of `NSYM`, `NNODE`, `ROOT` (R20). -/
def TreeRegs (s : State W) : Prop :=
  (s.nsym = 0#9 ∧ s.nnode = 0#9 ∧ s.root = nullIdx) ∨
  (s.nsym = 1#9 ∧ s.nnode = 2#9 ∧ s.root = 1#9) ∨
  (2 ≤ s.nsym.toNat ∧ s.nsym.toNat ≤ 256 ∧ s.nnode.toNat = 2 * s.nsym.toNat - 1 ∧
    s.root.toNat = 2 * s.nsym.toNat - 2)

/-- The tree invariant (R21), clause by clause. -/
structure TreeInv (s : State W) : Prop where
  /-- (a). -/
  regs : TreeRegs s
  /-- (b). -/
  leaves : LeavesOk s s.nsym.toNat 256
  /-- (c), (e), (g) for N at least 2. -/
  internals : 2 ≤ s.nsym.toNat → InternalsOk s s.nsym.toNat s.nnode.toNat
  /-- (d). -/
  owned : ∀ i, i < s.nnode.toNat → i ≠ s.root.toNat → parents s i = 1
  /-- (f), (g) for N = 1. -/
  single : s.nsym = 1#9 → nodeNo s 1 = internalRec (nodeNo s 0).weight 0#9 nullIdx

/-- What holds while BUILD scans the symbols (R77). -/
structure ScanInv (s : State W) : Prop where
  count : s.nnode.toNat ≤ s.scan.toNat
  leaves : LeavesOk s s.nnode.toNat s.scan.toNat

/-- What holds while BUILD merges (R78, R80): `PQ` is the set of the roots of the sub-trees not yet merged. -/
structure MergeInv (s : State W) : Prop where
  scanned : s.scan = 256#9
  two : 2 ≤ s.nsym.toNat
  most : s.nsym.toNat ≤ 256
  left : 1 ≤ s.mleft.toNat
  count : s.nnode.toNat + s.mleft.toNat = 2 * s.nsym.toNat - 1
  leaves : LeavesOk s s.nsym.toNat 256
  internals : InternalsOk s s.nsym.toNat s.nnode.toNat
  queueRising : s.pq.Pairwise (fun x y => x < y)
  queueInUse : ∀ x ∈ s.pq, x < s.nnode
  queueSize : s.pq.length = s.mleft.toNat + 1
  owned : ∀ i, i < s.nnode.toNat → parents s i = if BitVec.ofNat 9 i ∈ s.pq then 0 else 1

/-- The tree at any moment: R21 outside BUILD, and what BUILD keeps while it works. -/
structure TreeStepInv (s : State W) : Prop where
  outside : s.phase ≠ .build → TreeInv s
  scanning : s.phase = .build → s.scan < 256#9 → ScanInv s
  merging : s.phase = .build → ¬ s.scan < 256#9 → MergeInv s

/-! ### Paths and codes -/

/-- The node reached from `n` along a path (R90): 0 goes left, 1 goes right; no edge leads to `NULL`. -/
def walk (s : State W) : Idx → Bits → Option Idx
  | n, [] => some n
  | n, b :: p =>
    match useNode s n with
    | none => none
    | some r => if r.kind = .internal ∧ r.child b ≠ nullIdx then walk s (r.child b) p else none

/-- `CODE` is the table of the tree (R89): the entry of a leaf's symbol is the path to that leaf, the other entries are absent. -/
structure CodesOfTree (s : State W) : Prop where
  leaf : ∀ i : Idx, i < s.nsym →
    ∃ p : Bits, 1 ≤ p.length ∧ p.length ≤ 255 ∧ walk s s.root p = some i ∧
      codeAt s (nodeAt s i).sym = CodeEnt.ofPath p
  absent : ∀ b : Byte, (∀ i : Idx, i < s.nsym → (nodeAt s i).sym ≠ b) → codeAt s b = CodeEnt.absent

/-- The symbols in the frequency table, in rising order (R18, R77). -/
def countedSyms (s : State W) : List Byte :=
  ((List.range Config.nsymMax).map (BitVec.ofNat 8)).filter (fun b => decide (freqAt s b ≠ 0#_))

/-- `key(x)` of R79: weight, then internal before leaf, then index. -/
def nodeKey (node : Memory (NodeRec W)) (x : Idx) : Nat × Nat × Nat :=
  ((Memory.read NodeRec.blank node x.toNat).weight.toNat,
    (match (Memory.read NodeRec.blank node x.toNat).kind with | .leaf => 1 | .internal => 0), x.toNat)

/-- Lexicographic order of keys (R79). -/
def keyLt (a b : Nat × Nat × Nat) : Prop :=
  a.1 < b.1 ∨ (a.1 = b.1 ∧ (a.2.1 < b.2.1 ∨ (a.2.1 = b.2.1 ∧ a.2.2 < b.2.2)))

/-- The bits ENCODE appends for an input (R96): the codes in input order. -/
def codesOf (s : State W) (seq : List Byte) : Bits := (seq.map (fun b => (codeAt s b).string)).flatten

/-- The walk of DECODE over a bit string from a node (R105): the symbols emitted and the node it ends on. -/
def decodeWalk (s : State W) : Idx → Bits → List Byte × Idx
  | cur, [] => ([], cur)
  | cur, b :: rest =>
    let n := (nodeAt s cur).child b
    match (nodeAt s n).kind with
    | .leaf => ((nodeAt s n).sym :: (decodeWalk s s.root rest).1, (decodeWalk s s.root rest).2)
    | .internal => decodeWalk s n rest

/-! ### Acceptance -/

/-- The operations that acceptance itself completes: `NOP` (R115), and, DEDUCED (log 5) because no micro-step is left after step 0,
COUNT and ENCODE of nothing (R73, R100), GEN of the null tree (R92), DECODE of nothing or with the null tree (R104, R109). -/
def completesAtOnce (i : Instr) (s : State W) : Prop :=
  match i with
  | .nop => True
  | .count => s.ilen = 0#_
  | .build => False
  | .buildS => False
  | .gen => s.root = nullIdx
  | .encode => s.ilen = 0#_
  | .decode => s.root = nullIdx ∨ s.blen = 0#_

/-! ### What a command leaves as it was -/

/-- `NODE`, `NSYM`, `NNODE`, `ROOT` are unchanged. -/
def SameTree (s t : State W) : Prop :=
  t.node = s.node ∧ t.nsym = s.nsym ∧ t.nnode = s.nnode ∧ t.root = s.root

/-- `IN` and `ILEN` are unchanged. -/
def SameIn (s t : State W) : Prop := t.input = s.input ∧ t.ilen = s.ilen

/-- `BITS` and `BLEN` are unchanged. -/
def SameBits (s t : State W) : Prop := t.bits = s.bits ∧ t.blen = s.blen

/-- `OUT` and `OLEN` are unchanged. -/
def SameOut (s t : State W) : Prop := t.out = s.out ∧ t.olen = s.olen

/-- The working registers and the hidden state are unchanged. -/
def SameWork (s t : State W) : Prop :=
  t.ipos = s.ipos ∧ t.cpos = s.cpos ∧ t.bpos = s.bpos ∧ t.cur = s.cur ∧ t.scan = s.scan ∧ t.mleft = s.mleft ∧
    t.pq = s.pq ∧ t.stk = s.stk ∧ t.beat = s.beat

/-- The state after an operation that a command word `w` started (R114, R116): idle, done, the status `e`, `S_LATCH` = `w[3]`, the
host's moves untouched, `PQ` and `STK` empty. -/
structure Completed (w : Cmd) (e : Err) (s t : State W) : Prop where
  idle : t.phase = .idle
  done : t.done = true
  err : t.err = e
  strict : t.sLatch = w.getLsbD 3
  host : t.host = s.host
  queue : t.pq = []
  stack : t.stk = []

end Sys2Proof.Machine
end

