-- ==== Sys2Proof/Certificates/Slice0/Obligations.lean ====
section
/-! DEFINITION. The statements for the provers. Each docstring names the rule of `spec/` it formalises. -/

open Sys2Proof Sys2Proof.Machine

/-! ### Reset -/

/-- R34: every element the spec gives a reset value has it after reset. -/
def Obligations.ResetLeavesTheEmptyBlock : Prop :=
  State.reset.phase = .idle ∧ State.reset.sLatch = false ∧ State.reset.done = false ∧ State.reset.err = .ok ∧
  (∀ b, freqAt State.reset b = 0#_) ∧ State.reset.nsym = 0#9 ∧ State.reset.nnode = 0#9 ∧
  State.reset.root = nullIdx ∧ (∀ b, (codeAt State.reset b).len = 0#8) ∧ (∀ b, (codeAt State.reset b).bits = 0#_) ∧
  State.reset.input = [] ∧ State.reset.ilen = 0#_ ∧ State.reset.bits = [] ∧ State.reset.blen = 0#_ ∧
  State.reset.out = [] ∧ State.reset.olen = 0#_ ∧ State.reset.pq = [] ∧ State.reset.stk = [] ∧
  statusWord State.reset = 0x00#8

/-- The invariants of 10_state hold right after reset. -/
def Obligations.ResetMeetsEveryInvariant : Prop :=
  MemWf State.reset ∧ LenInv State.reset ∧ ControlInv State.reset ∧ CountInv State.reset ∧
  CodeBitsInv State.reset ∧ TreeStepInv State.reset

/-- R141, R146: `rst` puts every element of the block to its reset value whatever the block was doing; the host's later moves, the
past events and the free-value counter are not the block's. That the working registers and `NODE` then hold zeros is the
model's choice (logs 8 and 9). -/
def Obligations.ResetWinsOverAnyOperation : Prop :=
  ∀ (s : State) (rest : List HostMove), s.host = .rst :: rest →
    step s = .next { State.reset with host := rest, events := .reset :: s.events, free := s.free + 1 }

/-! ### Encoding -/

/-- R70: `decode_cmd`, word by word. -/
def Obligations.CommandWordsDecodeAsListed : Prop :=
  decode 0x0#4 = .ok .nop ∧ decode 0x1#4 = .ok .count ∧ decode 0x2#4 = .ok .build ∧ decode 0xA#4 = .ok .buildS ∧
  decode 0x3#4 = .ok .gen ∧ decode 0x4#4 = .ok .encode ∧ decode 0x5#4 = .ok .decode ∧
  ∀ w : Cmd, w ∈ [0x6#4, 0x7#4, 0x8#4, 0x9#4, 0xB#4, 0xC#4, 0xD#4, 0xE#4, 0xF#4] → decode w = .error (.reserved w)

/-- R54 to R56: decoding and encoding are inverse, and a word decodes exactly when its two fields are well formed. -/
def Obligations.EncodingAndDecodingAgree : Prop :=
  (∀ i : Instr, decode (encode i) = .ok i) ∧
  (∀ (w : Cmd) (i : Instr), decode w = .ok i → encode i = w) ∧
  (∀ w : Cmd, (∃ i, decode w = .ok i) ↔ CmdFields.wf ⟨w.getLsbD 3, w.extractLsb' 0 3⟩ = true)

/-- R60, R61: the bit positions of the fields of a record and of a code entry. -/
def Obligations.EntryFormatsPlaceTheirFields : Prop :=
  (∀ r : NodeRec,
    r.pack.extractLsb' 0 1 = r.kind.bit ∧ r.pack.extractLsb' 1 8 = r.sym ∧ r.pack.extractLsb' 9 9 = r.left ∧
    r.pack.extractLsb' 18 9 = r.right ∧ r.pack.extractLsb' 27 Config.wCnt = r.weight) ∧
  (∀ c : CodeEnt, c.pack.extractLsb' 0 8 = c.len ∧ ∀ j, j < 255 → c.pack.getLsbD (8 + j) = c.bits.getLsbD j)

/-- R62: the entry built from a path of at most 255 edges assembles back to that path, with the other bits 0. -/
def Obligations.EntryOfPathAssemblesThePath : Prop :=
  ∀ p : Bits, p.length ≤ 255 →
    (CodeEnt.ofPath p).len.toNat = p.length ∧ (CodeEnt.ofPath p).string = p ∧
    (∀ (j : Nat) (h : j < p.length), (CodeEnt.ofPath p).bits.getLsbD j = p[j]) ∧
    (∀ j, p.length ≤ j → (CodeEnt.ofPath p).bits.getLsbD j = false)

/-! ### Commands and steps -/

/-- R121: the step of a command line is `exec` of the command its word decodes to, with the line taken off the host's moves; the
word `withFetchWord` places is run by the very next step. R6: `exec` and `step` are the dispatch and the step of the model with
the argument `W_CNT` at its value for this hardware. -/
def Obligations.CommandLineStepRunsItsCommand : Prop :=
  (∀ (s : State) (w : Cmd) (rest : List HostMove) (i : Instr),
    s.host = .line w :: rest → decode w = .ok i → step s = exec i { s with host := rest }) ∧
  (∀ (s : State) (n w : Nat) (i : Instr), decodeTableWord n w = some i → step (s.withFetchWord n w) = exec i s) ∧
  (∀ (i : Instr) (s : State), exec i s = execAt i s) ∧ (∀ s : State, step s = stepAt Config.wCnt s)

/-- R68: the two pseudo-operations are the lines the table lists; a line after the first is not made once a command has ended with
`ERR` other than `OK`, and is an ordinary line otherwise. -/
def Obligations.PseudoOperationsStopAtTheFirstError : Prop :=
  (∀ seq : List Byte, compressMoves seq =
    [.access (.loadIn seq), .line 0x1#4, .lineIfOk 0x2#4, .lineIfOk 0x3#4, .lineIfOk 0x4#4]) ∧
  (∀ seq : List Byte, roundtripMoves seq = compressMoves seq ++ [.lineIfOk 0x5#4]) ∧
  (∀ (s : State) (w : Cmd) (rest : List HostMove), s.host = .lineIfOk w :: rest →
    (s.err ≠ .ok → step s = .next { s with host := rest }) ∧
    (s.err = .ok → step s = step { s with host := .line w :: rest }))

/-- R115: `NOP` in an idle block. That it leaves the working registers as they were (`SameWork`) is the model's choice (log 7): R27 and
U1 leave them unspecified. -/
def Obligations.NopOnlyClearsTheStatus : Prop :=
  ∀ s : State, s.phase = .idle → ∃ t, exec .nop s = .next t ∧ t.done = true ∧ t.err = .ok ∧ t.phase = .idle ∧
    statusWord t = 0x02#8 ∧ t.freq = s.freq ∧ SameTree s t ∧ t.code = s.code ∧ SameIn s t ∧ SameBits s t ∧
    SameOut s t ∧ SameWork s t ∧ t.host = s.host

/-- R57: a reserved word written while idle, by a command line or by a plain write to `CMD`, only reports `ILLEGAL_CMD`. What
becomes of `S_LATCH` is not stated (log 10). -/
def Obligations.ReservedWordOnlyReports : Prop :=
  ∀ (s : State) (w : Cmd) (rest : List HostMove),
    w ∈ [0x6#4, 0x7#4, 0x8#4, 0x9#4, 0xB#4, 0xC#4, 0xD#4, 0xE#4, 0xF#4] → s.phase = .idle →
    (s.host = .line w :: rest ∨ s.host = .access (.wrReg 0#3 w) :: rest) →
    ∃ t, step s = .next t ∧ t.err = .illegalCmd ∧ t.done = true ∧ t.phase = .idle ∧ statusWord t = 0x12#8 ∧
      t.freq = s.freq ∧ SameTree s t ∧ t.code = s.code ∧ SameIn s t ∧ SameBits s t ∧ SameOut s t ∧
      SameWork s t ∧ t.host = rest

/-- R117: a command written while a unit runs is ignored: no state changes and the word is not queued. -/
def Obligations.CommandWhileBusyIsIgnored : Prop :=
  (∀ (i : Instr) (s : State), s.phase ≠ .idle → exec i s = .next s) ∧
  (∀ (s : State) (w : Cmd) (rest : List HostMove), s.phase ≠ .idle → s.host = .line w :: rest →
    step s = .next { s with host := rest }) ∧
  (∀ (s : State) (w : Cmd) (rest : List HostMove), s.phase ≠ .idle → s.host = .access (.wrReg 0#3 w) :: rest →
    step s = .next { s with host := rest, events := .answer .notAccepted :: s.events })

/-- R114: what acceptance writes; a running operation has `DONE` 0, `PHASE` = `w[2:0]` and `ERR` as it was. That an operation with
nothing to do (R73, R92, R100, R109) has completed at acceptance itself is the model's deduction (log 5, DEDUCED), not R114's words;
of `NOP` R115 says it. -/
def Obligations.AcceptanceLatchesTheCommand : Prop :=
  ∀ (w : Cmd) (i : Instr) (s t : State), decode w = .ok i → s.phase = .idle → acceptWord w s = .next t →
    t.sLatch = w.getLsbD 3 ∧
    (completesAtOnce i s →
      t.phase = .idle ∧ t.done = true ∧ t.events = .completed t.err :: .accepted w :: s.events) ∧
    (¬ completesAtOnce i s →
      t.phase.toCode = w.extractLsb' 0 3 ∧ t.phase ≠ .idle ∧ t.done = false ∧ t.err = s.err ∧
        t.events = .accepted w :: s.events)

/-- R125: what taking an error does, by the phase of the running operation. -/
def Obligations.RaiseEmptiesOutputAndReports : Prop :=
  ∀ (e : Err) (s : State),
    (raise e s).err = e ∧ (raise e s).done = true ∧ (raise e s).phase = .idle ∧
    (s.phase = .encode → (raise e s).bits = [] ∧ (raise e s).blen = 0#_) ∧
    (s.phase ≠ .encode → SameBits s (raise e s)) ∧
    (s.phase = .decode → (raise e s).out = [] ∧ (raise e s).olen = 0#_) ∧
    (s.phase ≠ .decode → SameOut s (raise e s)) ∧
    (raise e s).freq = s.freq ∧ SameTree s (raise e s) ∧ (raise e s).code = s.code ∧ SameIn s (raise e s)

/-- R10, R121: a command line computes what acceptance followed by micro-steps computes. R114, R120: the step of a plain write of
the word is that acceptance, and while the host stands still or has no move left the step is one micro-step, which in an
idle block changes nothing (R138, R145). -/
def Obligations.CommandLineIsItsMicroSteps : Prop :=
  (∀ (i : Instr) (s t : State), s.phase = .idle → exec i s = .next t →
    ∃ k, andThen (acceptWord (encode i) s) (microSteps k) = .next t) ∧
  (∀ (s : State) (w : Cmd) (i : Instr) (rest : List HostMove), s.phase = .idle → decode w = .ok i →
    s.host = .access (.wrReg 0#3 w) :: rest → step s = acceptWord w { s with host := rest }) ∧
  (∀ (s : State) (rest : List HostMove), s.host = .wait :: rest → step s = microStep { s with host := rest }) ∧
  (∀ s : State, s.host = [] → step s = microStep s) ∧
  (∀ s : State, s.phase = .idle → s.host = [] → step s = .next s) ∧
  (∀ (s : State) (rest : List HostMove), s.phase = .idle → s.host = .wait :: rest →
    step s = .next { s with host := rest })

/-- R116: a command that was taken has completed: the block is idle, `DONE` is 1, and no move of the host was used. -/
def Obligations.TakenCommandsComplete : Prop :=
  ∀ (i : Instr) (s t : State), s.phase = .idle → exec i s = .next t →
    t.phase = .idle ∧ t.done = true ∧ t.sLatch = (encode i).getLsbD 3 ∧ t.host = s.host ∧
    ∃ es, t.events = .completed t.err :: es

/-- R36, R22: each command writes its own spaces only; in particular the tree changes by BUILD and BUILD.S alone. -/
def Obligations.EachCommandWritesItsOwnSpaces : Prop :=
  ∀ (i : Instr) (s t : State), exec i s = .next t →
    SameIn s t ∧ t.host = s.host ∧
    (i ≠ .count → t.freq = s.freq) ∧ (i ≠ .build → i ≠ .buildS → SameTree s t) ∧ (i ≠ .gen → t.code = s.code) ∧
    (i ≠ .encode → SameBits s t) ∧ (i ≠ .decode → SameOut s t)

/-- R123, R126 to R129: which command reports which error, and when BUILD.S does. -/
def Obligations.EachErrorHasOneSource : Prop :=
  ∀ (i : Instr) (s t : State), s.phase = .idle → exec i s = .next t →
    (t.err = .emptyInput ↔ i = .buildS ∧ ∀ b, freqAt s b = 0#_) ∧
    (t.err = .encoding → i = .encode) ∧ (t.err = .decoding → i = .decode) ∧ t.err ≠ .illegalCmd

/-! ### Status and host accesses -/

/-- R58: the fields of `STATUS`, their codes, and that `BUSY` and `DONE` are never both 1. -/
def Obligations.StatusWordShowsItsFields : Prop :=
  (∀ s : State,
    (statusWord s).getLsbD 0 = decide (s.phase ≠ .idle) ∧ (statusWord s).getLsbD 1 = s.done ∧
    (statusWord s).extractLsb' 2 3 = s.err.toCode ∧ (statusWord s).extractLsb' 5 3 = s.phase.toCode) ∧
  (Err.ok.toCode = 0#3 ∧ Err.emptyInput.toCode = 1#3 ∧ Err.encoding.toCode = 2#3 ∧ Err.decoding.toCode = 3#3 ∧
    Err.illegalCmd.toCode = 4#3) ∧
  (Phase.idle.toCode = 0#3 ∧ Phase.count.toCode = 1#3 ∧ Phase.build.toCode = 2#3 ∧ Phase.gen.toCode = 3#3 ∧
    Phase.encode.toCode = 4#3 ∧ Phase.decode.toCode = 5#3) ∧
  (∀ s : State, ControlInv s → ¬((statusWord s).getLsbD 0 = true ∧ (statusWord s).getLsbD 1 = true)) ∧
  (∀ s : State, s.phase = .idle → s.done = true → s.err = .decoding → statusWord s = 0x0E#8)

/-- R32: the host registers: what each reads as while idle, that writes to the read-only ones are ignored, and that a write to
`CMD` while busy is. -/
def Obligations.HostRegistersReadAsListed : Prop :=
  (∀ (s : State) (n : BitVec 3) (rest : List HostMove), s.phase = .idle → s.host = .access (.rdReg n) :: rest →
    ∃ v : BLen, step s = .next { s with host := rest, events := .answer (.reg v) :: s.events } ∧
      (n = 0#3 → v = 0#_) ∧ (n = 1#3 → v = (statusWord s).setWidth _) ∧ (n = 2#3 → v = s.nsym.setWidth _) ∧
      (n = 3#3 → v = s.nnode.setWidth _) ∧ (n = 4#3 → v = s.root.setWidth _) ∧ (n = 5#3 → v = s.ilen.setWidth _) ∧
      (n = 6#3 → v = s.blen) ∧ (n = 7#3 → v = s.olen)) ∧
  (∀ (s : State) (n : BitVec 3) (w : Cmd) (rest : List HostMove), s.phase = .idle → n ≠ 0#3 →
    s.host = .access (.wrReg n w) :: rest → step s = .next { s with host := rest }) ∧
  (∀ (s : State) (w : Cmd) (rest : List HostMove), s.phase ≠ .idle → s.host = .access (.wrReg 0#3 w) :: rest →
    ∃ t, step s = .next t ∧ t = { s with host := rest, events := t.events }) ∧
  (hostReg State.reset 1#3 = 0x00#40 ∧ hostReg State.reset 2#3 = 0#40 ∧ hostReg State.reset 3#3 = 0#40 ∧
    hostReg State.reset 4#3 = 0x1FF#40 ∧ hostReg State.reset 5#3 = 0#40 ∧ hostReg State.reset 6#3 = 0#40 ∧
    hostReg State.reset 7#3 = 0#40)

/-- R119, R38, R42: while idle a host read returns the entry it names and changes nothing; outside the index range it returns no
value. What `NODE[i]` at or above `NNODE` returns is a free value, of which nothing is said. The read of `IN` rests on log 11. -/
def Obligations.HostReadsReturnTheirEntries : Prop :=
  ∀ (s : State) (a : Access) (rest : List HostMove), s.phase = .idle → s.host = .access a :: rest →
    (∀ b, a = .rdFreq b → step s = .next { s with host := rest, events := .answer (.count (freqAt s b)) :: s.events }) ∧
    (∀ b, a = .rdCode b →
      step s = .next { s with host := rest, events := .answer (.code (codeAt s b).pack) :: s.events }) ∧
    (∀ i, a = .rdNode i → i < s.nnode → i ≠ nullIdx →
      step s = .next { s with host := rest, events := .answer (.node (nodeAt s i).pack) :: s.events }) ∧
    (∀ i, a = .rdNode i → s.nnode ≤ i → i ≠ nullIdx →
      ∃ v, step s = .next { s with host := rest, events := .answer (.node v) :: s.events }) ∧
    (a = .rdNode nullIdx → step s = .next { s with host := rest, events := .answer .notAccepted :: s.events }) ∧
    (∀ k, a = .rdBits k →
      (∀ v, s.bits[k]? = some v → step s = .next { s with host := rest, events := .answer (.bit v) :: s.events }) ∧
      (s.bits.length ≤ k → step s = .next { s with host := rest, events := .answer .notAccepted :: s.events })) ∧
    (∀ k, a = .rdOut k →
      (∀ v, s.out[k]? = some v → step s = .next { s with host := rest, events := .answer (.byte v) :: s.events }) ∧
      (s.out.length ≤ k → step s = .next { s with host := rest, events := .answer .notAccepted :: s.events })) ∧
    (∀ k, a = .rdIn k →
      (∀ v, s.input[k]? = some v → step s = .next { s with host := rest, events := .answer (.byte v) :: s.events }) ∧
      (s.input.length ≤ k → step s = .next { s with host := rest, events := .answer .notAccepted :: s.events }))

/-- R46: the two loads replace a sequence and its length together and change nothing else; a longer sequence is refused. -/
def Obligations.LoadsReplaceSequenceAndLength : Prop :=
  (∀ (s : State) (seq : List Byte) (rest : List HostMove), s.phase = .idle → s.host = .access (.loadIn seq) :: rest →
    (seq.length ≤ Config.lenMax → ∃ t, step s = .next t ∧ t.ilen.toNat = seq.length ∧
      t = { s with host := rest, input := seq, ilen := t.ilen, events := t.events }) ∧
    (Config.lenMax < seq.length → step s = .refused .overlongLoad)) ∧
  (∀ (s : State) (seq : Bits) (rest : List HostMove), s.phase = .idle → s.host = .access (.loadBits seq) :: rest →
    (seq.length ≤ Config.bitsMax → ∃ t, step s = .next t ∧ t.blen.toNat = seq.length ∧
      t = { s with host := rest, bits := seq, blen := t.blen, events := t.events }) ∧
    (Config.bitsMax < seq.length → step s = .refused .overlongLoad))

/-- R45: while busy only `STATUS` can be read; every other access is dropped without a change of state. -/
def Obligations.BusyBlockAdmitsOnlyStatus : Prop :=
  ∀ (s : State) (a : Access) (rest : List HostMove), s.phase ≠ .idle → s.host = .access a :: rest →
    (a = .rdReg 1#3 → step s =
      .next { s with host := rest, events := .answer (.reg ((statusWord s).setWidth _)) :: s.events }) ∧
    (a ≠ .rdReg 1#3 → step s = .next { s with host := rest, events := .answer .notAccepted :: s.events })

/-! ### COUNT -/

/-- R71: COUNT completes with the histogram of `IN`, whatever `FREQ` held, and changes nothing else; R73: with `ILEN` = 0 that
is the empty table. -/
def Obligations.CountComputesTheHistogram : Prop :=
  (∀ s : State, s.phase = .idle → s.input.length = s.ilen.toNat →
    ∃ t, exec .count s = .next t ∧ Completed 0x1#4 .ok s t ∧
      (∀ b, (freqAt t b).toNat = s.input.count b) ∧
      SameIn s t ∧ SameTree s t ∧ t.code = s.code ∧ SameBits s t ∧ SameOut s t) ∧
  (∀ s : State, s.phase = .idle → s.ilen = 0#_ →
    ∃ t, exec .count s = .next t ∧ t.err = .ok ∧ ∀ b, freqAt t b = 0#_)

/-- R74: the entries sum to `ILEN`, none exceeds it, and `LEN_MAX` equal bytes give the largest count without a wrap, at every
`W_CNT` (R6). -/
def Obligations.CountsSumToTheLengthWithoutOverflow : Prop :=
  ∀ (W : Nat) (s t : State W), s.phase = .idle → s.input.length = s.ilen.toNat → execAt .count s = .next t →
    freqSum t = s.ilen.toNat ∧ (∀ b, freqAt t b ≤ s.ilen) ∧
    (∀ b, s.input = List.replicate (Config.lenMax W) b → (freqAt t b).toNat = 2 ^ W - 1)

/-- R72: after micro-step `k` the entries count the first `k` bytes and sum to `k`; after `ILEN` the operation has finished. -/
def Obligations.CountMicroStepsKeepTheirInvariant : Prop :=
  ∀ (s : State) (k : Nat), s.phase = .idle → s.input.length = s.ilen.toNat → k ≤ s.ilen.toNat →
    ∃ t, andThen (startCount s) (microSteps k) = .next t ∧
      (∀ b, (freqAt t b).toNat = (s.input.take k).count b) ∧ freqSum t = k ∧
      (k < s.ilen.toNat → t.phase = .count ∧ t.ipos.toNat = k) ∧ (k = s.ilen.toNat → t.phase = .idle)

/-! ### BUILD and BUILD.S -/

/-- R83: an empty table gives the null tree; BUILD tolerates it, BUILD.S reports it, and no record is written. -/
def Obligations.BuildOfEmptyTableIsTheNullTree : Prop :=
  ∀ s : State, s.phase = .idle → (∀ b, freqAt s b = 0#_) →
    (∃ t, exec .build s = .next t ∧ Completed 0x2#4 .ok s t ∧ t.nsym = 0#9 ∧ t.nnode = 0#9 ∧ t.root = nullIdx ∧
      t.node = s.node ∧ t.freq = s.freq ∧ t.code = s.code ∧ SameIn s t ∧ SameBits s t ∧ SameOut s t) ∧
    (∃ t, exec .buildS s = .next t ∧ Completed 0xA#4 .emptyInput s t ∧ t.nsym = 0#9 ∧ t.nnode = 0#9 ∧
      t.root = nullIdx ∧ t.node = s.node ∧ t.freq = s.freq ∧ t.code = s.code ∧ SameIn s t ∧ SameBits s t ∧ SameOut s t)

/-- R84: exactly one counted symbol gives its leaf under the synthesized root, for both commands. -/
def Obligations.BuildOfOneSymbolSynthesizesARoot : Prop :=
  ∀ (s : State) (b : Byte) (i : Instr), s.phase = .idle → (i = .build ∨ i = .buildS) → freqAt s b ≠ 0#_ →
    (∀ c, c ≠ b → freqAt s c = 0#_) →
    ∃ t, exec i s = .next t ∧ Completed (encode i) .ok s t ∧ t.nsym = 1#9 ∧ t.nnode = 2#9 ∧ t.root = 1#9 ∧
      nodeNo t 0 = ⟨.leaf, b, freqAt s b, nullIdx, nullIdx⟩ ∧
      nodeNo t 1 = ⟨.internal, 0#8, freqAt s b, 0#9, nullIdx⟩ ∧
      t.freq = s.freq ∧ t.code = s.code ∧ SameIn s t ∧ SameBits s t ∧ SameOut s t

/-- R77, R43: `NSYM` counts the symbols of the table and the first records are their leaves in rising symbol order. -/
def Obligations.BuildMakesALeafPerSymbolInOrder : Prop :=
  ∀ (s t : State) (i : Instr), s.phase = .idle → (i = .build ∨ i = .buildS) → exec i s = .next t →
    t.nsym.toNat = (countedSyms s).length ∧
    ∀ (k : Nat) (h : k < (countedSyms s).length),
      nodeNo t k = ⟨.leaf, (countedSyms s)[k], freqAt s (countedSyms s)[k], nullIdx, nullIdx⟩

/-- R76, R20, R21: BUILD completes in every idle state, from whatever tree was there before, and leaves a tree that meets R21. -/
def Obligations.BuildCompletesWithATree : Prop :=
  ∀ s : State, s.phase = .idle →
    ∃ t, exec .build s = .next t ∧ Completed 0x2#4 .ok s t ∧ TreeInv t ∧
      t.freq = s.freq ∧ t.code = s.code ∧ SameIn s t ∧ SameBits s t ∧ SameOut s t

/-- R85: BUILD.S is BUILD but for the empty table, which it reports after writing the null tree. -/
def Obligations.StrictBuildDiffersOnlyOnTheEmptyTable : Prop :=
  ∀ s : State, s.phase = .idle →
    ((∃ b, freqAt s b ≠ 0#_) → ∃ t, exec .build s = .next t ∧ t.err = .ok ∧
      exec .buildS s = .next { t with sLatch := true, events := .completed .ok :: .accepted 0xA#4 :: s.events }) ∧
    ((∀ b, freqAt s b = 0#_) → ∃ t u, exec .build s = .next t ∧ exec .buildS s = .next u ∧
      u = { t with sLatch := true, err := .emptyInput, events := u.events } ∧
      statusWord t = 0x02#8 ∧ statusWord u = 0x06#8 ∧ u.root = nullIdx ∧ t.root = nullIdx)

/-- R79: the four tests, and that with the arena layout they are the lexicographic order of the keys, a strict total order. -/
def Obligations.BeforeIsTheKeyOrder : Prop :=
  (∀ (node : Memory NodeRec) (x y : Idx),
    let p := Memory.read NodeRec.blank node x.toNat
    let q := Memory.read NodeRec.blank node y.toNat
    (p.weight ≠ q.weight → (before node x y = true ↔ p.weight < q.weight)) ∧
    (p.weight = q.weight → p.kind = .leaf → q.kind = .leaf → (before node x y = true ↔ p.sym < q.sym)) ∧
    (p.weight = q.weight → p.kind = .internal → q.kind = .leaf → before node x y = true ∧ before node y x = false) ∧
    (p.weight = q.weight → p.kind = .internal → q.kind = .internal → (before node x y = true ↔ x < y))) ∧
  (∀ (s : State) (n m : Nat), LeavesOk s n 256 → InternalsOk s n m → ∀ x y z : Idx, x.toNat < m → y.toNat < m →
    z.toNat < m → x ≠ y →
    (before s.node x y = true ↔ keyLt (nodeKey s.node x) (nodeKey s.node y)) ∧
    (before s.node x y = true ↔ ¬ before s.node y x = true) ∧
    (before s.node x y = true → before s.node y z = true → before s.node x z = true))

/-- R80: one merge takes the two least nodes of `PQ`, the first as the left child, and puts their parent in. -/
def Obligations.MergeJoinsTheTwoLeastNodes : Prop :=
  ∀ s : State, s.phase = .build → MergeInv s →
    ∃ (a b : Idx) (u : State), buildMicro s = mergeHead u ∧ a ∈ s.pq ∧ b ∈ s.pq ∧ a ≠ b ∧
      (∀ x ∈ s.pq, x ≠ a → before s.node a x = true) ∧ (∀ x ∈ s.pq, x ≠ a → x ≠ b → before s.node b x = true) ∧
      nodeAt u s.nnode = ⟨.internal, 0#8, (nodeAt s a).weight + (nodeAt s b).weight, a, b⟩ ∧
      (∀ j, j ≠ s.nnode.toNat → nodeNo u j = nodeNo s j) ∧
      (∀ x, x ∈ u.pq ↔ (x ∈ s.pq ∧ x ≠ a ∧ x ≠ b) ∨ x = s.nnode) ∧ u.pq.length + 1 = s.pq.length ∧
      u.nnode.toNat = s.nnode.toNat + 1 ∧ u.mleft.toNat + 1 = s.mleft.toNat

/-- R87: the tree is a function of the frequency table alone. -/
def Obligations.TreeDependsOnlyOnTheTable : Prop :=
  ∀ (s s' : State) (i : Instr), s.phase = .idle → s'.phase = .idle → (i = .build ∨ i = .buildS) →
    (∀ b, freqAt s b = freqAt s' b) →
    ∃ t t', exec i s = .next t ∧ exec i s' = .next t' ∧ t.nsym = t'.nsym ∧ t.nnode = t'.nnode ∧ t.root = t'.root ∧
      ∀ k, k < t.nnode.toNat → nodeNo t k = nodeNo t' k

/-- R81, R86: if the counts sum to at most `LEN_MAX`, the root's weight is their exact sum and the internal weights never fall
(R82), at every `W_CNT` (R6). -/
def Obligations.RootWeighsTheWholeTable : Prop :=
  ∀ (W : Nat) (s t : State W) (i : Instr), s.phase = .idle → (i = .build ∨ i = .buildS) →
    freqSum s ≤ Config.lenMax W → (∃ b, freqAt s b ≠ 0#_) → execAt i s = .next t →
    (nodeAt t t.root).weight.toNat = freqSum s ∧
    ∀ j k, t.nsym.toNat ≤ j → j < k → k < t.nnode.toNat → (nodeNo t j).weight ≤ (nodeNo t k).weight

/-! ### GEN -/

/-- R92: the null tree gives the empty table, the synthesized root the one code "0". -/
def Obligations.GenOfDegenerateTrees : Prop :=
  (∀ s : State, s.phase = .idle → s.root = nullIdx →
    ∃ t, exec .gen s = .next t ∧ Completed 0x3#4 .ok s t ∧ ∀ b, codeAt t b = CodeEnt.absent) ∧
  (∀ s : State, s.phase = .idle → TreeInv s → s.nsym = 1#9 →
    ∃ t, exec .gen s = .next t ∧ Completed 0x3#4 .ok s t ∧ (codeAt t (nodeNo s 0).sym).string = [false] ∧
      ∀ b, b ≠ (nodeNo s 0).sym → codeAt t b = CodeEnt.absent)

/-- R89: from any tree GEN completes with each leaf's path as its symbol's code and no other entry; nothing else changes. -/
def Obligations.GenRecordsEveryLeafsPath : Prop :=
  ∀ s : State, s.phase = .idle → TreeInv s →
    ∃ t, exec .gen s = .next t ∧ Completed 0x3#4 .ok s t ∧ CodesOfTree t ∧
      t.freq = s.freq ∧ SameTree s t ∧ SameIn s t ∧ SameBits s t ∧ SameOut s t

/-- R89, R90: in a tree there is at most one walk from the root to a node. -/
def Obligations.WalksToANodeAreUnique : Prop :=
  ∀ (s : State) (p q : Bits) (i : Idx), TreeInv s → walk s s.root p = some i → walk s s.root q = some i → p = q

/-- R93 (a) to (d): the leaves' symbols have the entries, and no code is a prefix of another. -/
def Obligations.GenCodesArePrefixFree : Prop :=
  ∀ s t : State, s.phase = .idle → TreeInv s → exec .gen s = .next t →
    (∀ b, (codeAt t b).len ≠ 0#8 ↔ ∃ i, i < s.nsym.toNat ∧ (nodeNo s i).sym = b) ∧
    (∀ a b, a ≠ b → (codeAt t a).len ≠ 0#8 → (codeAt t b).len ≠ 0#8 → ¬ (codeAt t a).string <+: (codeAt t b).string)

/-- R65: code lengths lie between 1 and N - 1, so at most 255; with N = 1 the one length is 1, with N = 0 there is no code. -/
def Obligations.CodeLengthsAreBounded : Prop :=
  ∀ (s t : State) (b : Byte), s.phase = .idle → TreeInv s → exec .gen s = .next t →
    (s.nsym = 0#9 → (codeAt t b).len = 0#8) ∧
    ((codeAt t b).len ≠ 0#8 → s.nsym = 1#9 → (codeAt t b).string = [false]) ∧
    ((codeAt t b).len ≠ 0#8 → 2 ≤ s.nsym.toNat →
      1 ≤ (codeAt t b).len.toNat ∧ (codeAt t b).len.toNat ≤ s.nsym.toNat - 1 ∧ (codeAt t b).len.toNat ≤ 255)

/-- R93 (f): the code is complete for N at least 2, and half of it is used for N = 1 (both sides times 2 to the 255th). -/
def Obligations.GenCodeIsComplete : Prop :=
  ∀ s t : State, s.phase = .idle → TreeInv s → exec .gen s = .next t →
    let total := ((List.range Config.nsymMax).map (fun b =>
      let n := (codeAt t (BitVec.ofNat 8 b)).len.toNat
      if n = 0 then 0 else 2 ^ (255 - n))).sum
    (2 ≤ s.nsym.toNat → total = 2 ^ 255) ∧ (s.nsym = 1#9 → 2 * total = 2 ^ 255)

/-- R94: GEN on a tree whose root is a leaf is refused; no run from reset has one (R21 (g)). -/
def Obligations.GenRefusesALeafRoot : Prop :=
  (∀ s : State, s.phase = .idle → s.root ≠ nullIdx → s.root < s.nnode → (nodeAt s s.root).kind = .leaf →
    exec .gen s = .refused .leafRoot) ∧
  (∀ s : State, TreeInv s → s.root ≠ nullIdx → (nodeAt s s.root).kind = .internal)

/-! ### ENCODE -/

/-- R96, R99: with an entry for every input symbol ENCODE completes with their codes in order; otherwise it reports `ENCODING`
with the empty sequence. Nothing else changes. R100: with `ILEN` = 0 the result is empty whatever `CODE` holds. -/
def Obligations.EncodeConcatenatesTheCodes : Prop :=
  (∀ s : State, s.phase = .idle → s.input.length = s.ilen.toNat →
    ((∀ b ∈ s.input, (codeAt s b).len ≠ 0#8) → ∃ t, exec .encode s = .next t ∧ Completed 0x4#4 .ok s t ∧
      t.bits = codesOf s s.input ∧ t.blen.toNat = (s.input.map (fun b => (codeAt s b).len.toNat)).sum ∧
      t.freq = s.freq ∧ SameTree s t ∧ t.code = s.code ∧ SameIn s t ∧ SameOut s t) ∧
    ((∃ b ∈ s.input, (codeAt s b).len = 0#8) → ∃ t, exec .encode s = .next t ∧ Completed 0x4#4 .encoding s t ∧
      t.bits = [] ∧ t.blen = 0#_ ∧ t.freq = s.freq ∧ SameTree s t ∧ t.code = s.code ∧ SameIn s t ∧ SameOut s t)) ∧
  (∀ s : State, s.phase = .idle → s.ilen = 0#_ →
    ∃ t, exec .encode s = .next t ∧ Completed 0x4#4 .ok s t ∧ t.bits = [] ∧ t.blen = 0#_)

/-- R101: the result of ENCODE depends on `IN` and `CODE` alone. -/
def Obligations.EncodeDependsOnInputAndCodeAlone : Prop :=
  ∀ s s' t : State, s.phase = .idle → s'.phase = .idle → s.input = s'.input → s.ilen = s'.ilen →
    (∀ b, codeAt s b = codeAt s' b) → exec .encode s = .next t →
    ∃ t', exec .encode s' = .next t' ∧ t'.bits = t.bits ∧ t'.blen = t.blen ∧ t'.err = t.err

/-- R97, R98, R154: the beats on the serial port are the codes in order; the beats of an operation that fails are those of the
symbols before the first one without an entry, although `BITS` is emptied. -/
def Obligations.EncoderBeatsAreTheCodes : Prop :=
  ∀ s t : State, s.phase = .idle → s.input.length = s.ilen.toNat → exec .encode s = .next t →
    t.events = .completed t.err ::
      ((codesOf s (s.input.takeWhile (fun b => decide ((codeAt s b).len ≠ 0#8)))).map Event.bit).reverse ++
        .accepted 0x4#4 :: s.events

/-- R102: the length of a successful encoding, by symbol and in bounds. -/
def Obligations.EncodedLengthIsBounded : Prop :=
  ∀ s t : State, s.phase = .idle → s.input.length = s.ilen.toNat → exec .encode s = .next t → t.err = .ok →
    t.blen.toNat = ((List.range Config.nsymMax).map (fun b =>
      s.input.count (BitVec.ofNat 8 b) * (codeAt s (BitVec.ofNat 8 b)).len.toNat)).sum ∧
    s.ilen.toNat ≤ t.blen.toNat ∧ t.blen.toNat ≤ 255 * s.ilen.toNat

/-! ### DECODE -/

/-- R109: the null tree decodes the empty sequence to nothing and any other to an error. -/
def Obligations.DecodeWithTheNullTree : Prop :=
  ∀ s : State, s.phase = .idle → s.root = nullIdx →
    ∃ t, exec .decode s = .next t ∧ Completed 0x5#4 (if s.blen = 0#_ then .ok else .decoding) s t ∧
      t.out = [] ∧ t.olen = 0#_ ∧ t.freq = s.freq ∧ SameTree s t ∧ t.code = s.code ∧ SameIn s t ∧ SameBits s t

/-- R108: with the one-symbol tree every bit, of either value, is the symbol. -/
def Obligations.DecodeWithOneSymbolCopiesIt : Prop :=
  ∀ s : State, s.phase = .idle → TreeInv s → s.nsym = 1#9 → s.bits.length = s.blen.toNat →
    ∃ t, exec .decode s = .next t ∧ Completed 0x5#4 .ok s t ∧
      t.out = List.replicate s.bits.length (nodeNo s 0).sym ∧ t.olen = s.blen ∧
      t.freq = s.freq ∧ SameTree s t ∧ t.code = s.code ∧ SameIn s t ∧ SameBits s t

/-- R105, R107: with two or more symbols DECODE walks one edge per bit; it succeeds with the symbols met exactly when the walk
ends on the root, and otherwise leaves no output. -/
def Obligations.DecodeWalksTheTree : Prop :=
  ∀ s : State, s.phase = .idle → TreeInv s → 2 ≤ s.nsym.toNat → s.bits.length = s.blen.toNat →
    ∃ t, exec .decode s = .next t ∧
      ((decodeWalk s s.root s.bits).2 = s.root → Completed 0x5#4 .ok s t ∧
        t.out = (decodeWalk s s.root s.bits).1 ∧ t.olen.toNat = t.out.length) ∧
      ((decodeWalk s s.root s.bits).2 ≠ s.root → Completed 0x5#4 .decoding s t ∧ t.out = [] ∧ t.olen = 0#_) ∧
      t.freq = s.freq ∧ SameTree s t ∧ t.code = s.code ∧ SameIn s t ∧ SameBits s t

/-- R110: the complete list of causes of `DecodingError`, and what it leaves. -/
def Obligations.DecodingErrorHasTwoCauses : Prop :=
  ∀ s t : State, s.phase = .idle → TreeInv s → s.bits.length = s.blen.toNat → exec .decode s = .next t →
    (t.err = .decoding ↔
      (s.root ≠ nullIdx ∧ 2 ≤ s.nsym.toNat ∧ (decodeWalk s s.root s.bits).2 ≠ s.root) ∨
      (s.root = nullIdx ∧ s.blen ≠ 0#_)) ∧
    (t.err ≠ .decoding → t.err = .ok) ∧
    (t.err = .decoding → t.out = [] ∧ t.olen = 0#_ ∧ t.done = true ∧ t.phase = .idle ∧ SameBits s t ∧ SameTree s t)

/-- R111: the result of DECODE depends on `BITS` and the tree alone. -/
def Obligations.DecodeDependsOnBitsAndTreeAlone : Prop :=
  ∀ s s' t : State, s.phase = .idle → s'.phase = .idle → s.bits = s'.bits → s.blen = s'.blen → s.root = s'.root →
    s.nnode = s'.nnode → (∀ k, k < s.nnode.toNat → nodeNo s k = nodeNo s' k) → exec .decode s = .next t →
    ∃ t', exec .decode s' = .next t' ∧ t'.out = t.out ∧ t'.olen = t.olen ∧ t'.err = t.err

/-- R26, R106, R154: `OLEN` is the length of `OUT`; the events are the acceptance, at most one symbol beat per bit, and the
completion. On success the beats are the symbols of `OUT`; a DECODE that fails empties `OUT` and its beats stay: with two or more
symbols, on success and on failure alike, those of the leaves the walk meets, and with the null tree none. -/
def Obligations.DecoderEmitsAtMostOneSymbolPerBit : Prop :=
  ∀ s t : State, s.phase = .idle → exec .decode s = .next t →
    t.out.length = t.olen.toNat ∧ t.olen ≤ t.blen ∧
    ∃ beats : List Byte, beats.length ≤ s.blen.toNat ∧
      t.events = .completed t.err :: ((beats.map Event.sym).reverse ++ .accepted 0x5#4 :: s.events) ∧
      (t.err = .ok → t.out = beats) ∧ (t.err ≠ .ok → t.err = .decoding ∧ t.out = []) ∧
      (s.root = nullIdx → beats = []) ∧
      (TreeInv s → 2 ≤ s.nsym.toNat → s.bits.length = s.blen.toNat → beats = (decodeWalk s s.root s.bits).1)

/-! ### The codec -/

/-- R112: with the code table of the tree, decoding what was encoded gives the input back. -/
def Obligations.DecodeInvertsEncode : Prop :=
  ∀ s : State, s.phase = .idle → TreeInv s → CodesOfTree s → s.input.length = s.ilen.toNat →
    (∀ b ∈ s.input, (codeAt s b).len ≠ 0#8) →
    ∃ t u, exec .encode s = .next t ∧ exec .decode t = .next u ∧ u.err = .ok ∧ u.out = s.input

/-- R112: COUNT, BUILD, GEN, ENCODE and DECODE in that order on one unchanged `IN` give `IN` back in `OUT`; so with BUILD.S where
`IN` is not empty. -/
def Obligations.RoundTripRestoresTheInput : Prop :=
  ∀ (s : State) (i : Instr), s.phase = .idle → s.input.length = s.ilen.toNat →
    (i = .build ∨ (i = .buildS ∧ s.input ≠ [])) →
    ∃ s1 s2 s3 s4 s5, exec .count s = .next s1 ∧ exec i s1 = .next s2 ∧ exec .gen s2 = .next s3 ∧
      exec .encode s3 = .next s4 ∧ exec .decode s4 = .next s5 ∧ s5.err = .ok ∧ s5.out = s.input

/-! ### Invariants of every step -/

/-- Every step keeps the tables canonical with their indices in range (R35). -/
def Obligations.StepKeepsTablesCanonical : Prop := ∀ s t : State, MemWf s → step s = .next t → MemWf t

/-- R24 to R26, R102: every step keeps each length register equal to the length of its sequence. -/
def Obligations.StepKeepsLengthsExact : Prop := ∀ s t : State, LenInv s → step s = .next t → LenInv t

/-- R58, R28, R29: every step keeps `BUSY` and `DONE` from being both 1 and the hidden state inside its phases. -/
def Obligations.StepKeepsControlConsistent : Prop := ∀ s t : State, ControlInv s → step s = .next t → ControlInv t

/-- R74, R86: every step keeps the counts within what a count can hold. -/
def Obligations.StepKeepsCountsInRange : Prop := ∀ s t : State, CountInv s → step s = .next t → CountInv t

/-- R23: every step keeps the unused bits of the code entries 0. -/
def Obligations.StepKeepsUnusedCodeBitsZero : Prop := ∀ s t : State, CodeBitsInv s → step s = .next t → CodeBitsInv t

/-- R21: every step, each micro-step of BUILD among them, keeps the tree invariant. -/
def Obligations.StepKeepsTheTree : Prop := ∀ s t : State, TreeStepInv s → step s = .next t → TreeStepInv t
end

