-- ==== Sys2Proof/Laws/Codes.lean ====
section
/-! SUPPORT. The number of a path (`30_encoding.md` R61). -/

namespace Sys2Proof.Machine

variable {W : Nat}

theorem pathNumber_lt (p : Bits) : pathNumber p < 2 ^ p.length := by
  induction p with
  | nil => simp [pathNumber]
  | cons b p ih =>
    have hb : b.toNat ≤ 1 := Bool.toNat_le b
    simp only [pathNumber, List.length_cons, pow_succ]
    omega

/-- Bit `j` of a path's number is position `j` of the path. -/
theorem testBit_pathNumber (p : Bits) (j : Nat) : (pathNumber p).testBit j = p.getD j false := by
  induction p generalizing j with
  | nil => simp [pathNumber]
  | cons b p ih =>
    have key : pathNumber (b :: p) = 2 * pathNumber p + b.toNat := by simp [pathNumber, Nat.add_comm]
    cases j with
    | zero => cases b <;> simp [key, Nat.testBit_zero]
    | succ j =>
      rw [key, Nat.testBit_succ]
      have : (2 * pathNumber p + b.toNat) / 2 = pathNumber p := by
        have hb : b.toNat ≤ 1 := Bool.toNat_le b
        omega
      rw [this, ih]; simp

end Sys2Proof.Machine
end

