-- ==== Sys2Proof/Laws/Memory.lean ====
section
/-! SUPPORT. The laws of the tables: a read after a write, and the canonical form. -/

namespace Sys2Proof.Machine

variable {α : Type}

@[simp] theorem Memory.read_nil (d : α) (i : Nat) : Memory.read d [] i = d := rfl

theorem Memory.read_cons (d : α) (k : Nat) (v : α) (m : Memory α) (i : Nat) :
    Memory.read d ((k, v) :: m) i = if i = k then v else Memory.read d m i := rfl

/-- Reading after inserting an entry. -/
theorem Memory.read_insert (d : α) (m : Memory α) (i j : Nat) (v : α) :
    Memory.read d (Memory.insert i v m) j = if j = i then v else Memory.read d m j := by
  induction m with
  | nil => simp [Memory.insert, Memory.read]
  | cons c m ih =>
    obtain ⟨k, w⟩ := c
    by_cases h1 : i < k
    · simp [Memory.insert, Memory.read, h1]
    · by_cases h2 : i = k
      · subst h2
        by_cases hj : j = i <;> simp [Memory.insert, Memory.read, hj]
      · rw [Memory.insert, if_neg h1, if_neg h2, Memory.read_cons, ih, Memory.read_cons]
        by_cases hj : j = k
        · have : j ≠ i := fun h => h2 (h ▸ hj)
          rw [if_pos hj, if_neg this, if_pos hj]
        · rw [if_neg hj, if_neg hj]

/-- Reading after the entries at one index are taken out. -/
theorem Memory.read_filter (d : α) (m : Memory α) (i j : Nat) :
    Memory.read d (m.filter (fun c => c.1 != i)) j = if j = i then d else Memory.read d m j := by
  induction m with
  | nil => simp
  | cons c m ih =>
    obtain ⟨k, w⟩ := c
    by_cases hk : k = i
    · subst hk
      rw [List.filter_cons_of_neg (by simp), ih, Memory.read_cons]
      by_cases hj : j = k <;> simp [hj]
    · rw [List.filter_cons_of_pos (by simpa using hk), Memory.read_cons, ih, Memory.read_cons]
      by_cases hj : j = i
      · have : j ≠ k := fun h => hk (h.symm.trans hj)
        simp [hj, Ne.symm hk]
      · simp [hj]

variable [DecidableEq α]

/-- The one law of reads and writes (R37): a write changes the entry it names and no other, in any table. -/
theorem Memory.read_write (d : α) (m : Memory α) (i j : Nat) (v : α) :
    Memory.read d (Memory.write d m i v) j = if j = i then v else Memory.read d m j := by
  unfold Memory.write
  split
  · rename_i h; subst h; exact Memory.read_filter v m i j
  · exact Memory.read_insert d m i j v

@[simp] theorem Memory.read_write_same (d : α) (m : Memory α) (i : Nat) (v : α) :
    Memory.read d (Memory.write d m i v) i = v := by simp [Memory.read_write]

theorem Memory.read_write_other (d : α) (m : Memory α) {i j : Nat} (v : α) (h : j ≠ i) :
    Memory.read d (Memory.write d m i v) j = Memory.read d m j := by simp [Memory.read_write, h]

/-- The canonical form, as propositions. -/
theorem Memory.wf_iff (d : α) (bound : Nat) (m : Memory α) :
    Memory.wf d bound m = true ↔
      m.Pairwise (fun a b => a.1 < b.1) ∧ ∀ c ∈ m, c.1 < bound ∧ c.2 ≠ d := by
  simp [Memory.wf]

@[simp] theorem Memory.wf_nil (d : α) (bound : Nat) : Memory.wf d bound [] = true := by simp [Memory.wf]

omit [DecidableEq α] in
theorem Memory.mem_insert {m : Memory α} {i : Nat} {v : α} {c : Nat × α} (h : c ∈ Memory.insert i v m) :
    c = (i, v) ∨ c ∈ m := by
  induction m with
  | nil => simpa [Memory.insert] using h
  | cons e m ih =>
    obtain ⟨k, w⟩ := e
    simp only [Memory.insert] at h
    split at h
    · simpa using h
    · split at h
      · rcases List.mem_cons.mp h with h | h
        · exact .inl h
        · exact .inr (List.mem_cons_of_mem _ h)
      · rcases List.mem_cons.mp h with h | h
        · exact .inr (h ▸ List.mem_cons_self)
        · exact (ih h).imp id (List.mem_cons_of_mem _)

omit [DecidableEq α] in
theorem Memory.pairwise_insert (m : Memory α) (i : Nat) (v : α)
    (h : m.Pairwise (fun a b => a.1 < b.1)) : (Memory.insert i v m).Pairwise (fun a b => a.1 < b.1) := by
  induction m with
  | nil => simp [Memory.insert]
  | cons e m ih =>
    obtain ⟨k, w⟩ := e
    obtain ⟨hk, hm⟩ := List.pairwise_cons.mp h
    simp only [Memory.insert]
    split
    · rename_i hi
      refine List.pairwise_cons.mpr ⟨fun c hc => ?_, h⟩
      rcases List.mem_cons.mp hc with rfl | hc
      · exact hi
      · exact Nat.lt_trans hi (hk c hc)
    · split
      · rename_i hi; subst hi; exact List.pairwise_cons.mpr ⟨hk, hm⟩
      · rename_i h1 h2
        refine List.pairwise_cons.mpr ⟨fun c hc => ?_, ih hm⟩
        rcases Memory.mem_insert hc with rfl | hc
        · show k < i; omega
        · exact hk c hc

/-- A write inside the bound keeps the canonical form. -/
theorem Memory.wf_write (d : α) (bound : Nat) (m : Memory α) (i : Nat) (v : α)
    (h : Memory.wf d bound m = true) (hi : i < bound) : Memory.wf d bound (Memory.write d m i v) = true := by
  obtain ⟨hp, ha⟩ := (Memory.wf_iff d bound m).mp h
  refine (Memory.wf_iff d bound _).mpr ?_
  unfold Memory.write
  split
  · exact ⟨hp.filter _, fun c hc => ha c (List.mem_filter.mp hc).1⟩
  · rename_i hv
    refine ⟨Memory.pairwise_insert m i v hp, fun c hc => ?_⟩
    rcases Memory.mem_insert hc with rfl | hc
    · exact ⟨hi, hv⟩
    · exact ha c hc

end Sys2Proof.Machine
end

