-- ==== Sys2Proof/Laws/PerInstr.lean ====
section
/-! SUPPORT. What holds of every command as syntax, one lemma per constructor: its word carries its two fields where R54 puts them,
and they are well formed. -/

namespace Sys2Proof.Laws.Fields

/-- The word of a command holds `S` in bit 3 and `OP` in bits 2..0 (R54), and the fields form a command (R55). -/
def Statement (i : Instr) : Prop :=
  (encode i).getLsbD 3 = i.fields.s ∧ (encode i).extractLsb' 0 3 = i.fields.op ∧ i.wf = true

theorem nop : Statement .nop := ⟨by decide, by decide, by decide⟩
theorem count : Statement .count := ⟨by decide, by decide, by decide⟩
theorem build : Statement .build := ⟨by decide, by decide, by decide⟩
theorem buildS : Statement .buildS := ⟨by decide, by decide, by decide⟩
theorem gen : Statement .gen := ⟨by decide, by decide, by decide⟩
theorem encode : Statement .encode := ⟨by decide, by decide, by decide⟩
theorem decode : Statement .decode := ⟨by decide, by decide, by decide⟩

end Sys2Proof.Laws.Fields
end

