-- ==== Sys2Proof/Laws/Queue.lean ====
section
/-! SUPPORT. The queue as a set (`10_state.md` R28): what insertion and the removal of the least element do. -/

namespace Sys2Proof.Machine

variable {W : Nat}

theorem leastOf_mem (node : Memory (NodeRec W)) (q : List Idx) (m : Idx) : leastOf node m q ∈ m :: q := by
  unfold leastOf
  induction q generalizing m with
  | nil => simp
  | cons y q ih =>
    rw [List.foldl_cons]
    split
    · exact List.mem_cons_of_mem _ (ih y)
    · rcases List.mem_cons.mp (ih m) with h | h
      · rw [h]; exact List.mem_cons_self
      · exact List.mem_cons_of_mem _ (List.mem_cons_of_mem _ h)

/-- Removing the least element takes one element of the set out. -/
theorem extractMin_some {node : Memory (NodeRec W)} {q q' : List Idx} {a : Idx} (h : extractMin node q = some (a, q')) :
    a ∈ q ∧ q' = q.erase a := by
  cases q with
  | nil => cases h
  | cons x q =>
    simp only [extractMin, Option.some.injEq, Prod.mk.injEq] at h
    obtain ⟨rfl, rfl⟩ := h
    exact ⟨leastOf_mem node q x, rfl⟩

theorem extractMin_isSome (node : Memory (NodeRec W)) {q : List Idx} (h : q ≠ []) : ∃ a q', extractMin node q = some (a, q') := by
  cases q with
  | nil => exact absurd rfl h
  | cons x q => exact ⟨_, _, rfl⟩

@[simp] theorem mem_pqInsert {i x : Idx} {q : List Idx} : x ∈ pqInsert i q ↔ x = i ∨ x ∈ q := by
  induction q with
  | nil => simp [pqInsert]
  | cons y q ih =>
    simp only [pqInsert]
    split
    · simp
    · split
      · rename_i h; subst h; simp
      · simp [ih]; tauto

/-- Insertion keeps the list of a set rising. -/
theorem pqInsert_rising {i : Idx} {q : List Idx} (h : q.Pairwise (fun x y => x < y)) :
    (pqInsert i q).Pairwise (fun x y => x < y) := by
  induction q with
  | nil => simp [pqInsert]
  | cons y q ih =>
    obtain ⟨hy, hq⟩ := List.pairwise_cons.mp h
    simp only [pqInsert]
    split
    · rename_i hi
      refine List.pairwise_cons.mpr ⟨fun x hx => ?_, h⟩
      rcases List.mem_cons.mp hx with rfl | hx
      · exact hi
      · exact BitVec.lt_trans hi (hy x hx)
    · split
      · exact h
      · rename_i h1 h2
        refine List.pairwise_cons.mpr ⟨fun x hx => ?_, ih hq⟩
        rcases mem_pqInsert.mp hx with rfl | hx
        · bv_omega
        · exact hy x hx

/-- A new index makes the set one larger. -/
theorem length_pqInsert {i : Idx} {q : List Idx} (h : i ∉ q) : (pqInsert i q).length = q.length + 1 := by
  induction q with
  | nil => rfl
  | cons y q ih =>
    simp only [List.mem_cons, not_or] at h
    simp only [pqInsert]
    split
    · simp
    · simp [h.1, ih h.2]

end Sys2Proof.Machine
end

