-- ==== Sys2Proof/Laws/Run.lean ====
section
/-! SUPPORT. How operations run: `andThen`, `whenIdle`, `runUnit`, and the induction over micro-steps, once. -/

namespace Sys2Proof.Machine

variable {W : Nat}

@[simp] theorem andThen_next (s : State W) (k : State W → Result W) : andThen (.next s) k = k s := rfl
@[simp] theorem andThen_fault (r : Fault) (k : State W → Result W) : andThen (.fault r) k = .fault r := rfl
@[simp] theorem andThen_refused (r : Refusal) (k : State W → Result W) : andThen (.refused r) k = .refused r := rfl

/-- A sequence answers a next state exactly when both parts do. -/
theorem andThen_eq_next {o : Result W} {k : State W → Result W} {t : State W} :
    andThen o k = .next t ↔ ∃ u, o = .next u ∧ k u = .next t := by
  cases o <;> simp [andThen]

theorem whenIdle_idle {s : State W} (r : Result W) (h : s.phase = .idle) : whenIdle s r = r := if_pos h

/-- R117: while a unit runs nothing is taken. -/
theorem whenIdle_busy {s : State W} (r : Result W) (h : s.phase ≠ .idle) : whenIdle s r = .next s := if_neg h

/-- A unit that has completed makes no further micro-step. -/
theorem runUnit_idle (micro : State W → Result W) (n : Nat) {s : State W} (h : s.phase = .idle) :
    runUnit micro n s = .next s := by
  cases n <;> simp [runUnit, h]

/-- One micro-step of a running unit. -/
theorem runUnit_succ (micro : State W → Result W) (n : Nat) {s : State W} (h : s.phase ≠ .idle) :
    runUnit micro (n + 1) s = andThen (micro s) (runUnit micro n) := if_neg h

/-- The induction over the micro-steps of an operation: what every micro-step of the running unit keeps holds at the end, and at
the end the block is idle. -/
theorem runUnit_induction {micro : State W → Result W} (P : State W → Prop)
    (keep : ∀ s t, P s → s.phase ≠ .idle → micro s = .next t → P t) :
    ∀ (n : Nat) (s t : State W), P s → runUnit micro n s = .next t → P t ∧ t.phase = .idle := by
  intro n
  induction n with
  | zero =>
    intro s t hs h
    simp only [runUnit] at h
    split at h
    · rename_i hp; cases h; exact ⟨hs, hp⟩
    · cases h
  | succ n ih =>
    intro s t hs h
    by_cases hp : s.phase = .idle
    · rw [runUnit_idle micro _ hp] at h; cases h; exact ⟨hs, hp⟩
    · rw [runUnit_succ micro n hp] at h
      obtain ⟨u, hu, ht⟩ := andThen_eq_next.mp h
      exact ih u t (keep s u hs hp hu) ht

/-- The same for a whole operation: start, then micro-steps. -/
theorem start_then_run {micro : State W → Result W} {o : Result W} {n : Nat} {t : State W} (P : State W → Prop)
    (start : ∀ u, o = .next u → P u) (keep : ∀ s u, P s → s.phase ≠ .idle → micro s = .next u → P u)
    (h : andThen o (runUnit micro n) = .next t) : P t ∧ t.phase = .idle := by
  obtain ⟨u, hu, ht⟩ := andThen_eq_next.mp h
  exact runUnit_induction P keep n u t (start u hu) ht

/-- A measure that every micro-step lowers bounds the micro-steps of an operation: with a premise `P` under which a micro-step always
answers, the operation completes. -/
theorem runUnit_completes {micro : State W → Result W} (P : State W → Prop) (size : State W → Nat)
    (pos : ∀ s, P s → s.phase ≠ .idle → 0 < size s)
    (next : ∀ s, P s → s.phase ≠ .idle → ∃ t, micro s = .next t ∧ P t ∧ (t.phase ≠ .idle → size t < size s)) :
    ∀ (n : Nat) (s : State W), P s → (s.phase ≠ .idle → size s ≤ n) →
      ∃ t, runUnit micro n s = .next t ∧ P t ∧ t.phase = .idle := by
  intro n
  induction n with
  | zero =>
    intro s hs hn
    have hp : s.phase = .idle := by
      by_contra hp
      have := pos s hs hp
      have := hn hp
      omega
    exact ⟨s, runUnit_idle micro 0 hp, hs, hp⟩
  | succ n ih =>
    intro s hs hn
    by_cases hp : s.phase = .idle
    · exact ⟨s, runUnit_idle micro _ hp, hs, hp⟩
    · obtain ⟨t, ht, hP, hlt⟩ := next s hs hp
      obtain ⟨u, hu, hPu, hi⟩ := ih t hP (fun hq => by
        have := hlt hq
        have := hn hp
        omega)
      exact ⟨u, by rw [runUnit_succ micro n hp, ht, andThen_next, hu], hPu, hi⟩

/-- Micro-steps of an idle block change nothing (R138). -/
theorem microSteps_idle (k : Nat) {s : State W} (h : s.phase = .idle) : microSteps k s = .next s := by
  induction k with
  | zero => rfl
  | succ k ih => simp [microSteps, microStep, h, ih]

/-- Micro-steps add up. -/
theorem microSteps_add (j k : Nat) (s : State W) :
    microSteps (j + k) s = andThen (microSteps j s) (microSteps k) := by
  induction j generalizing s with
  | zero => simp [microSteps]
  | succ j ih =>
    rw [Nat.succ_add, microSteps, microSteps]
    cases microStep s <;> simp [ih]

end Sys2Proof.Machine
end

