-- ==== Sys2Proof/Laws/State.lean ====
section
/-! SUPPORT. What each named update of the state does to each field: one equation per field per update. -/

namespace Sys2Proof.Machine

variable {W : Nat}

variable (s : State W)

/-! ### `emit` -/

@[simp] theorem emit_phase (e : Event W) : (emit e s).phase = s.phase := rfl
@[simp] theorem emit_sLatch (e : Event W) : (emit e s).sLatch = s.sLatch := rfl
@[simp] theorem emit_done (e : Event W) : (emit e s).done = s.done := rfl
@[simp] theorem emit_err (e : Event W) : (emit e s).err = s.err := rfl
@[simp] theorem emit_freq (e : Event W) : (emit e s).freq = s.freq := rfl
@[simp] theorem emit_node (e : Event W) : (emit e s).node = s.node := rfl
@[simp] theorem emit_nsym (e : Event W) : (emit e s).nsym = s.nsym := rfl
@[simp] theorem emit_nnode (e : Event W) : (emit e s).nnode = s.nnode := rfl
@[simp] theorem emit_root (e : Event W) : (emit e s).root = s.root := rfl
@[simp] theorem emit_code (e : Event W) : (emit e s).code = s.code := rfl
@[simp] theorem emit_input (e : Event W) : (emit e s).input = s.input := rfl
@[simp] theorem emit_ilen (e : Event W) : (emit e s).ilen = s.ilen := rfl
@[simp] theorem emit_bits (e : Event W) : (emit e s).bits = s.bits := rfl
@[simp] theorem emit_blen (e : Event W) : (emit e s).blen = s.blen := rfl
@[simp] theorem emit_out (e : Event W) : (emit e s).out = s.out := rfl
@[simp] theorem emit_olen (e : Event W) : (emit e s).olen = s.olen := rfl
@[simp] theorem emit_ipos (e : Event W) : (emit e s).ipos = s.ipos := rfl
@[simp] theorem emit_cpos (e : Event W) : (emit e s).cpos = s.cpos := rfl
@[simp] theorem emit_bpos (e : Event W) : (emit e s).bpos = s.bpos := rfl
@[simp] theorem emit_cur (e : Event W) : (emit e s).cur = s.cur := rfl
@[simp] theorem emit_scan (e : Event W) : (emit e s).scan = s.scan := rfl
@[simp] theorem emit_mleft (e : Event W) : (emit e s).mleft = s.mleft := rfl
@[simp] theorem emit_pq (e : Event W) : (emit e s).pq = s.pq := rfl
@[simp] theorem emit_stk (e : Event W) : (emit e s).stk = s.stk := rfl
@[simp] theorem emit_beat (e : Event W) : (emit e s).beat = s.beat := rfl
@[simp] theorem emit_host (e : Event W) : (emit e s).host = s.host := rfl
@[simp] theorem emit_events (e : Event W) : (emit e s).events = e :: s.events := rfl
@[simp] theorem emit_free (e : Event W) : (emit e s).free = s.free := rfl

/-! ### `setFreq` -/

@[simp] theorem setFreq_phase (b : Byte) (v : Cnt W) : (setFreq b v s).phase = s.phase := rfl
@[simp] theorem setFreq_sLatch (b : Byte) (v : Cnt W) : (setFreq b v s).sLatch = s.sLatch := rfl
@[simp] theorem setFreq_done (b : Byte) (v : Cnt W) : (setFreq b v s).done = s.done := rfl
@[simp] theorem setFreq_err (b : Byte) (v : Cnt W) : (setFreq b v s).err = s.err := rfl
@[simp] theorem setFreq_freq (b : Byte) (v : Cnt W) : (setFreq b v s).freq = Memory.write 0#_ s.freq b.toNat v := rfl
@[simp] theorem setFreq_node (b : Byte) (v : Cnt W) : (setFreq b v s).node = s.node := rfl
@[simp] theorem setFreq_nsym (b : Byte) (v : Cnt W) : (setFreq b v s).nsym = s.nsym := rfl
@[simp] theorem setFreq_nnode (b : Byte) (v : Cnt W) : (setFreq b v s).nnode = s.nnode := rfl
@[simp] theorem setFreq_root (b : Byte) (v : Cnt W) : (setFreq b v s).root = s.root := rfl
@[simp] theorem setFreq_code (b : Byte) (v : Cnt W) : (setFreq b v s).code = s.code := rfl
@[simp] theorem setFreq_input (b : Byte) (v : Cnt W) : (setFreq b v s).input = s.input := rfl
@[simp] theorem setFreq_ilen (b : Byte) (v : Cnt W) : (setFreq b v s).ilen = s.ilen := rfl
@[simp] theorem setFreq_bits (b : Byte) (v : Cnt W) : (setFreq b v s).bits = s.bits := rfl
@[simp] theorem setFreq_blen (b : Byte) (v : Cnt W) : (setFreq b v s).blen = s.blen := rfl
@[simp] theorem setFreq_out (b : Byte) (v : Cnt W) : (setFreq b v s).out = s.out := rfl
@[simp] theorem setFreq_olen (b : Byte) (v : Cnt W) : (setFreq b v s).olen = s.olen := rfl
@[simp] theorem setFreq_ipos (b : Byte) (v : Cnt W) : (setFreq b v s).ipos = s.ipos := rfl
@[simp] theorem setFreq_cpos (b : Byte) (v : Cnt W) : (setFreq b v s).cpos = s.cpos := rfl
@[simp] theorem setFreq_bpos (b : Byte) (v : Cnt W) : (setFreq b v s).bpos = s.bpos := rfl
@[simp] theorem setFreq_cur (b : Byte) (v : Cnt W) : (setFreq b v s).cur = s.cur := rfl
@[simp] theorem setFreq_scan (b : Byte) (v : Cnt W) : (setFreq b v s).scan = s.scan := rfl
@[simp] theorem setFreq_mleft (b : Byte) (v : Cnt W) : (setFreq b v s).mleft = s.mleft := rfl
@[simp] theorem setFreq_pq (b : Byte) (v : Cnt W) : (setFreq b v s).pq = s.pq := rfl
@[simp] theorem setFreq_stk (b : Byte) (v : Cnt W) : (setFreq b v s).stk = s.stk := rfl
@[simp] theorem setFreq_beat (b : Byte) (v : Cnt W) : (setFreq b v s).beat = s.beat := rfl
@[simp] theorem setFreq_host (b : Byte) (v : Cnt W) : (setFreq b v s).host = s.host := rfl
@[simp] theorem setFreq_events (b : Byte) (v : Cnt W) : (setFreq b v s).events = s.events := rfl
@[simp] theorem setFreq_free (b : Byte) (v : Cnt W) : (setFreq b v s).free = s.free := rfl

/-! ### `setNode` -/

@[simp] theorem setNode_phase (i : Idx) (r : NodeRec W) : (setNode i r s).phase = s.phase := rfl
@[simp] theorem setNode_sLatch (i : Idx) (r : NodeRec W) : (setNode i r s).sLatch = s.sLatch := rfl
@[simp] theorem setNode_done (i : Idx) (r : NodeRec W) : (setNode i r s).done = s.done := rfl
@[simp] theorem setNode_err (i : Idx) (r : NodeRec W) : (setNode i r s).err = s.err := rfl
@[simp] theorem setNode_freq (i : Idx) (r : NodeRec W) : (setNode i r s).freq = s.freq := rfl
@[simp] theorem setNode_node (i : Idx) (r : NodeRec W) : (setNode i r s).node = Memory.write NodeRec.blank s.node i.toNat r := rfl
@[simp] theorem setNode_nsym (i : Idx) (r : NodeRec W) : (setNode i r s).nsym = s.nsym := rfl
@[simp] theorem setNode_nnode (i : Idx) (r : NodeRec W) : (setNode i r s).nnode = s.nnode := rfl
@[simp] theorem setNode_root (i : Idx) (r : NodeRec W) : (setNode i r s).root = s.root := rfl
@[simp] theorem setNode_code (i : Idx) (r : NodeRec W) : (setNode i r s).code = s.code := rfl
@[simp] theorem setNode_input (i : Idx) (r : NodeRec W) : (setNode i r s).input = s.input := rfl
@[simp] theorem setNode_ilen (i : Idx) (r : NodeRec W) : (setNode i r s).ilen = s.ilen := rfl
@[simp] theorem setNode_bits (i : Idx) (r : NodeRec W) : (setNode i r s).bits = s.bits := rfl
@[simp] theorem setNode_blen (i : Idx) (r : NodeRec W) : (setNode i r s).blen = s.blen := rfl
@[simp] theorem setNode_out (i : Idx) (r : NodeRec W) : (setNode i r s).out = s.out := rfl
@[simp] theorem setNode_olen (i : Idx) (r : NodeRec W) : (setNode i r s).olen = s.olen := rfl
@[simp] theorem setNode_ipos (i : Idx) (r : NodeRec W) : (setNode i r s).ipos = s.ipos := rfl
@[simp] theorem setNode_cpos (i : Idx) (r : NodeRec W) : (setNode i r s).cpos = s.cpos := rfl
@[simp] theorem setNode_bpos (i : Idx) (r : NodeRec W) : (setNode i r s).bpos = s.bpos := rfl
@[simp] theorem setNode_cur (i : Idx) (r : NodeRec W) : (setNode i r s).cur = s.cur := rfl
@[simp] theorem setNode_scan (i : Idx) (r : NodeRec W) : (setNode i r s).scan = s.scan := rfl
@[simp] theorem setNode_mleft (i : Idx) (r : NodeRec W) : (setNode i r s).mleft = s.mleft := rfl
@[simp] theorem setNode_pq (i : Idx) (r : NodeRec W) : (setNode i r s).pq = s.pq := rfl
@[simp] theorem setNode_stk (i : Idx) (r : NodeRec W) : (setNode i r s).stk = s.stk := rfl
@[simp] theorem setNode_beat (i : Idx) (r : NodeRec W) : (setNode i r s).beat = s.beat := rfl
@[simp] theorem setNode_host (i : Idx) (r : NodeRec W) : (setNode i r s).host = s.host := rfl
@[simp] theorem setNode_events (i : Idx) (r : NodeRec W) : (setNode i r s).events = s.events := rfl
@[simp] theorem setNode_free (i : Idx) (r : NodeRec W) : (setNode i r s).free = s.free := rfl

/-! ### `setCode` -/

@[simp] theorem setCode_phase (b : Byte) (v : CodeEnt) : (setCode b v s).phase = s.phase := rfl
@[simp] theorem setCode_sLatch (b : Byte) (v : CodeEnt) : (setCode b v s).sLatch = s.sLatch := rfl
@[simp] theorem setCode_done (b : Byte) (v : CodeEnt) : (setCode b v s).done = s.done := rfl
@[simp] theorem setCode_err (b : Byte) (v : CodeEnt) : (setCode b v s).err = s.err := rfl
@[simp] theorem setCode_freq (b : Byte) (v : CodeEnt) : (setCode b v s).freq = s.freq := rfl
@[simp] theorem setCode_node (b : Byte) (v : CodeEnt) : (setCode b v s).node = s.node := rfl
@[simp] theorem setCode_nsym (b : Byte) (v : CodeEnt) : (setCode b v s).nsym = s.nsym := rfl
@[simp] theorem setCode_nnode (b : Byte) (v : CodeEnt) : (setCode b v s).nnode = s.nnode := rfl
@[simp] theorem setCode_root (b : Byte) (v : CodeEnt) : (setCode b v s).root = s.root := rfl
@[simp] theorem setCode_code (b : Byte) (v : CodeEnt) : (setCode b v s).code = Memory.write CodeEnt.absent s.code b.toNat v := rfl
@[simp] theorem setCode_input (b : Byte) (v : CodeEnt) : (setCode b v s).input = s.input := rfl
@[simp] theorem setCode_ilen (b : Byte) (v : CodeEnt) : (setCode b v s).ilen = s.ilen := rfl
@[simp] theorem setCode_bits (b : Byte) (v : CodeEnt) : (setCode b v s).bits = s.bits := rfl
@[simp] theorem setCode_blen (b : Byte) (v : CodeEnt) : (setCode b v s).blen = s.blen := rfl
@[simp] theorem setCode_out (b : Byte) (v : CodeEnt) : (setCode b v s).out = s.out := rfl
@[simp] theorem setCode_olen (b : Byte) (v : CodeEnt) : (setCode b v s).olen = s.olen := rfl
@[simp] theorem setCode_ipos (b : Byte) (v : CodeEnt) : (setCode b v s).ipos = s.ipos := rfl
@[simp] theorem setCode_cpos (b : Byte) (v : CodeEnt) : (setCode b v s).cpos = s.cpos := rfl
@[simp] theorem setCode_bpos (b : Byte) (v : CodeEnt) : (setCode b v s).bpos = s.bpos := rfl
@[simp] theorem setCode_cur (b : Byte) (v : CodeEnt) : (setCode b v s).cur = s.cur := rfl
@[simp] theorem setCode_scan (b : Byte) (v : CodeEnt) : (setCode b v s).scan = s.scan := rfl
@[simp] theorem setCode_mleft (b : Byte) (v : CodeEnt) : (setCode b v s).mleft = s.mleft := rfl
@[simp] theorem setCode_pq (b : Byte) (v : CodeEnt) : (setCode b v s).pq = s.pq := rfl
@[simp] theorem setCode_stk (b : Byte) (v : CodeEnt) : (setCode b v s).stk = s.stk := rfl
@[simp] theorem setCode_beat (b : Byte) (v : CodeEnt) : (setCode b v s).beat = s.beat := rfl
@[simp] theorem setCode_host (b : Byte) (v : CodeEnt) : (setCode b v s).host = s.host := rfl
@[simp] theorem setCode_events (b : Byte) (v : CodeEnt) : (setCode b v s).events = s.events := rfl
@[simp] theorem setCode_free (b : Byte) (v : CodeEnt) : (setCode b v s).free = s.free := rfl

/-! ### `appendBit` -/

@[simp] theorem appendBit_phase (b : Bool) : (appendBit b s).phase = s.phase := rfl
@[simp] theorem appendBit_sLatch (b : Bool) : (appendBit b s).sLatch = s.sLatch := rfl
@[simp] theorem appendBit_done (b : Bool) : (appendBit b s).done = s.done := rfl
@[simp] theorem appendBit_err (b : Bool) : (appendBit b s).err = s.err := rfl
@[simp] theorem appendBit_freq (b : Bool) : (appendBit b s).freq = s.freq := rfl
@[simp] theorem appendBit_node (b : Bool) : (appendBit b s).node = s.node := rfl
@[simp] theorem appendBit_nsym (b : Bool) : (appendBit b s).nsym = s.nsym := rfl
@[simp] theorem appendBit_nnode (b : Bool) : (appendBit b s).nnode = s.nnode := rfl
@[simp] theorem appendBit_root (b : Bool) : (appendBit b s).root = s.root := rfl
@[simp] theorem appendBit_code (b : Bool) : (appendBit b s).code = s.code := rfl
@[simp] theorem appendBit_input (b : Bool) : (appendBit b s).input = s.input := rfl
@[simp] theorem appendBit_ilen (b : Bool) : (appendBit b s).ilen = s.ilen := rfl
@[simp] theorem appendBit_bits (b : Bool) : (appendBit b s).bits = s.bits ++ [b] := rfl
@[simp] theorem appendBit_blen (b : Bool) : (appendBit b s).blen = s.blen + 1#_ := rfl
@[simp] theorem appendBit_out (b : Bool) : (appendBit b s).out = s.out := rfl
@[simp] theorem appendBit_olen (b : Bool) : (appendBit b s).olen = s.olen := rfl
@[simp] theorem appendBit_ipos (b : Bool) : (appendBit b s).ipos = s.ipos := rfl
@[simp] theorem appendBit_cpos (b : Bool) : (appendBit b s).cpos = s.cpos := rfl
@[simp] theorem appendBit_bpos (b : Bool) : (appendBit b s).bpos = s.bpos := rfl
@[simp] theorem appendBit_cur (b : Bool) : (appendBit b s).cur = s.cur := rfl
@[simp] theorem appendBit_scan (b : Bool) : (appendBit b s).scan = s.scan := rfl
@[simp] theorem appendBit_mleft (b : Bool) : (appendBit b s).mleft = s.mleft := rfl
@[simp] theorem appendBit_pq (b : Bool) : (appendBit b s).pq = s.pq := rfl
@[simp] theorem appendBit_stk (b : Bool) : (appendBit b s).stk = s.stk := rfl
@[simp] theorem appendBit_beat (b : Bool) : (appendBit b s).beat = s.beat := rfl
@[simp] theorem appendBit_host (b : Bool) : (appendBit b s).host = s.host := rfl
@[simp] theorem appendBit_events (b : Bool) : (appendBit b s).events = .bit b :: s.events := rfl
@[simp] theorem appendBit_free (b : Bool) : (appendBit b s).free = s.free := rfl

/-! ### `appendSym` -/

@[simp] theorem appendSym_phase (v : Byte) : (appendSym v s).phase = s.phase := rfl
@[simp] theorem appendSym_sLatch (v : Byte) : (appendSym v s).sLatch = s.sLatch := rfl
@[simp] theorem appendSym_done (v : Byte) : (appendSym v s).done = s.done := rfl
@[simp] theorem appendSym_err (v : Byte) : (appendSym v s).err = s.err := rfl
@[simp] theorem appendSym_freq (v : Byte) : (appendSym v s).freq = s.freq := rfl
@[simp] theorem appendSym_node (v : Byte) : (appendSym v s).node = s.node := rfl
@[simp] theorem appendSym_nsym (v : Byte) : (appendSym v s).nsym = s.nsym := rfl
@[simp] theorem appendSym_nnode (v : Byte) : (appendSym v s).nnode = s.nnode := rfl
@[simp] theorem appendSym_root (v : Byte) : (appendSym v s).root = s.root := rfl
@[simp] theorem appendSym_code (v : Byte) : (appendSym v s).code = s.code := rfl
@[simp] theorem appendSym_input (v : Byte) : (appendSym v s).input = s.input := rfl
@[simp] theorem appendSym_ilen (v : Byte) : (appendSym v s).ilen = s.ilen := rfl
@[simp] theorem appendSym_bits (v : Byte) : (appendSym v s).bits = s.bits := rfl
@[simp] theorem appendSym_blen (v : Byte) : (appendSym v s).blen = s.blen := rfl
@[simp] theorem appendSym_out (v : Byte) : (appendSym v s).out = s.out ++ [v] := rfl
@[simp] theorem appendSym_olen (v : Byte) : (appendSym v s).olen = s.olen + 1#_ := rfl
@[simp] theorem appendSym_ipos (v : Byte) : (appendSym v s).ipos = s.ipos := rfl
@[simp] theorem appendSym_cpos (v : Byte) : (appendSym v s).cpos = s.cpos := rfl
@[simp] theorem appendSym_bpos (v : Byte) : (appendSym v s).bpos = s.bpos := rfl
@[simp] theorem appendSym_cur (v : Byte) : (appendSym v s).cur = s.cur := rfl
@[simp] theorem appendSym_scan (v : Byte) : (appendSym v s).scan = s.scan := rfl
@[simp] theorem appendSym_mleft (v : Byte) : (appendSym v s).mleft = s.mleft := rfl
@[simp] theorem appendSym_pq (v : Byte) : (appendSym v s).pq = s.pq := rfl
@[simp] theorem appendSym_stk (v : Byte) : (appendSym v s).stk = s.stk := rfl
@[simp] theorem appendSym_beat (v : Byte) : (appendSym v s).beat = s.beat := rfl
@[simp] theorem appendSym_host (v : Byte) : (appendSym v s).host = s.host := rfl
@[simp] theorem appendSym_events (v : Byte) : (appendSym v s).events = .sym v :: s.events := rfl
@[simp] theorem appendSym_free (v : Byte) : (appendSym v s).free = s.free := rfl

/-! ### `clearBits` -/

@[simp] theorem clearBits_phase : (clearBits s).phase = s.phase := rfl
@[simp] theorem clearBits_sLatch : (clearBits s).sLatch = s.sLatch := rfl
@[simp] theorem clearBits_done : (clearBits s).done = s.done := rfl
@[simp] theorem clearBits_err : (clearBits s).err = s.err := rfl
@[simp] theorem clearBits_freq : (clearBits s).freq = s.freq := rfl
@[simp] theorem clearBits_node : (clearBits s).node = s.node := rfl
@[simp] theorem clearBits_nsym : (clearBits s).nsym = s.nsym := rfl
@[simp] theorem clearBits_nnode : (clearBits s).nnode = s.nnode := rfl
@[simp] theorem clearBits_root : (clearBits s).root = s.root := rfl
@[simp] theorem clearBits_code : (clearBits s).code = s.code := rfl
@[simp] theorem clearBits_input : (clearBits s).input = s.input := rfl
@[simp] theorem clearBits_ilen : (clearBits s).ilen = s.ilen := rfl
@[simp] theorem clearBits_bits : (clearBits s).bits = [] := rfl
@[simp] theorem clearBits_blen : (clearBits s).blen = 0#_ := rfl
@[simp] theorem clearBits_out : (clearBits s).out = s.out := rfl
@[simp] theorem clearBits_olen : (clearBits s).olen = s.olen := rfl
@[simp] theorem clearBits_ipos : (clearBits s).ipos = s.ipos := rfl
@[simp] theorem clearBits_cpos : (clearBits s).cpos = s.cpos := rfl
@[simp] theorem clearBits_bpos : (clearBits s).bpos = s.bpos := rfl
@[simp] theorem clearBits_cur : (clearBits s).cur = s.cur := rfl
@[simp] theorem clearBits_scan : (clearBits s).scan = s.scan := rfl
@[simp] theorem clearBits_mleft : (clearBits s).mleft = s.mleft := rfl
@[simp] theorem clearBits_pq : (clearBits s).pq = s.pq := rfl
@[simp] theorem clearBits_stk : (clearBits s).stk = s.stk := rfl
@[simp] theorem clearBits_beat : (clearBits s).beat = s.beat := rfl
@[simp] theorem clearBits_host : (clearBits s).host = s.host := rfl
@[simp] theorem clearBits_events : (clearBits s).events = s.events := rfl
@[simp] theorem clearBits_free : (clearBits s).free = s.free := rfl

/-! ### `clearOut` -/

@[simp] theorem clearOut_phase : (clearOut s).phase = s.phase := rfl
@[simp] theorem clearOut_sLatch : (clearOut s).sLatch = s.sLatch := rfl
@[simp] theorem clearOut_done : (clearOut s).done = s.done := rfl
@[simp] theorem clearOut_err : (clearOut s).err = s.err := rfl
@[simp] theorem clearOut_freq : (clearOut s).freq = s.freq := rfl
@[simp] theorem clearOut_node : (clearOut s).node = s.node := rfl
@[simp] theorem clearOut_nsym : (clearOut s).nsym = s.nsym := rfl
@[simp] theorem clearOut_nnode : (clearOut s).nnode = s.nnode := rfl
@[simp] theorem clearOut_root : (clearOut s).root = s.root := rfl
@[simp] theorem clearOut_code : (clearOut s).code = s.code := rfl
@[simp] theorem clearOut_input : (clearOut s).input = s.input := rfl
@[simp] theorem clearOut_ilen : (clearOut s).ilen = s.ilen := rfl
@[simp] theorem clearOut_bits : (clearOut s).bits = s.bits := rfl
@[simp] theorem clearOut_blen : (clearOut s).blen = s.blen := rfl
@[simp] theorem clearOut_out : (clearOut s).out = [] := rfl
@[simp] theorem clearOut_olen : (clearOut s).olen = 0#_ := rfl
@[simp] theorem clearOut_ipos : (clearOut s).ipos = s.ipos := rfl
@[simp] theorem clearOut_cpos : (clearOut s).cpos = s.cpos := rfl
@[simp] theorem clearOut_bpos : (clearOut s).bpos = s.bpos := rfl
@[simp] theorem clearOut_cur : (clearOut s).cur = s.cur := rfl
@[simp] theorem clearOut_scan : (clearOut s).scan = s.scan := rfl
@[simp] theorem clearOut_mleft : (clearOut s).mleft = s.mleft := rfl
@[simp] theorem clearOut_pq : (clearOut s).pq = s.pq := rfl
@[simp] theorem clearOut_stk : (clearOut s).stk = s.stk := rfl
@[simp] theorem clearOut_beat : (clearOut s).beat = s.beat := rfl
@[simp] theorem clearOut_host : (clearOut s).host = s.host := rfl
@[simp] theorem clearOut_events : (clearOut s).events = s.events := rfl
@[simp] theorem clearOut_free : (clearOut s).free = s.free := rfl

/-! ### `accept` -/

@[simp] theorem accept_phase (w : Cmd) (p : Phase) : (accept w p s).phase = p := rfl
@[simp] theorem accept_sLatch (w : Cmd) (p : Phase) : (accept w p s).sLatch = w.getLsbD 3 := rfl
@[simp] theorem accept_done (w : Cmd) (p : Phase) : (accept w p s).done = false := rfl
@[simp] theorem accept_err (w : Cmd) (p : Phase) : (accept w p s).err = s.err := rfl
@[simp] theorem accept_freq (w : Cmd) (p : Phase) : (accept w p s).freq = s.freq := rfl
@[simp] theorem accept_node (w : Cmd) (p : Phase) : (accept w p s).node = s.node := rfl
@[simp] theorem accept_nsym (w : Cmd) (p : Phase) : (accept w p s).nsym = s.nsym := rfl
@[simp] theorem accept_nnode (w : Cmd) (p : Phase) : (accept w p s).nnode = s.nnode := rfl
@[simp] theorem accept_root (w : Cmd) (p : Phase) : (accept w p s).root = s.root := rfl
@[simp] theorem accept_code (w : Cmd) (p : Phase) : (accept w p s).code = s.code := rfl
@[simp] theorem accept_input (w : Cmd) (p : Phase) : (accept w p s).input = s.input := rfl
@[simp] theorem accept_ilen (w : Cmd) (p : Phase) : (accept w p s).ilen = s.ilen := rfl
@[simp] theorem accept_bits (w : Cmd) (p : Phase) : (accept w p s).bits = s.bits := rfl
@[simp] theorem accept_blen (w : Cmd) (p : Phase) : (accept w p s).blen = s.blen := rfl
@[simp] theorem accept_out (w : Cmd) (p : Phase) : (accept w p s).out = s.out := rfl
@[simp] theorem accept_olen (w : Cmd) (p : Phase) : (accept w p s).olen = s.olen := rfl
@[simp] theorem accept_ipos (w : Cmd) (p : Phase) : (accept w p s).ipos = s.ipos := rfl
@[simp] theorem accept_cpos (w : Cmd) (p : Phase) : (accept w p s).cpos = s.cpos := rfl
@[simp] theorem accept_bpos (w : Cmd) (p : Phase) : (accept w p s).bpos = s.bpos := rfl
@[simp] theorem accept_cur (w : Cmd) (p : Phase) : (accept w p s).cur = s.cur := rfl
@[simp] theorem accept_scan (w : Cmd) (p : Phase) : (accept w p s).scan = s.scan := rfl
@[simp] theorem accept_mleft (w : Cmd) (p : Phase) : (accept w p s).mleft = s.mleft := rfl
@[simp] theorem accept_pq (w : Cmd) (p : Phase) : (accept w p s).pq = s.pq := rfl
@[simp] theorem accept_stk (w : Cmd) (p : Phase) : (accept w p s).stk = s.stk := rfl
@[simp] theorem accept_beat (w : Cmd) (p : Phase) : (accept w p s).beat = s.beat := rfl
@[simp] theorem accept_host (w : Cmd) (p : Phase) : (accept w p s).host = s.host := rfl
@[simp] theorem accept_events (w : Cmd) (p : Phase) : (accept w p s).events = .accepted w :: s.events := rfl
@[simp] theorem accept_free (w : Cmd) (p : Phase) : (accept w p s).free = s.free := rfl

/-! ### `complete` -/

@[simp] theorem complete_phase (e : Err) : (complete e s).phase = .idle := rfl
@[simp] theorem complete_sLatch (e : Err) : (complete e s).sLatch = s.sLatch := rfl
@[simp] theorem complete_done (e : Err) : (complete e s).done = true := rfl
@[simp] theorem complete_err (e : Err) : (complete e s).err = e := rfl
@[simp] theorem complete_freq (e : Err) : (complete e s).freq = s.freq := rfl
@[simp] theorem complete_node (e : Err) : (complete e s).node = s.node := rfl
@[simp] theorem complete_nsym (e : Err) : (complete e s).nsym = s.nsym := rfl
@[simp] theorem complete_nnode (e : Err) : (complete e s).nnode = s.nnode := rfl
@[simp] theorem complete_root (e : Err) : (complete e s).root = s.root := rfl
@[simp] theorem complete_code (e : Err) : (complete e s).code = s.code := rfl
@[simp] theorem complete_input (e : Err) : (complete e s).input = s.input := rfl
@[simp] theorem complete_ilen (e : Err) : (complete e s).ilen = s.ilen := rfl
@[simp] theorem complete_bits (e : Err) : (complete e s).bits = s.bits := rfl
@[simp] theorem complete_blen (e : Err) : (complete e s).blen = s.blen := rfl
@[simp] theorem complete_out (e : Err) : (complete e s).out = s.out := rfl
@[simp] theorem complete_olen (e : Err) : (complete e s).olen = s.olen := rfl
@[simp] theorem complete_ipos (e : Err) : (complete e s).ipos = s.ipos := rfl
@[simp] theorem complete_cpos (e : Err) : (complete e s).cpos = s.cpos := rfl
@[simp] theorem complete_bpos (e : Err) : (complete e s).bpos = s.bpos := rfl
@[simp] theorem complete_cur (e : Err) : (complete e s).cur = s.cur := rfl
@[simp] theorem complete_scan (e : Err) : (complete e s).scan = s.scan := rfl
@[simp] theorem complete_mleft (e : Err) : (complete e s).mleft = s.mleft := rfl
@[simp] theorem complete_pq (e : Err) : (complete e s).pq = s.pq := rfl
@[simp] theorem complete_stk (e : Err) : (complete e s).stk = s.stk := rfl
@[simp] theorem complete_beat (e : Err) : (complete e s).beat = s.beat := rfl
@[simp] theorem complete_host (e : Err) : (complete e s).host = s.host := rfl
@[simp] theorem complete_events (e : Err) : (complete e s).events = .completed e :: s.events := rfl
@[simp] theorem complete_free (e : Err) : (complete e s).free = s.free := rfl

/-! ### `release` -/

@[simp] theorem release_phase : (release s).phase = s.phase := rfl
@[simp] theorem release_sLatch : (release s).sLatch = s.sLatch := rfl
@[simp] theorem release_done : (release s).done = s.done := rfl
@[simp] theorem release_err : (release s).err = s.err := rfl
@[simp] theorem release_freq : (release s).freq = s.freq := rfl
@[simp] theorem release_node : (release s).node = s.node := rfl
@[simp] theorem release_nsym : (release s).nsym = s.nsym := rfl
@[simp] theorem release_nnode : (release s).nnode = s.nnode := rfl
@[simp] theorem release_root : (release s).root = s.root := rfl
@[simp] theorem release_code : (release s).code = s.code := rfl
@[simp] theorem release_input : (release s).input = s.input := rfl
@[simp] theorem release_ilen : (release s).ilen = s.ilen := rfl
@[simp] theorem release_bits : (release s).bits = s.bits := rfl
@[simp] theorem release_blen : (release s).blen = s.blen := rfl
@[simp] theorem release_out : (release s).out = s.out := rfl
@[simp] theorem release_olen : (release s).olen = s.olen := rfl
@[simp] theorem release_ipos : (release s).ipos = Config.freeIpos W s.free := rfl
@[simp] theorem release_cpos : (release s).cpos = Config.freeCpos s.free := rfl
@[simp] theorem release_bpos : (release s).bpos = Config.freeBpos W s.free := rfl
@[simp] theorem release_cur : (release s).cur = Config.freeCur s.free := rfl
@[simp] theorem release_scan : (release s).scan = Config.freeScan s.free := rfl
@[simp] theorem release_mleft : (release s).mleft = Config.freeMleft s.free := rfl
@[simp] theorem release_pq : (release s).pq = [] := rfl
@[simp] theorem release_stk : (release s).stk = [] := rfl
@[simp] theorem release_beat : (release s).beat = false := rfl
@[simp] theorem release_host : (release s).host = s.host := rfl
@[simp] theorem release_events : (release s).events = s.events := rfl
@[simp] theorem release_free : (release s).free = s.free + 1 := rfl

/-! ### `finishOk` -/

@[simp] theorem finishOk_phase : (finishOk s).phase = .idle := rfl
@[simp] theorem finishOk_sLatch : (finishOk s).sLatch = s.sLatch := rfl
@[simp] theorem finishOk_done : (finishOk s).done = true := rfl
@[simp] theorem finishOk_err : (finishOk s).err = .ok := rfl
@[simp] theorem finishOk_freq : (finishOk s).freq = s.freq := rfl
@[simp] theorem finishOk_node : (finishOk s).node = s.node := rfl
@[simp] theorem finishOk_nsym : (finishOk s).nsym = s.nsym := rfl
@[simp] theorem finishOk_nnode : (finishOk s).nnode = s.nnode := rfl
@[simp] theorem finishOk_root : (finishOk s).root = s.root := rfl
@[simp] theorem finishOk_code : (finishOk s).code = s.code := rfl
@[simp] theorem finishOk_input : (finishOk s).input = s.input := rfl
@[simp] theorem finishOk_ilen : (finishOk s).ilen = s.ilen := rfl
@[simp] theorem finishOk_bits : (finishOk s).bits = s.bits := rfl
@[simp] theorem finishOk_blen : (finishOk s).blen = s.blen := rfl
@[simp] theorem finishOk_out : (finishOk s).out = s.out := rfl
@[simp] theorem finishOk_olen : (finishOk s).olen = s.olen := rfl
@[simp] theorem finishOk_ipos : (finishOk s).ipos = Config.freeIpos W s.free := rfl
@[simp] theorem finishOk_cpos : (finishOk s).cpos = Config.freeCpos s.free := rfl
@[simp] theorem finishOk_bpos : (finishOk s).bpos = Config.freeBpos W s.free := rfl
@[simp] theorem finishOk_cur : (finishOk s).cur = Config.freeCur s.free := rfl
@[simp] theorem finishOk_scan : (finishOk s).scan = Config.freeScan s.free := rfl
@[simp] theorem finishOk_mleft : (finishOk s).mleft = Config.freeMleft s.free := rfl
@[simp] theorem finishOk_pq : (finishOk s).pq = [] := rfl
@[simp] theorem finishOk_stk : (finishOk s).stk = [] := rfl
@[simp] theorem finishOk_beat : (finishOk s).beat = false := rfl
@[simp] theorem finishOk_host : (finishOk s).host = s.host := rfl
@[simp] theorem finishOk_events : (finishOk s).events = .completed .ok :: s.events := rfl
@[simp] theorem finishOk_free : (finishOk s).free = s.free + 1 := rfl

/-! ### `clearOutput` and `raise` -/

@[simp] theorem clearOutput_phase : (clearOutput s).phase = s.phase := by
  unfold clearOutput; split <;> rfl
@[simp] theorem clearOutput_sLatch : (clearOutput s).sLatch = s.sLatch := by
  unfold clearOutput; split <;> rfl
@[simp] theorem clearOutput_done : (clearOutput s).done = s.done := by
  unfold clearOutput; split <;> rfl
@[simp] theorem clearOutput_err : (clearOutput s).err = s.err := by
  unfold clearOutput; split <;> rfl
@[simp] theorem clearOutput_freq : (clearOutput s).freq = s.freq := by
  unfold clearOutput; split <;> rfl
@[simp] theorem clearOutput_node : (clearOutput s).node = s.node := by
  unfold clearOutput; split <;> rfl
@[simp] theorem clearOutput_nsym : (clearOutput s).nsym = s.nsym := by
  unfold clearOutput; split <;> rfl
@[simp] theorem clearOutput_nnode : (clearOutput s).nnode = s.nnode := by
  unfold clearOutput; split <;> rfl
@[simp] theorem clearOutput_root : (clearOutput s).root = s.root := by
  unfold clearOutput; split <;> rfl
@[simp] theorem clearOutput_code : (clearOutput s).code = s.code := by
  unfold clearOutput; split <;> rfl
@[simp] theorem clearOutput_input : (clearOutput s).input = s.input := by
  unfold clearOutput; split <;> rfl
@[simp] theorem clearOutput_ilen : (clearOutput s).ilen = s.ilen := by
  unfold clearOutput; split <;> rfl
@[simp] theorem clearOutput_ipos : (clearOutput s).ipos = s.ipos := by
  unfold clearOutput; split <;> rfl
@[simp] theorem clearOutput_cpos : (clearOutput s).cpos = s.cpos := by
  unfold clearOutput; split <;> rfl
@[simp] theorem clearOutput_bpos : (clearOutput s).bpos = s.bpos := by
  unfold clearOutput; split <;> rfl
@[simp] theorem clearOutput_cur : (clearOutput s).cur = s.cur := by
  unfold clearOutput; split <;> rfl
@[simp] theorem clearOutput_scan : (clearOutput s).scan = s.scan := by
  unfold clearOutput; split <;> rfl
@[simp] theorem clearOutput_mleft : (clearOutput s).mleft = s.mleft := by
  unfold clearOutput; split <;> rfl
@[simp] theorem clearOutput_pq : (clearOutput s).pq = s.pq := by
  unfold clearOutput; split <;> rfl
@[simp] theorem clearOutput_stk : (clearOutput s).stk = s.stk := by
  unfold clearOutput; split <;> rfl
@[simp] theorem clearOutput_beat : (clearOutput s).beat = s.beat := by
  unfold clearOutput; split <;> rfl
@[simp] theorem clearOutput_host : (clearOutput s).host = s.host := by
  unfold clearOutput; split <;> rfl
@[simp] theorem clearOutput_events : (clearOutput s).events = s.events := by
  unfold clearOutput; split <;> rfl
@[simp] theorem clearOutput_free : (clearOutput s).free = s.free := by
  unfold clearOutput; split <;> rfl
@[simp] theorem clearOutput_bits : (clearOutput s).bits = if s.phase = .encode then [] else s.bits := by
  unfold clearOutput; split <;> simp_all
@[simp] theorem clearOutput_blen : (clearOutput s).blen = if s.phase = .encode then 0#_ else s.blen := by
  unfold clearOutput; split <;> simp_all
@[simp] theorem clearOutput_out : (clearOutput s).out = if s.phase = .decode then [] else s.out := by
  unfold clearOutput; split <;> simp_all
@[simp] theorem clearOutput_olen : (clearOutput s).olen = if s.phase = .decode then 0#_ else s.olen := by
  unfold clearOutput; split <;> simp_all

@[simp] theorem raise_phase (e : Err) : (raise e s).phase = .idle := by simp [raise]
@[simp] theorem raise_sLatch (e : Err) : (raise e s).sLatch = s.sLatch := by simp [raise]
@[simp] theorem raise_done (e : Err) : (raise e s).done = true := by simp [raise]
@[simp] theorem raise_err (e : Err) : (raise e s).err = e := by simp [raise]
@[simp] theorem raise_freq (e : Err) : (raise e s).freq = s.freq := by simp [raise]
@[simp] theorem raise_node (e : Err) : (raise e s).node = s.node := by simp [raise]
@[simp] theorem raise_nsym (e : Err) : (raise e s).nsym = s.nsym := by simp [raise]
@[simp] theorem raise_nnode (e : Err) : (raise e s).nnode = s.nnode := by simp [raise]
@[simp] theorem raise_root (e : Err) : (raise e s).root = s.root := by simp [raise]
@[simp] theorem raise_code (e : Err) : (raise e s).code = s.code := by simp [raise]
@[simp] theorem raise_input (e : Err) : (raise e s).input = s.input := by simp [raise]
@[simp] theorem raise_ilen (e : Err) : (raise e s).ilen = s.ilen := by simp [raise]
@[simp] theorem raise_bits (e : Err) : (raise e s).bits = if s.phase = .encode then [] else s.bits := by simp [raise]
@[simp] theorem raise_blen (e : Err) : (raise e s).blen = if s.phase = .encode then 0#_ else s.blen := by simp [raise]
@[simp] theorem raise_out (e : Err) : (raise e s).out = if s.phase = .decode then [] else s.out := by simp [raise]
@[simp] theorem raise_olen (e : Err) : (raise e s).olen = if s.phase = .decode then 0#_ else s.olen := by simp [raise]
@[simp] theorem raise_ipos (e : Err) : (raise e s).ipos = Config.freeIpos W s.free := by simp [raise]
@[simp] theorem raise_cpos (e : Err) : (raise e s).cpos = Config.freeCpos s.free := by simp [raise]
@[simp] theorem raise_bpos (e : Err) : (raise e s).bpos = Config.freeBpos W s.free := by simp [raise]
@[simp] theorem raise_cur (e : Err) : (raise e s).cur = Config.freeCur s.free := by simp [raise]
@[simp] theorem raise_scan (e : Err) : (raise e s).scan = Config.freeScan s.free := by simp [raise]
@[simp] theorem raise_mleft (e : Err) : (raise e s).mleft = Config.freeMleft s.free := by simp [raise]
@[simp] theorem raise_pq (e : Err) : (raise e s).pq = [] := by simp [raise]
@[simp] theorem raise_stk (e : Err) : (raise e s).stk = [] := by simp [raise]
@[simp] theorem raise_beat (e : Err) : (raise e s).beat = false := by simp [raise]
@[simp] theorem raise_host (e : Err) : (raise e s).host = s.host := by simp [raise]
@[simp] theorem raise_events (e : Err) : (raise e s).events = .completed e :: s.events := by simp [raise]
@[simp] theorem raise_free (e : Err) : (raise e s).free = s.free + 1 := by simp [raise]

end Sys2Proof.Machine
end

