-- ==== Sys2Proof/Laws/Tables.lean ====
section
/-! SUPPORT. The tables as the commands read and write them: reads after writes, and the canonical form of the whole state. -/

namespace Sys2Proof.Machine

variable {W : Nat}

variable (s : State W)

/-- R37: `FREQ[s] <- v` changes entry `s` alone. -/
theorem freqAt_setFreq (b c : Byte) (v : Cnt W) :
    freqAt (setFreq b v s) c = if c = b then v else freqAt s c := by
  simp only [freqAt, setFreq, Memory.read_write, ← BitVec.toNat_inj]

/-- R37: `CODE[s] <- v` changes entry `s` alone. -/
theorem codeAt_setCode (b c : Byte) (v : CodeEnt) :
    codeAt (setCode b v s) c = if c = b then v else codeAt s c := by
  simp only [codeAt, setCode, Memory.read_write, ← BitVec.toNat_inj]

/-- R37: `NODE[i] <- rec` changes record `i` alone. -/
theorem nodeNo_setNode (i : Idx) (k : Nat) (r : NodeRec W) :
    nodeNo (setNode i r s) k = if k = i.toNat then r else nodeNo s k := by
  simp only [nodeNo, setNode, Memory.read_write]

theorem nodeAt_eq_nodeNo (i : Idx) : nodeAt s i = nodeNo s i.toNat := rfl

/-- What a table reads as depends on that table alone. -/
theorem freqAt_congr {s t : State W} (h : t.freq = s.freq) (b : Byte) : freqAt t b = freqAt s b := by
  simp only [freqAt, h]

theorem codeAt_congr {s t : State W} (h : t.code = s.code) (b : Byte) : codeAt t b = codeAt s b := by
  simp only [codeAt, h]

theorem nodeNo_congr {s t : State W} (h : t.node = s.node) (k : Nat) : nodeNo t k = nodeNo s k := by
  simp only [nodeNo, h]

/-- The tree invariant is about the tree alone. -/
theorem parents_congr {s t : State W} (h : SameTree s t) (k : Nat) : parents t k = parents s k := by
  obtain ⟨h1, -, h3, -⟩ := h
  have hc : ∀ j, isChild t j k = isChild s j k := fun j => by simp only [isChild, nodeNo_congr h1]
  simp only [parents, hc, h3]

theorem memWf_setFreq {s : State W} (b : Byte) (v : Cnt W) (h : MemWf s) : MemWf (setFreq b v s) :=
  ⟨Memory.wf_write _ _ _ _ _ h.1 b.isLt, h.2.1, h.2.2⟩

theorem memWf_setCode {s : State W} (b : Byte) (v : CodeEnt) (h : MemWf s) : MemWf (setCode b v s) :=
  ⟨h.1, h.2.1, Memory.wf_write _ _ _ _ _ h.2.2 b.isLt⟩

theorem memWf_setNode {s : State W} (i : Idx) (r : NodeRec W) (hi : i.toNat < Config.nnodeMax) (h : MemWf s) :
    MemWf (setNode i r s) :=
  ⟨h.1, Memory.wf_write _ _ _ _ _ h.2.1 hi, h.2.2⟩

theorem memWf_reset : MemWf (State.resetAt W) := ⟨Memory.wf_nil _ _, Memory.wf_nil _ _, Memory.wf_nil _ _⟩

end Sys2Proof.Machine
end

