-- ==== Sys2Proof/Laws/Units.lean ====
section
/-! SUPPORT. What each shared operation and each micro-step can do, said once: if it answers a next state, one of these cases
holds. -/

namespace Sys2Proof.Machine

variable {W : Nat}

/-- The commands at any `W_CNT` are, for this hardware, those of the dispatch (R6). -/
theorem execAt_eq_exec : execAt = exec := by
  funext i s; cases i <;> rfl

theorem fetchMove_nil {s : State W} (h : s.host = []) : fetchMove s = (none, s) := by simp [fetchMove, h]

theorem fetchMove_cons {s : State W} {m : HostMove} {rest : List HostMove} (h : s.host = m :: rest) :
    fetchMove s = (some m, { s with host := rest }) := by simp [fetchMove, h]

/-- A load is taken whole or refused (R46). -/
theorem loadIn_cases (seq : List Byte) (s : State W) :
    (seq.length ≤ Config.lenMax W ∧
        loadIn seq s = .next (emit (.answer .loaded) { s with input := seq, ilen := BitVec.ofNat _ seq.length })) ∨
      (Config.lenMax W < seq.length ∧ loadIn seq s = .refused .overlongLoad) := by
  unfold loadIn; split
  · rename_i h; exact .inl ⟨h, rfl⟩
  · rename_i h; exact .inr ⟨by omega, rfl⟩

/-- A load is taken whole or refused (R46). -/
theorem loadBits_cases (seq : Bits) (s : State W) :
    (seq.length ≤ Config.bitsMax W ∧
        loadBits seq s = .next (emit (.answer .loaded) { s with bits := seq, blen := BitVec.ofNat _ seq.length })) ∨
      (Config.bitsMax W < seq.length ∧ loadBits seq s = .refused .overlongLoad) := by
  unfold loadBits; split
  · rename_i h; exact .inl ⟨h, rfl⟩
  · rename_i h; exact .inr ⟨by omega, rfl⟩

theorem useNode_eq_some {s : State W} {i : Idx} {r : NodeRec W} :
    useNode s i = some r ↔ i < s.nnode ∧ nodeAt s i = r := by
  unfold useNode; split <;> simp_all

/-- Allocation writes one record at `NNODE` and goes on. -/
theorem allocNode_next {r : NodeRec W} {s t : State W} {k : State W → Result W} (h : allocNode r s k = .next t) :
    s.nnode.toNat < 511 ∧ k { setNode s.nnode r s with nnode := s.nnode + 1#9 } = .next t := by
  unfold allocNode at h
  split at h
  · rename_i hn; exact ⟨hn, h⟩
  · cases h

theorem countHead_cases {s t : State W} (h : countHead s = .next t) :
    (s.ipos < s.ilen ∧ t = s) ∨ (¬ s.ipos < s.ilen ∧ t = finishOk s) := by
  unfold countHead at h; split at h <;> cases h <;> simp_all

theorem countMicro_cases {s t : State W} (h : countMicro s = .next t) :
    ∃ b, inputByte s = some b ∧
      countHead { setFreq b (freqAt s b + 1#_) s with ipos := s.ipos + 1#_ } = .next t := by
  unfold countMicro at h; split at h
  · cases h
  · rename_i b hb; exact ⟨b, hb, h⟩

theorem encodeHead_cases {s t : State W} (h : encodeHead s = .next t) :
    (s.ipos < s.ilen ∧ t = s) ∨ (¬ s.ipos < s.ilen ∧ t = finishOk s) := by
  unfold encodeHead at h; split at h <;> cases h <;> simp_all

/-- A micro-step of ENCODE is a lookup that fails or succeeds, a beat inside a code, or the last beat of one. -/
theorem encodeMicro_cases {s t : State W} (h : encodeMicro s = .next t) :
    ∃ b, inputByte s = some b ∧
      ((s.beat = false ∧ (codeAt s b).len = 0#8 ∧ t = raise .encoding s) ∨
       (s.beat = false ∧ (codeAt s b).len ≠ 0#8 ∧ t = { s with cpos := 0#8, beat := true }) ∨
       (s.beat = true ∧ s.cpos.toNat + 1 < (codeAt s b).len.toNat ∧
          t = { appendBit ((codeAt s b).bits.getLsbD s.cpos.toNat) s with cpos := s.cpos + 1#8 }) ∨
       (s.beat = true ∧ ¬ s.cpos.toNat + 1 < (codeAt s b).len.toNat ∧
          encodeHead { appendBit ((codeAt s b).bits.getLsbD s.cpos.toNat) s with
            cpos := s.cpos + 1#8, ipos := s.ipos + 1#_, beat := false } = .next t)) := by
  unfold encodeMicro at h
  split at h
  · cases h
  · rename_i b hb
    refine ⟨b, hb, ?_⟩
    simp only at h
    split at h
    · rename_i hbeat
      split at h <;> cases h <;> simp_all
    · rename_i hbeat
      split at h
      · cases h; simp_all
      · simp_all

theorem decodeHead_cases {s t : State W} (h : decodeHead s = .next t) :
    (s.bpos < s.blen ∧ t = s) ∨ (¬ s.bpos < s.blen ∧ s.cur = s.root ∧ t = finishOk s) ∨
      (¬ s.bpos < s.blen ∧ s.cur ≠ s.root ∧ t = raise .decoding s) := by
  unfold decodeHead at h
  split at h
  · cases h; simp_all
  · split at h <;> cases h <;> simp_all

/-- A micro-step of DECODE copies the one symbol, reaches a leaf, or goes down one edge. -/
theorem decodeMicro_cases {s t : State W} (h : decodeMicro s = .next t) :
    ∃ b, inputBit s = some b ∧ s.root < s.nnode ∧
      (((nodeAt s s.root).right = nullIdx ∧ (nodeAt s s.root).left < s.nnode ∧
          decodeHead { appendSym (nodeAt s (nodeAt s s.root).left).sym s with bpos := s.bpos + 1#_ } = .next t) ∨
       ((nodeAt s s.root).right ≠ nullIdx ∧ s.cur < s.nnode ∧ (nodeAt s s.cur).child b < s.nnode ∧
          (((nodeAt s ((nodeAt s s.cur).child b)).kind = .leaf ∧
              decodeHead { appendSym (nodeAt s ((nodeAt s s.cur).child b)).sym s with
                cur := s.root, bpos := s.bpos + 1#_ } = .next t) ∨
           ((nodeAt s ((nodeAt s s.cur).child b)).kind = .internal ∧
              decodeHead { s with cur := (nodeAt s s.cur).child b, bpos := s.bpos + 1#_ } = .next t)))) := by
  unfold decodeMicro at h
  split at h
  · cases h
  · rename_i b hb
    refine ⟨b, hb, ?_⟩
    split at h
    · cases h
    · rename_i r hr
      obtain ⟨hlt, rfl⟩ := useNode_eq_some.mp hr
      refine ⟨hlt, ?_⟩
      split at h
      · rename_i hnull
        split at h
        · cases h
        · rename_i q hq
          obtain ⟨hq', rfl⟩ := useNode_eq_some.mp hq
          exact .inl ⟨hnull, hq', h⟩
      · rename_i hnull
        split at h
        · cases h
        · rename_i c hc
          obtain ⟨hc', rfl⟩ := useNode_eq_some.mp hc
          split at h
          · cases h
          · rename_i q hq
            obtain ⟨hq', rfl⟩ := useNode_eq_some.mp hq
            refine .inr ⟨hnull, hc', hq', ?_⟩
            split at h
            · rename_i hk; exact .inl ⟨hk, h⟩
            · rename_i hk; exact .inr ⟨hk, h⟩

theorem genHead_cases {s t : State W} (h : genHead s = .next t) :
    (s.stk = [] ∧ t = finishOk s) ∨ (s.stk ≠ [] ∧ t = s) := by
  unfold genHead at h; split at h <;> cases h <;> simp_all

/-- A micro-step of GEN pops the top of `STK`: a leaf's entry is written, or an internal node's children are pushed. -/
theorem genMicro_cases {s t : State W} (h : genMicro s = .next t) :
    (s.stk = [] ∧ t = finishOk s) ∨
      ∃ n p rest, s.stk = (n, p) :: rest ∧ p.length ≤ 255 ∧ n < s.nnode ∧
        (((nodeAt s n).kind = .leaf ∧
            genHead { setCode (nodeAt s n).sym (CodeEnt.ofPath p) s with stk := rest } = .next t) ∨
         ((nodeAt s n).kind = .internal ∧
            genHead { s with stk := genChildren (nodeAt s n) p ++ rest } = .next t)) := by
  unfold genMicro at h
  split at h
  · rename_i hs; cases h; exact .inl ⟨hs, rfl⟩
  · rename_i n p rest hs
    split at h
    · cases h
    · rename_i hlen
      split at h
      · cases h
      · rename_i r hr
        obtain ⟨hlt, rfl⟩ := useNode_eq_some.mp hr
        refine .inr ⟨n, p, rest, hs, by simpa using hlen, hlt, ?_⟩
        split at h
        · rename_i hk; exact .inl ⟨hk, h⟩
        · rename_i hk; exact .inr ⟨hk, h⟩

theorem scanNext_cases {s t : State W} (h : scanNext s = .next t) :
    (s.scan = 255#9 ∧ buildRoots { s with scan := 256#9 } = .next t) ∨
      (s.scan ≠ 255#9 ∧ t = { s with scan := s.scan + 1#9 }) := by
  unfold scanNext at h
  split at h
  · exact .inl ⟨‹_›, h⟩
  · cases h; exact .inr ⟨‹_›, rfl⟩

/-- The end of the scan, by the number of leaves. -/
theorem buildRoots_cases {s t : State W} (h : buildRoots s = .next t) :
    (s.nnode = 0#9 ∧ s.sLatch = true ∧ t = raise .emptyInput { s with nsym := 0#9, root := nullIdx }) ∨
    (s.nnode = 0#9 ∧ s.sLatch = false ∧ t = finishOk { s with nsym := 0#9, root := nullIdx }) ∨
    (s.nnode = 1#9 ∧ t = finishOk { setNode s.nnode (internalRec (nodeAt s 0#9).weight 0#9 nullIdx) s with
        nsym := 1#9, nnode := s.nnode + 1#9, root := 1#9 }) ∨
    (s.nnode ≠ 0#9 ∧ s.nnode ≠ 1#9 ∧ t = { s with
        nsym := s.nnode, pq := (List.range s.nnode.toNat).map (BitVec.ofNat 9), mleft := s.nnode - 1#9 }) := by
  unfold buildRoots at h
  split at h
  · split at h <;> cases h <;> simp_all
  · split at h
    · obtain ⟨_, h⟩ := allocNode_next h
      cases h
      exact .inr (.inr (.inl ⟨‹_›, rfl⟩))
    · cases h; exact .inr (.inr (.inr ⟨‹_›, ‹_›, rfl⟩))

/-- A scan step passes over an absent symbol or makes the leaf of a counted one. -/
theorem buildScan_cases {s t : State W} (h : buildScan s = .next t) :
    (freqAt s (s.scan.setWidth 8) = 0#_ ∧ scanNext s = .next t) ∨
    (freqAt s (s.scan.setWidth 8) ≠ 0#_ ∧ s.nnode.toNat < 511 ∧
      scanNext { setNode s.nnode (leafRec (s.scan.setWidth 8) (freqAt s (s.scan.setWidth 8))) s with
        nnode := s.nnode + 1#9 } = .next t) := by
  unfold buildScan at h
  simp only at h
  split at h
  · exact .inl ⟨‹_›, h⟩
  · exact .inr ⟨‹_›, allocNode_next h⟩

theorem mergeHead_cases {s t : State W} (h : mergeHead s = .next t) :
    (s.mleft = 0#9 ∧ t = finishOk { s with root := s.nnode - 1#9 }) ∨ (s.mleft ≠ 0#9 ∧ t = s) := by
  unfold mergeHead at h; split at h <;> cases h <;> simp_all

/-- A merge takes two nodes out of `PQ` and puts their parent in. -/
theorem buildMerge_cases {s t : State W} (h : buildMerge s = .next t) :
    ∃ a q b q', extractMin s.node s.pq = some (a, q) ∧ extractMin s.node q = some (b, q') ∧ s.nnode.toNat < 511 ∧
      mergeHead { setNode s.nnode (internalRec ((nodeAt s a).weight + (nodeAt s b).weight) a b) s with
        pq := pqInsert s.nnode q', mleft := s.mleft - 1#9, nnode := s.nnode + 1#9 } = .next t := by
  unfold buildMerge at h
  split at h
  · cases h
  · rename_i a q ha
    split at h
    · cases h
    · rename_i b q' hb
      obtain ⟨hn, h⟩ := allocNode_next h
      exact ⟨a, q, b, q', ha, hb, hn, h⟩

theorem buildMicro_cases {s t : State W} (h : buildMicro s = .next t) :
    (s.scan < 256#9 ∧ buildScan s = .next t) ∨ (¬ s.scan < 256#9 ∧ buildMerge s = .next t) := by
  unfold buildMicro at h
  split at h
  · exact .inl ⟨‹_›, h⟩
  · exact .inr ⟨‹_›, h⟩

end Sys2Proof.Machine
end

