-- ==== Sys2Proof/Tests/Slice0.lean ====
section
/-! SUPPORT. Tests with results taken from the spec's vectors (`95_test_vectors.md`) and worked examples, and one witness for the
hypotheses of each statement. -/

namespace Sys2Proof.Tests

open Sys2Proof Sys2Proof.Machine

/-- The outcome is a next state with this property. -/
def answers {W : Nat} (o : Result W) (p : State W → Bool) : Bool :=
  match o with
  | .next t => p t
  | _ => false

theorem exists_of_answers {W : Nat} {o : Result W} {p : State W → Bool} (h : answers o p = true) : ∃ t, o = .next t ∧ p t = true := by
  cases o with
  | next t => exact ⟨t, rfl, h⟩
  | fault r => cases h
  | refused r => cases h

/-! ### Small states -/

/-- `LOAD_IN` after reset. -/
def loaded (seq : List Byte) : State := { State.reset with input := seq, ilen := BitVec.ofNat _ seq.length }

/-- A block with this frequency table. -/
def counted (f : Memory Cnt) : State := { State.reset with freq := f }

/-- The tree of a:3, b:1 (95, section 2.3). -/
def tree2 : State :=
  { State.reset with
    node := [(0, ⟨.leaf, 0x61#8, 3#_, nullIdx, nullIdx⟩), (1, ⟨.leaf, 0x62#8, 1#_, nullIdx, nullIdx⟩),
      (2, ⟨.internal, 0#8, 4#_, 1#9, 0#9⟩)]
    nsym := 2#9, nnode := 3#9, root := 2#9 }

/-- The tree of a:4 (95, section 2.3). -/
def tree1 : State :=
  { State.reset with
    node := [(0, ⟨.leaf, 0x61#8, 4#_, nullIdx, nullIdx⟩), (1, ⟨.internal, 0#8, 4#_, 0#9, nullIdx⟩)]
    nsym := 1#9, nnode := 2#9, root := 1#9 }

/-- The tree of abracadabra (R88). -/
def treeA : State :=
  { State.reset with
    node := [(0, ⟨.leaf, 0x61#8, 5#_, nullIdx, nullIdx⟩), (1, ⟨.leaf, 0x62#8, 2#_, nullIdx, nullIdx⟩),
      (2, ⟨.leaf, 0x63#8, 1#_, nullIdx, nullIdx⟩), (3, ⟨.leaf, 0x64#8, 1#_, nullIdx, nullIdx⟩),
      (4, ⟨.leaf, 0x72#8, 2#_, nullIdx, nullIdx⟩), (5, ⟨.internal, 0#8, 2#_, 2#9, 3#9⟩),
      (6, ⟨.internal, 0#8, 4#_, 5#9, 1#9⟩), (7, ⟨.internal, 0#8, 6#_, 4#9, 6#9⟩),
      (8, ⟨.internal, 0#8, 11#_, 0#9, 7#9⟩)]
    nsym := 5#9, nnode := 9#9, root := 8#9 }

/-- The code table of abracadabra (95, section 2.4). -/
def codeA : Memory CodeEnt :=
  [(0x61, ⟨1#8, 0#_⟩), (0x62, ⟨3#8, 7#_⟩), (0x63, ⟨4#8, 3#_⟩), (0x64, ⟨4#8, 0xB#_⟩), (0x72, ⟨2#8, 1#_⟩)]

/-- `tree2` with its code table b:"0", a:"1". -/
def coded2 : State := { tree2 with code := [(0x61, ⟨1#8, 1#_⟩), (0x62, ⟨1#8, 0#_⟩)] }

/-- A block in the middle of COUNT. -/
def counting : State := { loaded [0x61#8] with phase := .count }

/-- A block in the middle of BUILD, before its only merge. -/
def merging : State := { tree2 with phase := .build, scan := 256#9, nnode := 2#9, mleft := 1#9, pq := [0#9, 1#9] }

/-- The symbols of a text. -/
def abracadabra : List Byte :=
  [0x61#8, 0x62#8, 0x72#8, 0x61#8, 0x63#8, 0x61#8, 0x64#8, 0x61#8, 0x62#8, 0x72#8, 0x61#8]

/-- A bit string written with 0 and 1. -/
def bitString (l : List Nat) : Bits := l.map (fun n => n == 1)

def bitsA : Bits := bitString [0,1,1,1,1,0,0,1,1,0,0,0,1,1,0,1,0,1,1,1,1,0,0]

/-- A block holding these bits. -/
def withBits (s : State) (b : Bits) : State := { s with bits := b, blen := BitVec.ofNat _ b.length }

/-! ### Well-formedness: an ill-formed term for each check -/

/-- R57: no operation has the selector 6. -/
theorem test_unassigned_op_refused : CmdFields.wf ⟨false, 6#3⟩ = false ∧ CmdFields.opAssigned ⟨false, 6#3⟩ = false := by decide

/-- R55: `S` = 1 only with `OP` = 2. -/
theorem test_strict_count_refused : CmdFields.wf ⟨true, 1#3⟩ = false ∧ CmdFields.strictAllowed ⟨true, 1#3⟩ = false := by decide

theorem test_strict_build_accepted : CmdFields.wf ⟨true, 2#3⟩ = true := by decide

/-! ### Decoding: words written out from R56 -/

theorem test_decode_nop : decode 0b0000#4 = .ok .nop := by decide
theorem test_decode_count : decode 0b0001#4 = .ok .count := by decide
theorem test_decode_build : decode 0b0010#4 = .ok .build := by decide
theorem test_decode_buildS : decode 0b1010#4 = .ok .buildS := by decide
theorem test_decode_gen : decode 0b0011#4 = .ok .gen := by decide
theorem test_decode_encode : decode 0b0100#4 = .ok .encode := by decide
theorem test_decode_decode : decode 0b0101#4 = .ok .decode := by decide
theorem test_decode_reserved : decode 0b1011#4 = .error (.reserved 0xB#4) := by decide
theorem test_encode_buildS : encode .buildS = 0xA#4 := by decide
theorem test_decodeTableWord : decodeTableWord 8 10 = some .buildS ∧ decodeTableWord 8 16 = none := by decide

/-! ### Formats -/

/-- R60's example: the leaf of 0x61 with weight 5. -/
theorem test_pack_leaf : (leafRec (W := 32) 0x61#8 5#_).pack = 0x2FFFFEC2#_ := by decide

/-- 95, section 2.3: `0x20040A01` is weight 4, left 5, right 1. -/
theorem test_pack_internal : (internalRec (W := 32) 4#_ 5#9 1#9).pack = 0x20040A01#_ := by decide

/-- R61's example: "1101" is 0xB04. -/
theorem test_code_entry : (CodeEnt.ofPath [true, true, false, true]).pack = 0xB04#_ := by decide +kernel

theorem test_code_string : CodeEnt.string ⟨4#8, 0xB#_⟩ = [true, true, false, true] := by decide

/-- R58's example: idle, done, `DECODING` is 0x0E. -/
theorem test_status_decoding : statusWord { State.reset with done := true, err := .decoding } = 0x0E#8 := by decide

/-- 95, section 2.7: while COUNT runs. -/
theorem test_status_counting : statusWord counting = 0x21#8 := by decide

/-! ### The ordering `before` (95, section 2.2) -/

theorem test_before_symbol : before tree2.node 1#9 0#9 = true := by decide

theorem test_before_internal_first :
    before (W := 32) [(3, ⟨.leaf, 0#8, 2#_, nullIdx, nullIdx⟩), (5, ⟨.internal, 0#8, 2#_, 1#9, 2#9⟩)] 5#9 3#9 = true := by decide

theorem test_before_earlier_internal :
    before (W := 32) [(299, ⟨.internal, 0#8, 4#_, 1#9, 2#9⟩), (300, ⟨.internal, 0#8, 4#_, 3#9, 4#9⟩)] 300#9 299#9 = false := by decide

/-! ### The commands -/

/-- R115: `STATUS` 0x0E becomes 0x02. -/
theorem test_nop : answers (exec .nop { State.reset with done := true, err := .decoding })
    (fun t => statusWord t == 0x02#8) = true := by decide

/-- 95, section 2.1: the bytes 00 FF 00 80 FF 00, with `FREQ` holding another value before. -/
theorem test_count : answers
    (exec .count { loaded [0x00#8, 0xFF#8, 0x00#8, 0x80#8, 0xFF#8, 0x00#8] with freq := [(0x41, 9#_)] })
    (fun t => t.freq == [(0x00, 3#_), (0x80, 1#_), (0xFF, 2#_)]) = true := by decide +kernel

/-- 95, P1: COUNT of abracadabra; and 95, section 2.1, at `W_CNT` = 3: `LEN_MAX` copies of 0x00 give the one count `2^W_CNT - 1`. -/
theorem test_count_abracadabra_and_longest :
    answers (exec .count (loaded abracadabra))
      (fun t => t.freq == [(0x61, 5#_), (0x62, 2#_), (0x63, 1#_), (0x64, 1#_), (0x72, 2#_)] && statusWord t == 0x02#8) =
      true ∧
    answers (execAt .count { State.resetAt 3 with input := List.replicate 7 0x00#8, ilen := 7#3 })
      (fun t => t.freq == [(0x00, 7#3)] && t.err == .ok) = true := by decide +kernel

/-- R88: the nine records and the root of abracadabra. -/
theorem test_build_abracadabra : answers
    (exec .build (counted [(0x61, 5#_), (0x62, 2#_), (0x63, 1#_), (0x64, 1#_), (0x72, 2#_)]))
    (fun t => t.node == treeA.node && t.root == 8#9 && t.nsym == 5#9 && t.nnode == 9#9) = true := by decide +kernel

/-- 95, section 2.3: with a:1 to d:1 and e:2 the third merge joins the two internal nodes of weight 2. -/
theorem test_build_ties : answers
    (exec .build (counted [(0x61, 1#_), (0x62, 1#_), (0x63, 1#_), (0x64, 1#_), (0x65, 2#_)]))
    (fun t => nodeNo t 7 == internalRec 4#_ 5#9 6#9 && nodeNo t 8 == internalRec 6#_ 4#9 7#9) = true := by decide +kernel

/-- R85's example: BUILD.S after reset gives `STATUS` 0x06 and `ROOT` 0x1FF. -/
theorem test_buildS_empty : answers (exec .buildS State.reset) (fun t => statusWord t == 0x06#8 && t.root == 0x1FF#9) =
    true := by decide +kernel

/-- 95, P2: BUILD.S of one symbol is no error. -/
theorem test_buildS_single : answers (exec .buildS (counted [(0x61, 4#_)]))
    (fun t => (nodeNo t 0).pack == 0x27FFFEC2#_ && (nodeNo t 1).pack == 0x27FC0001#_ && statusWord t == 0x02#8) =
    true := by decide +kernel

/-- R95: the code table of abracadabra. -/
theorem test_gen_abracadabra : answers (exec .gen treeA) (fun t => t.code == codeA) = true := by decide +kernel

/-- R92: the one-child root gives the code "0". -/
theorem test_gen_single : answers (exec .gen tree1) (fun t => t.code == [(0x61, ⟨1#8, 0#_⟩)]) = true := by decide +kernel

/-- R103: the encoding of abracadabra. -/
theorem test_encode_abracadabra : answers (exec .encode { loaded abracadabra with code := codeA })
    (fun t => t.bits == bitsA && t.blen == 23#_ && t.err == .ok) = true := by decide +kernel

/-- 95, P5: "abxa" has no code for x; nothing stays in `BITS`. -/
theorem test_encode_missing : answers
    (exec .encode { withBits (loaded [0x61#8, 0x62#8, 0x78#8, 0x61#8]) [true] with code := codeA })
    (fun t => t.bits == [] && t.blen == 0#_ && statusWord t == 0x0A#8) = true := by decide +kernel

/-- R113 (a), and (c): with one symbol a 1-bit is the symbol too. -/
theorem test_decode_ok :
    answers (exec .decode (withBits treeA bitsA))
      (fun t => t.out == abracadabra && t.olen == 11#_ && statusWord t == 0x02#8) = true ∧
    answers (exec .decode (withBits tree1 (bitString [0, 1, 1, 0])))
      (fun t => t.out == List.replicate 4 0x61#8 && t.err == .ok) = true := by decide +kernel

/-- R113 (b): 21 bits end off the root; R154: of "01" the beat of "0" stays, `OUT` does not. -/
theorem test_decode_failed :
    answers (exec .decode (withBits treeA (bitsA.take 21)))
      (fun t => t.out == [] && t.olen == 0#_ && statusWord t == 0x0E#8) = true ∧
    answers (exec .decode (withBits treeA [false, true]))
      (fun t => t.events == [.completed .decoding, .sym 0x61#8, .accepted 0x5#4] && t.out == []) = true := by decide +kernel

/-! ### Steps -/

/-- 95, P7: a reserved word after reset. -/
theorem test_step_reserved : answers (step (State.reset.withFetchWord 8 7)) (fun t => statusWord t == 0x12#8) = true := by
  decide

/-- The command placed by `withFetchWord` runs at the next step. -/
theorem test_step_runs_build : answers (step (State.reset.withFetchWord 8 2)) (fun t => statusWord t == 0x02#8) = true := by
  decide +kernel

/-- R45: `STATUS` can be read while COUNT runs, a table cannot. -/
theorem test_step_busy_reads :
    answers (step { counting with host := [.access (.rdReg 1#3)] }) (fun t => t.events == [.answer (.reg 0x21#_)]) = true ∧
    answers (step { counting with host := [.access (.rdFreq 0#8)] }) (fun t => t.events == [.answer .notAccepted]) = true := by
  decide

/-- R46: `LOAD_BITS` sets the sequence and its length. -/
theorem test_step_load_bits : answers (step { State.reset with host := [.access (.loadBits [false])] })
    (fun t => t.bits == [false] && t.blen == 1#_ && t.done == false) = true := by decide

/-- R46 at `W_CNT` = 3: a load of `LEN_MAX` + 1 bytes is refused, one of `LEN_MAX` is taken. -/
theorem test_step_load_too_long :
    stepAt 3 { State.resetAt 3 with host := [.access (.loadIn (List.replicate 8 0x61#8))] } = .refused .overlongLoad ∧
    answers (stepAt 3 { State.resetAt 3 with host := [.access (.loadIn (List.replicate 7 0x61#8))] })
      (fun t => t.ilen == 7#3) = true := ⟨rfl, by decide⟩

/-- R146: reset in the middle of COUNT. -/
theorem test_step_reset : answers (step { counting with host := [.rst] }) (fun t => statusWord t == 0x00#8 && t.input == []) =
    true := by decide

/-! ### Witnesses: a state that meets the hypotheses of each statement -/

theorem leaves_tree2 (s : State) (h : s.node = tree2.node) : LeavesOk s 2 256 := by
  have hn : ∀ i, nodeNo s i = nodeNo tree2 i := fun i => by simp only [nodeNo, h]
  refine ⟨fun i hi => ?_, fun i hi => ?_, fun i hi => ?_, fun i j hij hj => ?_⟩
  · rw [hn]; interval_cases i <;> decide
  · rw [hn]; interval_cases i <;> decide
  · rw [hn]; interval_cases i <;> decide
  · rw [hn, hn]
    have : i = 0 ∧ j = 1 := by omega
    obtain ⟨rfl, rfl⟩ := this
    decide

theorem internals_tree2 (s : State) (h : s.node = tree2.node) : InternalsOk s 2 3 := by
  intro i h1 h2
  obtain rfl : i = 2 := by omega
  simp only [nodeNo, nodeAt, h]
  decide

theorem treeInv_tree2 : TreeInv tree2 where
  regs := .inr (.inr (by decide))
  leaves := leaves_tree2 tree2 rfl
  internals := fun _ => internals_tree2 tree2 rfl
  owned := by decide
  single := by decide

theorem treeInv_coded2 : TreeInv coded2 where
  regs := .inr (.inr (by decide))
  leaves := leaves_tree2 coded2 rfl
  internals := fun _ => internals_tree2 coded2 rfl
  owned := by decide
  single := by decide

theorem treeInv_tree1 : TreeInv tree1 where
  regs := .inr (.inl (by decide))
  leaves :=
    ⟨by decide, by decide, by decide, fun i j hij (hj : j < 1) => by omega⟩
  internals := fun h => absurd h (by decide)
  owned := by decide
  single := by decide

theorem treeInv_reset : TreeInv State.reset where
  regs := .inl (by decide)
  leaves := ⟨by decide, by decide, by decide, fun i j _ (hj : j < 0) => by omega⟩
  internals := fun h => absurd h (by decide)
  owned := by decide
  single := by decide

theorem mergeInv_merging : MergeInv merging where
  scanned := rfl
  two := by decide
  most := by decide
  left := by decide
  count := by decide
  leaves := leaves_tree2 merging rfl
  internals := fun i h1 (h2 : i < 2) => absurd (show 2 ≤ i from h1) (by omega)
  queueRising := by decide
  queueInUse := by decide
  queueSize := by decide
  owned := by decide

theorem codesOfTree_coded2 : CodesOfTree coded2 where
  leaf := by
    intro i hi
    have : i = 0#9 ∨ i = 1#9 := by
      have h : i.toNat < 2 := hi
      rcases (show i.toNat = 0 ∨ i.toNat = 1 by omega) with h | h
      · exact .inl (BitVec.eq_of_toNat_eq h)
      · exact .inr (BitVec.eq_of_toNat_eq h)
    rcases this with rfl | rfl
    · exact ⟨[true], by decide, by decide, by decide, by decide⟩
    · exact ⟨[false], by decide, by decide, by decide, by decide⟩
  absent := by
    intro b h
    have h0 := h 0#9 (by decide)
    have h1 := h 1#9 (by decide)
    have e0 : (nodeAt coded2 0#9).sym = 0x61#8 := by decide
    have e1 : (nodeAt coded2 1#9).sym = 0x62#8 := by decide
    rw [e0] at h0
    rw [e1] at h1
    have n0 : b.toNat ≠ 0x61 := fun hb => h0 (BitVec.eq_of_toNat_eq hb.symm)
    have n1 : b.toNat ≠ 0x62 := fun hb => h1 (BitVec.eq_of_toNat_eq hb.symm)
    simp [codeAt, coded2, Memory.read, n0, n1]

/-- ResetWinsOverAnyOperation. -/
theorem witness_reset_move : ({ counting with host := [.rst] } : State).host = .rst :: [] := rfl

/-- EntryOfPathAssemblesThePath, at the longest path. -/
theorem witness_longest_path : (List.replicate 255 true).length ≤ 255 ∧ ([] : Bits).length ≤ 255 :=
  ⟨List.length_replicate.le, Nat.zero_le _⟩

/-- CommandLineStepRunsItsCommand. -/
theorem witness_command_line :
    ({ State.reset with host := [.line 0x1#4] } : State).host = .line 0x1#4 :: [] ∧ decode 0x1#4 = .ok .count ∧
      decodeTableWord 8 5 = some .decode := by decide

/-- PseudoOperationsStopAtTheFirstError: after an error and after none. -/
theorem witness_pseudo :
    ({ State.reset with err := .encoding, host := [.lineIfOk 0x5#4] } : State).host = .lineIfOk 0x5#4 :: [] ∧
    ({ State.reset with err := .encoding } : State).err ≠ .ok ∧ State.reset.err = .ok := by decide

/-- NopOnlyClearsTheStatus, StrictBuildDiffersOnlyOnTheEmptyTable, BuildCompletesWithATree: an idle block. -/
theorem witness_idle : State.reset.phase = .idle ∧ tree2.phase = .idle := by decide

/-- ReservedWordOnlyReports, by both moves, at the first and last reserved word. -/
theorem witness_reserved :
    0x6#4 ∈ [0x6#4, 0x7#4, 0x8#4, 0x9#4, 0xB#4, 0xC#4, 0xD#4, 0xE#4, 0xF#4] ∧ 0xF#4 ∈ [0x6#4, 0x7#4, 0x8#4, 0x9#4, 0xB#4, 0xC#4, 0xD#4, 0xE#4, 0xF#4] ∧
    ({ State.reset with host := [.line 0x6#4] } : State).host = .line 0x6#4 :: [] ∧
    ({ State.reset with host := [.access (.wrReg 0#3 0xF#4)] } : State).host = .access (.wrReg 0#3 0xF#4) :: [] ∧
    ({ State.reset with host := [.access (.wrReg 0#3 0xF#4)] } : State).phase = .idle := by decide

/-- CommandWhileBusyIsIgnored: a running block with each of the two moves. -/
theorem witness_busy :
    counting.phase ≠ .idle ∧ ({ counting with host := [.line 0x2#4] } : State).host = .line 0x2#4 :: [] ∧
    ({ counting with host := [.access (.wrReg 0#3 0x2#4)] } : State).host = .access (.wrReg 0#3 0x2#4) :: [] := by decide

/-- AcceptanceLatchesTheCommand: COUNT, GEN and DECODE that are then running, and that have completed at once. -/
theorem witness_acceptance :
    (decode 0x1#4 = .ok .count ∧ (∃ t, acceptWord 0x1#4 (loaded [0x61#8]) = .next t) ∧
      (∃ t, acceptWord 0x1#4 State.reset = .next t) ∧ (loaded [0x61#8]).phase = .idle ∧
      ¬ completesAtOnce .count (loaded [0x61#8]) ∧ completesAtOnce .count State.reset) ∧
    ((∃ t, acceptWord 0x3#4 tree2 = .next t) ∧ ¬ completesAtOnce .gen tree2 ∧ completesAtOnce .gen State.reset) ∧
    ((∃ t, acceptWord 0x5#4 (withBits tree2 [true]) = .next t) ∧ ¬ completesAtOnce .decode (withBits tree2 [true]) ∧
      completesAtOnce .decode tree2) :=
  ⟨⟨by decide, ⟨_, rfl⟩, ⟨_, rfl⟩, rfl, by simp only [completesAtOnce]; decide, rfl⟩,
    ⟨⟨_, rfl⟩, by simp only [completesAtOnce]; decide, rfl⟩,
    ⟨⟨_, rfl⟩, by simp only [completesAtOnce]; decide, .inr rfl⟩⟩

/-- CommandLineIsItsMicroSteps, its clauses about the step: each move, in a running and in an idle block. -/
theorem witness_micro_step_moves :
    ({ State.reset with host := [.access (.wrReg 0#3 0x1#4)] } : State).host = .access (.wrReg 0#3 0x1#4) :: [] ∧
    ({ counting with host := [.wait] } : State).host = .wait :: [] ∧ counting.host = [] ∧
    ({ State.reset with host := [.wait] } : State).host = .wait :: [] ∧ State.reset.host = [] ∧
    State.reset.phase = .idle ∧ decode 0x1#4 = .ok .count := by decide

/-- RaiseEmptiesOutputAndReports: a phase for each clause. -/
theorem witness_raise_phases :
    ({ State.reset with phase := .encode } : State).phase = .encode ∧
    ({ State.reset with phase := .decode } : State).phase = .decode ∧
    ({ State.reset with phase := .build } : State).phase ≠ .encode := by decide

/-- CommandLineIsItsMicroSteps, TakenCommandsComplete, EachCommandWritesItsOwnSpaces, EachErrorHasOneSource: commands that answer,
among them one for each error. -/
theorem witness_commands_answer :
    (∃ t, exec .count (loaded [0x61#8]) = .next t ∧ decide (t.err = .ok) = true) ∧
    (∃ t, exec .buildS State.reset = .next t ∧ decide (t.err = .emptyInput) = true) ∧
    (∃ t, exec .encode (loaded [0x61#8]) = .next t ∧ decide (t.err = .encoding) = true) ∧
    (∃ t, exec .decode (withBits State.reset [true]) = .next t ∧ decide (t.err = .decoding) = true) :=
  ⟨exists_of_answers (by decide), exists_of_answers (by decide +kernel), exists_of_answers (by decide),
    exists_of_answers (by decide)⟩

/-- StatusWordShowsItsFields: the control invariant in a running block, and the example's state. -/
theorem witness_status :
    ControlInv counting ∧
    ({ State.reset with done := true, err := .decoding } : State).phase = .idle :=
  ⟨⟨fun _ => rfl, fun _ => rfl, fun _ => rfl, fun _ => rfl⟩, rfl⟩

/-- HostRegistersReadAsListed, LoadsReplaceSequenceAndLength, BusyBlockAdmitsOnlyStatus: the moves they are about. -/
theorem witness_register_moves :
    ({ State.reset with host := [.access (.rdReg 7#3)] } : State).host = .access (.rdReg 7#3) :: [] ∧
    ({ State.reset with host := [.access (.rdReg 0#3)] } : State).host = .access (.rdReg 0#3) :: [] ∧
    ({ State.reset with host := [.access (.wrReg 1#3 2#4)] } : State).host = .access (.wrReg 1#3 2#4) :: [] ∧
    (1#3 : BitVec 3) ≠ 0#3 ∧ counting.phase ≠ .idle ∧
    ({ counting with host := [.access (.rdReg 1#3)] } : State).host = .access (.rdReg 1#3) :: [] ∧
    ({ counting with host := [.access (.rdNode 0#9)] } : State).host = .access (.rdNode 0#9) :: [] := by decide

/-- LoadsReplaceSequenceAndLength: the longest admitted sequences and the shortest that are not. -/
theorem witness_load_bounds :
    (List.replicate Config.lenMax 0x61#8).length ≤ Config.lenMax ∧
    Config.lenMax < (List.replicate (Config.lenMax + 1) 0x61#8).length ∧
    (List.replicate Config.bitsMax true).length ≤ Config.bitsMax ∧
    Config.bitsMax < (List.replicate (Config.bitsMax + 1) true).length := by
  simp only [List.length_replicate]; omega

/-- HostReadsReturnTheirEntries: a record in use, the first one that is not, and positions inside and at the end. -/
theorem witness_host_reads :
    (2#9 : Idx) < tree2.nnode ∧ tree2.nnode ≤ 3#9 ∧ (3#9 : Idx) ≠ nullIdx ∧ tree2.phase = .idle ∧
    (withBits tree2 [true]).bits[0]? = some true ∧ (withBits tree2 [true]).bits.length ≤ 1 ∧
    (loaded [0x61#8]).input[0]? = some 0x61#8 ∧ (loaded [0x61#8]).input.length ≤ 1 ∧
    ({ State.reset with out := [0x61#8] } : State).out[0]? = some 0x61#8 := by decide

/-- CountComputesTheHistogram, CountsSumToTheLengthWithoutOverflow, CountMicroStepsKeepTheirInvariant: a loaded block, `k` below and
at `ILEN`, and the empty input. -/
theorem witness_count :
    (loaded [0x61#8]).phase = .idle ∧ (loaded [0x61#8]).input.length = (loaded [0x61#8]).ilen.toNat ∧
    0 < (loaded [0x61#8]).ilen.toNat ∧ 1 ≤ (loaded [0x61#8]).ilen.toNat ∧ State.reset.ilen = 0#_ := by decide

theorem witness_count_answers : ∃ t, execAt .count (loaded [0x61#8]) = .next t ∧ decide (t.err = .ok) = true :=
  exists_of_answers (by decide)

/-- The last clause of CountsSumToTheLengthWithoutOverflow: the longest input, of one byte, at `W_CNT` = 1 and 32. -/
theorem witness_count_longest :
    (∃ t, execAt .count { State.resetAt 1 with input := List.replicate (Config.lenMax 1) 0x61#8, ilen := 1#1 } = .next t ∧
      decide (t.err = .ok) = true) ∧
    (loaded (List.replicate Config.lenMax 0x61#8)).phase = .idle ∧
    (loaded (List.replicate Config.lenMax 0x61#8)).input.length =
      (loaded (List.replicate Config.lenMax 0x61#8)).ilen.toNat ∧
    (loaded (List.replicate Config.lenMax 0x61#8)).input = List.replicate Config.lenMax 0x61#8 := by
  refine ⟨exists_of_answers (by decide), rfl, ?_, rfl⟩
  simp only [loaded, List.length_replicate, BitVec.toNat_ofNat]
  norm_num [Config.lenMax, Config.wCnt]

/-- BuildOfEmptyTableIsTheNullTree and the second clause of StrictBuildDiffersOnlyOnTheEmptyTable. -/
theorem witness_empty_table : State.reset.phase = .idle ∧ ∀ b, freqAt State.reset b = 0#_ := ⟨rfl, fun _ => rfl⟩

/-- BuildOfOneSymbolSynthesizesARoot. -/
theorem witness_one_symbol :
    (counted [(0x61, 4#_)]).phase = .idle ∧ freqAt (counted [(0x61, 4#_)]) 0x61#8 ≠ 0#_ ∧
    ∀ c, c ≠ 0x61#8 → freqAt (counted [(0x61, 4#_)]) c = 0#_ := by
  refine ⟨rfl, by decide, fun c hc => ?_⟩
  have : c.toNat ≠ 0x61 := fun h => hc (BitVec.eq_of_toNat_eq h)
  simp [freqAt, counted, Memory.read, this]

/-- RootWeighsTheWholeTable at `W_CNT` = 2, with counts that sum to `LEN_MAX`. -/
theorem witness_root_weight :
    (∃ t, execAt .build { State.resetAt 2 with freq := [(0x61, 2#2), (0x62, 1#2)] } = .next t ∧
      decide (t.nsym = 2#9) = true) ∧
    freqSum ({ State.resetAt 2 with freq := [(0x61, 2#2), (0x62, 1#2)] } : State 2) ≤ Config.lenMax 2 ∧
    freqAt ({ State.resetAt 2 with freq := [(0x61, 2#2), (0x62, 1#2)] } : State 2) 0x61#8 ≠ 0#_ :=
  ⟨exists_of_answers (by decide +kernel), by decide +kernel, by decide⟩

/-- BuildMakesALeafPerSymbolInOrder, RootWeighsTheWholeTable, the first clause of StrictBuildDiffersOnlyOnTheEmptyTable. -/
theorem witness_build_answers :
    (∃ t, exec .build (counted [(0x61, 3#_), (0x62, 1#_)]) = .next t ∧ decide (t.nsym = 2#9) = true) ∧
    (∃ t, exec .buildS (counted [(0x61, 3#_), (0x62, 1#_)]) = .next t ∧ decide (t.nsym = 2#9) = true) ∧
    freqSum (counted [(0x61, 3#_), (0x62, 1#_)]) ≤ Config.lenMax ∧ freqAt (counted [(0x61, 3#_), (0x62, 1#_)]) 0x61#8 ≠ 0#_ :=
  ⟨exists_of_answers (by decide +kernel), exists_of_answers (by decide +kernel), by decide +kernel, by decide⟩

/-- BeforeIsTheKeyOrder. -/
theorem witness_before :
    LeavesOk tree2 2 256 ∧ InternalsOk tree2 2 3 ∧ (0#9 : Idx).toNat < 3 ∧ (1#9 : Idx).toNat < 3 ∧ (2#9 : Idx).toNat < 3 ∧
    (0#9 : Idx) ≠ 1#9 :=
  ⟨leaves_tree2 tree2 rfl, internals_tree2 tree2 rfl, by decide, by decide, by decide, by decide⟩

/-- MergeJoinsTheTwoLeastNodes. -/
theorem witness_merge : merging.phase = .build ∧ MergeInv merging := ⟨rfl, mergeInv_merging⟩

/-- TreeDependsOnlyOnTheTable: two idle blocks with one table and different trees. -/
theorem witness_same_table :
    (counted [(0x61, 4#_)]).phase = .idle ∧ ({ tree2 with freq := [(0x61, 4#_)] } : State).phase = .idle ∧
    ∀ b, freqAt (counted [(0x61, 4#_)]) b = freqAt { tree2 with freq := [(0x61, 4#_)] } b :=
  ⟨rfl, rfl, fun _ => rfl⟩

/-- GenOfDegenerateTrees, GenRecordsEveryLeafsPath, WalksToANodeAreUnique, DecodeWithTheNullTree, and the other statements under
the tree invariant: a tree of each kind. -/
theorem witness_trees :
    (State.reset.root = nullIdx ∧ TreeInv State.reset) ∧ (tree1.nsym = 1#9 ∧ TreeInv tree1) ∧
    (2 ≤ tree2.nsym.toNat ∧ TreeInv tree2) ∧ tree1.phase = .idle ∧ walk tree2 tree2.root [true] = some 0#9 :=
  ⟨⟨rfl, treeInv_reset⟩, ⟨rfl, treeInv_tree1⟩, ⟨by decide, treeInv_tree2⟩, rfl, by decide⟩

/-- GenCodesArePrefixFree, CodeLengthsAreBounded, GenCodeIsComplete: GEN answers on a tree of each kind, with entries of two
symbols. -/
theorem witness_gen_answers :
    (∃ t, exec .gen State.reset = .next t ∧ decide (t.err = .ok) = true) ∧
    (∃ t, exec .gen tree1 = .next t ∧ decide ((codeAt t 0x61#8).len ≠ 0#8) = true) ∧
    (∃ t, exec .gen tree2 = .next t ∧
      (decide ((codeAt t 0x61#8).len ≠ 0#8) && decide ((codeAt t 0x62#8).len ≠ 0#8)) = true) :=
  ⟨exists_of_answers (by decide), exists_of_answers (by decide +kernel), exists_of_answers (by decide +kernel)⟩

/-- GenRefusesALeafRoot. -/
theorem witness_leaf_root :
    ({ tree2 with root := 0#9 } : State).root ≠ nullIdx ∧ ({ tree2 with root := 0#9 } : State).root < tree2.nnode ∧
    (nodeAt { tree2 with root := 0#9 } 0#9).kind = .leaf := by decide

/-- EncodeConcatenatesTheCodes, EncoderBeatsAreTheCodes, EncodedLengthIsBounded: an input with all entries, and one without. -/
theorem witness_encode :
    (∀ b ∈ ({ coded2 with input := [0x61#8], ilen := 1#_ } : State).input, (codeAt coded2 b).len ≠ 0#8) ∧
    (∃ b ∈ ({ coded2 with input := [0x63#8], ilen := 1#_ } : State).input, (codeAt coded2 b).len = 0#8) ∧
    ({ coded2 with input := [0x61#8], ilen := 1#_ } : State).input.length = (1#Config.wCnt).toNat ∧
    (∃ t, exec .encode { coded2 with input := [0x61#8], ilen := 1#_ } = .next t ∧ decide (t.err = .ok) = true) :=
  ⟨by decide, by decide, by decide, exists_of_answers (by decide +kernel)⟩

/-- The last clause of EncodeConcatenatesTheCodes. -/
theorem witness_encode_nothing : coded2.phase = .idle ∧ coded2.ilen = 0#_ := by decide

/-- EncodeDependsOnInputAndCodeAlone: two blocks with different trees. -/
theorem witness_encode_depends :
    coded2.input = ({ coded2 with root := nullIdx } : State).input ∧
    (∀ b, codeAt coded2 b = codeAt { coded2 with root := nullIdx } b) ∧
    ∃ t, exec .encode coded2 = .next t ∧ decide (t.err = .ok) = true :=
  ⟨rfl, fun _ => rfl, exists_of_answers (by decide)⟩

/-- DecodeWithOneSymbolCopiesIt, DecodeWalksTheTree, DecodingErrorHasTwoCauses, DecoderEmitsAtMostOneSymbolPerBit: streams that end
on the root and off it, and the null tree with and without bits. -/
theorem witness_decode :
    (withBits tree1 [true]).bits.length = (withBits tree1 [true]).blen.toNat ∧
    (decodeWalk (withBits treeA [false]) 8#9 [false]).2 = 8#9 ∧ (decodeWalk (withBits treeA [true]) 8#9 [true]).2 ≠ 8#9 ∧
    (withBits State.reset [true]).blen ≠ 0#_ ∧ State.reset.blen = 0#_ ∧
    (∃ t, exec .decode (withBits treeA [false]) = .next t ∧ decide (t.err = .ok) = true) ∧
    (∃ t, exec .decode (withBits treeA [true]) = .next t ∧ decide (t.err = .decoding) = true) :=
  ⟨by decide, by decide, by decide, by decide, by decide, exists_of_answers (by decide +kernel),
    exists_of_answers (by decide +kernel)⟩

/-- DecodeDependsOnBitsAndTreeAlone: two blocks with different code tables. -/
theorem witness_decode_depends :
    tree2.bits = coded2.bits ∧ tree2.root = coded2.root ∧ tree2.nnode = coded2.nnode ∧
    (∀ k, k < tree2.nnode.toNat → nodeNo tree2 k = nodeNo coded2 k) ∧
    ∃ t, exec .decode tree2 = .next t ∧ decide (t.err = .ok) = true :=
  ⟨rfl, rfl, rfl, fun _ _ => rfl, exists_of_answers (by decide)⟩

/-- `coded2` with an input of both its symbols. -/
def coded2ab : State := { coded2 with input := [0x61#8, 0x62#8, 0x61#8], ilen := 3#_ }

theorem treeInv_coded2ab : TreeInv coded2ab :=
  ⟨treeInv_coded2.regs, ⟨treeInv_coded2.leaves.isLeaf, treeInv_coded2.leaves.weight, treeInv_coded2.leaves.below,
    treeInv_coded2.leaves.rising⟩, treeInv_coded2.internals, treeInv_coded2.owned, treeInv_coded2.single⟩

theorem walk_coded2ab (p : Bits) : ∀ n, walk coded2ab n p = walk coded2 n p := by
  induction p with
  | nil => exact fun _ => rfl
  | cons b p ih =>
    intro n
    simp only [walk, ih]
    rfl

theorem codesOfTree_coded2ab : CodesOfTree coded2ab where
  leaf := fun i hi => by
    obtain ⟨p, h1, h2, h3, h4⟩ := codesOfTree_coded2.leaf i hi
    exact ⟨p, h1, h2, (walk_coded2ab p _).trans h3, h4⟩
  absent := codesOfTree_coded2.absent

/-- DecodeInvertsEncode, with an input of both symbols. -/
theorem witness_inverse :
    TreeInv coded2ab ∧ CodesOfTree coded2ab ∧ coded2ab.phase = .idle ∧ coded2ab.input.length = coded2ab.ilen.toNat ∧
    coded2ab.input ≠ [] ∧ ∀ b ∈ coded2ab.input, (codeAt coded2ab b).len ≠ 0#8 :=
  ⟨treeInv_coded2ab, codesOfTree_coded2ab, rfl, rfl, by decide, by decide⟩

/-- RoundTripRestoresTheInput: an input for BUILD.S too. -/
theorem witness_round_trip :
    (loaded [0x61#8]).phase = .idle ∧ (loaded [0x61#8]).input.length = (loaded [0x61#8]).ilen.toNat ∧
    (loaded [0x61#8]).input ≠ [] := by decide

/-- The statements about every step: a block that meets each invariant in the middle of an operation, and steps. -/
theorem witness_step_invariants :
    MemWf tree2 ∧ LenInv counting ∧ ControlInv counting ∧ CountInv counting ∧ CodeBitsInv counting ∧
    TreeStepInv merging ∧ (∃ t, step counting = .next t) ∧ (∃ t, step merging = .next t) :=
  ⟨⟨rfl, by decide, rfl⟩, ⟨⟨rfl, rfl, rfl⟩, nofun, nofun, nofun, nofun, nofun⟩,
    ⟨fun _ => rfl, fun _ => rfl, fun _ => rfl, fun _ => rfl⟩, ⟨by decide +kernel, fun _ => by decide, fun _ => by decide +kernel⟩,
    fun _ j _ => by simp [codeAt, counting, loaded, State.reset, State.resetAt],
    ⟨fun h => absurd rfl h, fun _ h => absurd h (by decide), fun _ _ => mergeInv_merging⟩, ⟨_, rfl⟩, ⟨_, rfl⟩⟩

end Sys2Proof.Tests
end

/-! PROOFS of the family `00_scope.md`: a command line runs its command (R121), and it computes what acceptance followed by
micro-steps computes (R10, R114). -/

section

namespace Sys2Proof.Machine

variable {W : Nat}

/-! ### What one step does, by the host's next move -/

/-- With no move left the step is one micro-step (R120). -/
theorem step_of_no_move {s : State} (h : s.host = []) : step s = microStep s := by
  simp only [step, stepWith, fetchMove_nil h]

/-- While the host stands still the step is one micro-step (R120). -/
theorem step_wait {s : State} {rest : List HostMove} (h : s.host = .wait :: rest) :
    step s = microStep { s with host := rest } := by
  simp only [step, stepWith, fetchMove_cons h]

theorem step_access {s : State} {a : Access} {rest : List HostMove} (h : s.host = .access a :: rest) :
    step s = hostAccess a { s with host := rest } := by
  simp only [step, stepWith, fetchMove_cons h]

theorem step_line {s : State} {w : Cmd} {rest : List HostMove} (h : s.host = .line w :: rest) :
    step s = runLine exec w { s with host := rest } := by
  simp only [step, stepWith, fetchMove_cons h]

/-- A plain write to `CMD` in an idle block is acceptance (R114). -/
theorem hostAccess_wrCmd_idle {s : State W} (w : Cmd) (h : s.phase = .idle) :
    hostAccess (.wrReg 0#3 w) s = acceptWord w s := by
  simp [hostAccess, idleAccess, h]

theorem microStep_idle {s : State W} (h : s.phase = .idle) : microStep s = .next s := by
  simp only [microStep, h]

theorem runLine_of_decode (run : Instr → State W → Result W) {w : Cmd} {i : Instr} (s : State W) (h : decode w = .ok i) :
    runLine run w s = run i s := by
  simp only [runLine, h]

/-! ### The decoder -/

theorem decode_encode (i : Instr) : decode (encode i) = .ok i := by
  cases i <;> decide

/-- A table word that names a command decodes to it. -/
theorem decode_of_decodeTableWord {n w : Nat} {i : Instr} (h : decodeTableWord n w = some i) :
    decode (BitVec.ofNat 4 w) = .ok i := by
  unfold decodeTableWord at h
  split at h
  · split at h
    · rename_i hd; cases h; exact hd
    · cases h
  · cases h

/-! ### The phase of a running unit -/

/-- The unit of phase `p` is still running in `t`, or has completed. -/
def RunsOrIdle (p : Phase) (t : State W) : Prop := t.phase = p ∨ t.phase = .idle

theorem countHead_phase {s t : State W} {p : Phase} (h : countHead s = .next t) (hp : s.phase = p) : RunsOrIdle p t := by
  obtain ⟨-, rfl⟩ | ⟨-, rfl⟩ := countHead_cases h
  · exact .inl hp
  · exact .inr rfl

theorem encodeHead_phase {s t : State W} {p : Phase} (h : encodeHead s = .next t) (hp : s.phase = p) : RunsOrIdle p t := by
  obtain ⟨-, rfl⟩ | ⟨-, rfl⟩ := encodeHead_cases h
  · exact .inl hp
  · exact .inr rfl

theorem decodeHead_phase {s t : State W} {p : Phase} (h : decodeHead s = .next t) (hp : s.phase = p) : RunsOrIdle p t := by
  obtain ⟨-, rfl⟩ | ⟨-, -, rfl⟩ | ⟨-, -, rfl⟩ := decodeHead_cases h
  · exact .inl hp
  · exact .inr rfl
  · exact .inr rfl

theorem genHead_phase {s t : State W} {p : Phase} (h : genHead s = .next t) (hp : s.phase = p) : RunsOrIdle p t := by
  obtain ⟨-, rfl⟩ | ⟨-, rfl⟩ := genHead_cases h
  · exact .inr rfl
  · exact .inl hp

theorem mergeHead_phase {s t : State W} {p : Phase} (h : mergeHead s = .next t) (hp : s.phase = p) : RunsOrIdle p t := by
  obtain ⟨-, rfl⟩ | ⟨-, rfl⟩ := mergeHead_cases h
  · exact .inr rfl
  · exact .inl hp

theorem buildRoots_phase {s t : State W} {p : Phase} (h : buildRoots s = .next t) (hp : s.phase = p) : RunsOrIdle p t := by
  obtain ⟨-, -, rfl⟩ | ⟨-, -, rfl⟩ | ⟨-, rfl⟩ | ⟨-, -, rfl⟩ := buildRoots_cases h
  · exact .inr rfl
  · exact .inr rfl
  · exact .inr rfl
  · exact .inl hp

theorem scanNext_phase {s t : State W} {p : Phase} (h : scanNext s = .next t) (hp : s.phase = p) : RunsOrIdle p t := by
  obtain ⟨-, h⟩ | ⟨-, rfl⟩ := scanNext_cases h
  · exact buildRoots_phase h hp
  · exact .inl hp

theorem countMicro_phase {s t : State W} (h : countMicro s = .next t) : RunsOrIdle s.phase t := by
  obtain ⟨b, -, h⟩ := countMicro_cases h
  exact countHead_phase h rfl

theorem buildMicro_phase {s t : State W} (h : buildMicro s = .next t) : RunsOrIdle s.phase t := by
  obtain ⟨-, h⟩ | ⟨-, h⟩ := buildMicro_cases h
  · obtain ⟨-, h⟩ | ⟨-, -, h⟩ := buildScan_cases h
    · exact scanNext_phase h rfl
    · exact scanNext_phase h rfl
  · obtain ⟨a, q, b, q', -, -, -, h⟩ := buildMerge_cases h
    exact mergeHead_phase h rfl

theorem genMicro_phase {s t : State W} (h : genMicro s = .next t) : RunsOrIdle s.phase t := by
  obtain ⟨-, rfl⟩ | ⟨n, p, rest, -, -, -, ⟨-, h⟩ | ⟨-, h⟩⟩ := genMicro_cases h
  · exact .inr rfl
  · exact genHead_phase h rfl
  · exact genHead_phase h rfl

theorem encodeMicro_phase {s t : State W} (h : encodeMicro s = .next t) : RunsOrIdle s.phase t := by
  obtain ⟨b, -, ⟨-, -, rfl⟩ | ⟨-, -, rfl⟩ | ⟨-, -, rfl⟩ | ⟨-, -, h⟩⟩ := encodeMicro_cases h
  · exact .inr rfl
  · exact .inl rfl
  · exact .inl rfl
  · exact encodeHead_phase h rfl

theorem decodeMicro_phase {s t : State W} (h : decodeMicro s = .next t) : RunsOrIdle s.phase t := by
  obtain ⟨b, -, -, ⟨-, -, h⟩ | ⟨-, -, -, ⟨-, h⟩ | ⟨-, h⟩⟩⟩ := decodeMicro_cases h
  · exact decodeHead_phase h rfl
  · exact decodeHead_phase h rfl
  · exact decodeHead_phase h rfl

/-- A micro-step keeps the phase or completes the operation. -/
theorem microStep_phase {s t : State W} (h : microStep s = .next t) : RunsOrIdle s.phase t := by
  unfold microStep at h
  split at h
  case h_1 => cases h; exact .inl rfl
  case h_2 => exact countMicro_phase h
  case h_3 => exact buildMicro_phase h
  case h_4 => exact genMicro_phase h
  case h_5 => exact encodeMicro_phase h
  case h_6 => exact decodeMicro_phase h

theorem startCount_phase {s t : State W} (h : startCount s = .next t) : RunsOrIdle .count t :=
  countHead_phase h rfl

theorem startEncode_phase {s t : State W} (h : startEncode s = .next t) : RunsOrIdle .encode t :=
  encodeHead_phase h rfl

theorem startBuild_phase {w : Cmd} {s t : State W} (h : startBuild w s = .next t) : RunsOrIdle .build t := by
  cases h
  exact .inl rfl

theorem startGen_phase {s t : State W} (h : startGen s = .next t) : RunsOrIdle .gen t := by
  unfold startGen at h
  simp only at h
  split at h
  · exact genHead_phase h rfl
  · split at h
    · cases h
    · split at h
      · cases h
      · exact genHead_phase h rfl

theorem startDecode_phase {s t : State W} (h : startDecode s = .next t) : RunsOrIdle .decode t := by
  unfold startDecode at h
  simp only at h
  split at h
  · split at h
    · cases h; exact .inr rfl
    · cases h; exact .inr rfl
  · exact decodeHead_phase h rfl

/-! ### A command as acceptance and micro-steps -/

/-- The micro-steps of one unit are micro-steps of the sequencer: until it completes, the phase selects that unit. -/
theorem runUnit_eq_microSteps {micro : State W → Result W} {p : Phase}
    (select : ∀ s, s.phase = p → microStep s = micro s) :
    ∀ (n : Nat) (s t : State W), RunsOrIdle p s → runUnit micro n s = .next t → ∃ k, microSteps k s = .next t := by
  intro n
  induction n with
  | zero =>
    intro s t _ h
    simp only [runUnit] at h
    split at h
    · exact ⟨0, h⟩
    · cases h
  | succ n ih =>
    intro s t hs h
    by_cases hi : s.phase = .idle
    · rw [runUnit_idle micro _ hi] at h
      exact ⟨0, h⟩
    · have hp : s.phase = p := hs.resolve_right hi
      rw [runUnit_succ micro n hi, ← select s hp] at h
      obtain ⟨u, hu, ht⟩ := andThen_eq_next.mp h
      obtain ⟨k, hk⟩ := ih u t (hp ▸ microStep_phase hu) ht
      exact ⟨k + 1, by rw [microSteps, hu, andThen_next, hk]⟩

/-- The same for a whole operation: its start, then micro-steps. -/
theorem start_then_run_eq_microSteps {micro : State W → Result W} {o : Result W} {n : Nat} {t : State W} {p : Phase}
    (h : andThen o (runUnit micro n) = .next t) (start : ∀ u, o = .next u → RunsOrIdle p u)
    (select : ∀ s, s.phase = p → microStep s = micro s := by intro s hp; simp only [microStep, hp]) :
    ∃ k, andThen o (microSteps k) = .next t := by
  obtain ⟨u, hu, ht⟩ := andThen_eq_next.mp h
  obtain ⟨k, hk⟩ := runUnit_eq_microSteps select n u t (start u hu) ht
  exact ⟨k, andThen_eq_next.mpr ⟨u, hu, hk⟩⟩

/-- R10: a command taken in an idle block computes what acceptance of its word and micro-steps compute. -/
theorem execAt_eq_microSteps (i : Instr) {s t : State W} (hs : s.phase = .idle) (h : execAt i s = .next t) :
    ∃ k, andThen (acceptWord (encode i) s) (microSteps k) = .next t := by
  rw [acceptWord, decode_encode]
  cases i with
  | nop => exact ⟨0, andThen_eq_next.mpr ⟨t, h, rfl⟩⟩
  | count =>
    rw [execAt, execCount, whenIdle_idle _ hs] at h
    exact start_then_run_eq_microSteps h (fun _ => startCount_phase)
  | build =>
    rw [execAt, execBuild, whenIdle_idle _ hs] at h
    exact start_then_run_eq_microSteps h (fun _ => startBuild_phase)
  | buildS =>
    rw [execAt, execBuildS, whenIdle_idle _ hs] at h
    exact start_then_run_eq_microSteps h (fun _ => startBuild_phase)
  | gen =>
    rw [execAt, execGen, whenIdle_idle _ hs] at h
    exact start_then_run_eq_microSteps h (fun _ => startGen_phase)
  | encode =>
    rw [execAt, execEncode, whenIdle_idle _ hs] at h
    exact start_then_run_eq_microSteps h (fun _ => startEncode_phase)
  | decode =>
    rw [execAt, execDecode, whenIdle_idle _ hs] at h
    exact start_then_run_eq_microSteps h (fun _ => startDecode_phase)

/-! ### The obligations -/

/-- Settles O15: the phase selects the running unit until it completes, so its micro-steps are the sequencer's. -/
theorem commandLineIsItsMicroSteps : Obligations.CommandLineIsItsMicroSteps := by
  refine ⟨fun i s t hs h => ?_, fun s w i rest hs _ hh => ?_, fun s rest hh => step_wait hh,
    fun s hh => step_of_no_move hh, fun s hs hh => ?_, fun s rest hs hh => ?_⟩
  · rw [← execAt_eq_exec] at h
    exact execAt_eq_microSteps i hs h
  · rw [step_access hh]
    exact hostAccess_wrCmd_idle w hs
  · rw [step_of_no_move hh]
    exact microStep_idle hs
  · rw [step_wait hh]
    exact microStep_idle hs

/-- Settles O8: the line's word is decoded and its command dispatched, and `execAt` is `exec` at this hardware's `W_CNT`. -/
theorem commandLineStepRunsItsCommand : Obligations.CommandLineStepRunsItsCommand := by
  refine ⟨fun s w rest i hh hd => ?_, fun s n w i h => ?_, fun i s => ?_, fun s => ?_⟩
  · rw [step_line hh, runLine_of_decode exec _ hd]
  · have hh : (s.withFetchWord n w).host = .line (BitVec.ofNat 4 w) :: s.host := rfl
    rw [step_line hh, runLine_of_decode exec _ (decode_of_decodeTableWord h)]
    rfl
  · rw [execAt_eq_exec]
  · rw [stepAt, execAt_eq_exec, step]

end Sys2Proof.Machine
end


/-! PROOFS of the family `10_state.md`: the reset values, the host registers, the spaces each command writes, and what every step
keeps: exact lengths, unused code bits, the tree. -/

section

namespace Sys2Proof.Machine

variable {W : Nat}

/-! ### Acceptance of GEN, ENCODE and DECODE, case by case -/

/-- Acceptance of GEN clears `CODE` and pushes the root, if there is one (R89). -/
theorem startGen_cases {s t : State W} (h : startGen s = .next t) :
    (s.root = nullIdx ∧ genHead { accept (encode .gen) .gen s with code := [], stk := [] } = .next t) ∨
    (s.root ≠ nullIdx ∧ s.root < s.nnode ∧ (nodeAt s s.root).kind = .internal ∧
      genHead { accept (encode .gen) .gen s with code := [], stk := [(s.root, [])] } = .next t) := by
  unfold startGen at h
  simp only at h
  split at h
  · exact .inl ⟨‹_›, h⟩
  · split at h
    · cases h
    · rename_i hnull _ r hr
      obtain ⟨hlt, rfl⟩ := useNode_eq_some.mp hr
      split at h
      · cases h
      · exact .inr ⟨hnull, hlt, ‹_›, h⟩

/-- The state after acceptance and step 0 of ENCODE (R98), before the test of the loop. -/
def encodeStart (s : State W) : State W :=
  { clearBits (accept (encode .encode) .encode s) with ipos := 0#_, beat := false }

theorem startEncode_eq (s : State W) : startEncode s = encodeHead (encodeStart s) := rfl

/-- The state after acceptance and step 0 of DECODE (R104), before the test of the loop. -/
def decodeStart (s : State W) : State W :=
  { clearOut (accept (encode .decode) .decode s) with bpos := 0#_, cur := s.root }

/-- Acceptance of DECODE decides the null tree (R109) and otherwise enters the loop. -/
theorem startDecode_cases {s t : State W} (h : startDecode s = .next t) :
    (s.root = nullIdx ∧ s.blen = 0#_ ∧ t = finishOk (decodeStart s)) ∨
    (s.root = nullIdx ∧ s.blen ≠ 0#_ ∧ t = raise .decoding (decodeStart s)) ∨
    (s.root ≠ nullIdx ∧ decodeHead (decodeStart s) = .next t) := by
  unfold startDecode at h
  simp only at h
  split at h
  · split at h
    · cases h; exact .inl ⟨‹_›, ‹_›, rfl⟩
    · cases h; exact .inr (.inl ⟨‹_›, ‹_›, rfl⟩)
  · exact .inr (.inr ⟨‹_›, h⟩)

/-! ### Each unit writes its own spaces only (R22, R36) -/

/-- From `s` to `t` nothing was written but the spaces of the unit of phase `p` (R36), the control state and the hidden state;
with `p` = `IDLE`, which runs no unit, no space at all. -/
structure WritesOnly (p : Phase) (s t : State W) : Prop where
  input : SameIn s t
  host : t.host = s.host
  freq : p ≠ .count → t.freq = s.freq
  tree : p ≠ .build → SameTree s t
  code : p ≠ .gen → t.code = s.code
  bits : p ≠ .encode → SameBits s t
  out : p ≠ .decode → SameOut s t

section WritesOnly

variable {p : Phase} {s t u : State W}

theorem WritesOnly.refl (p : Phase) (s : State W) : WritesOnly p s s where
  input := ⟨rfl, rfl⟩
  host := rfl
  freq _ := rfl
  tree _ := ⟨rfl, rfl, rfl, rfl⟩
  code _ := rfl
  bits _ := ⟨rfl, rfl⟩
  out _ := ⟨rfl, rfl⟩

theorem SameTree.trans (h : SameTree s t) (g : SameTree t u) : SameTree s u := by
  obtain ⟨hnode, hnsym, hnnode, hroot⟩ := h
  obtain ⟨gnode, gnsym, gnnode, groot⟩ := g
  exact ⟨gnode.trans hnode, gnsym.trans hnsym, gnnode.trans hnnode, groot.trans hroot⟩

theorem WritesOnly.trans (h : WritesOnly p s t) (g : WritesOnly p t u) : WritesOnly p s u where
  input := ⟨g.input.1.trans h.input.1, g.input.2.trans h.input.2⟩
  host := g.host.trans h.host
  freq hp := (g.freq hp).trans (h.freq hp)
  tree hp := (h.tree hp).trans (g.tree hp)
  code hp := (g.code hp).trans (h.code hp)
  bits hp := ⟨(g.bits hp).1.trans (h.bits hp).1, (g.bits hp).2.trans (h.bits hp).2⟩
  out hp := ⟨(g.out hp).1.trans (h.out hp).1, (g.out hp).2.trans (h.out hp).2⟩

/-! The updates each unit makes to its own fields. -/

theorem writesOnly_count (f : Memory (Cnt W)) (i : BitVec W) : WritesOnly .count s { s with freq := f, ipos := i } :=
  { WritesOnly.refl .count s with freq := absurd rfl }

theorem writesOnly_build (m : Memory (NodeRec W)) (a b r : Idx) (c l : BitVec 9) (q : List Idx) :
    WritesOnly .build s { s with node := m, nsym := a, nnode := b, root := r, scan := c, mleft := l, pq := q } :=
  { WritesOnly.refl .build s with tree := absurd rfl }

theorem writesOnly_gen (c : Memory CodeEnt) (k : List (Idx × Bits)) : WritesOnly .gen s { s with code := c, stk := k } :=
  { WritesOnly.refl .gen s with code := absurd rfl }

theorem writesOnly_encode (x : Bits) (l : BLen W) (i : BitVec W) (c : BitVec 8) (b : Bool) (e : List (Event W)) :
    WritesOnly .encode s { s with bits := x, blen := l, ipos := i, cpos := c, beat := b, events := e } :=
  { WritesOnly.refl .encode s with bits := absurd rfl }

theorem writesOnly_decode (x : List Byte) (l i : BLen W) (c : Idx) (e : List (Event W)) :
    WritesOnly .decode s { s with out := x, olen := l, bpos := i, cur := c, events := e } :=
  { WritesOnly.refl .decode s with out := absurd rfl }

/-! Acceptance and completion write no space; taking an error writes the output of the running unit. -/

theorem accept_writesOnly (w : Cmd) (q : Phase) : WritesOnly p s (accept w q s) :=
  { WritesOnly.refl p s with }

theorem complete_accept_writesOnly (e : Err) (w : Cmd) (q : Phase) : WritesOnly p s (complete e (accept w q s)) :=
  { WritesOnly.refl p s with }

theorem finishOk_writesOnly : WritesOnly p s (finishOk s) :=
  { WritesOnly.refl p s with }

theorem raise_writesOnly (e : Err) (hp : s.phase = p) : WritesOnly p s (raise e s) := by
  subst hp
  constructor <;> simp +contextual [SameIn, SameTree, SameBits, SameOut]

theorem countHead_writesOnly (h : countHead s = .next t) : WritesOnly p s t := by
  obtain ⟨-, rfl⟩ | ⟨-, rfl⟩ := countHead_cases h
  · exact .refl ..
  · exact finishOk_writesOnly

theorem genHead_writesOnly (h : genHead s = .next t) : WritesOnly p s t := by
  obtain ⟨-, rfl⟩ | ⟨-, rfl⟩ := genHead_cases h
  · exact finishOk_writesOnly
  · exact .refl ..

theorem encodeHead_writesOnly (h : encodeHead s = .next t) : WritesOnly p s t := by
  obtain ⟨-, rfl⟩ | ⟨-, rfl⟩ := encodeHead_cases h
  · exact .refl ..
  · exact finishOk_writesOnly

theorem decodeHead_writesOnly (h : decodeHead s = .next t) (hp : s.phase = p) : WritesOnly p s t := by
  obtain ⟨-, rfl⟩ | ⟨-, -, rfl⟩ | ⟨-, -, rfl⟩ := decodeHead_cases h
  · exact .refl ..
  · exact finishOk_writesOnly
  · exact raise_writesOnly _ hp

theorem buildRoots_writesOnly (h : buildRoots s = .next t) (hp : s.phase = .build) : WritesOnly .build s t := by
  obtain ⟨-, -, rfl⟩ | ⟨-, -, rfl⟩ | ⟨-, rfl⟩ | ⟨-, -, rfl⟩ := buildRoots_cases h
  · exact (writesOnly_build ..).trans (raise_writesOnly _ hp)
  · exact (writesOnly_build ..).trans finishOk_writesOnly
  · exact (writesOnly_build ..).trans finishOk_writesOnly
  · exact writesOnly_build ..

theorem scanNext_writesOnly (h : scanNext s = .next t) (hp : s.phase = .build) : WritesOnly .build s t := by
  obtain ⟨-, h⟩ | ⟨-, rfl⟩ := scanNext_cases h
  · exact (writesOnly_build ..).trans (buildRoots_writesOnly h hp)
  · exact writesOnly_build ..

theorem mergeHead_writesOnly (h : mergeHead s = .next t) : WritesOnly .build s t := by
  obtain ⟨-, rfl⟩ | ⟨-, rfl⟩ := mergeHead_cases h
  · exact (writesOnly_build ..).trans finishOk_writesOnly
  · exact .refl ..

theorem countMicro_writesOnly (h : countMicro s = .next t) : WritesOnly .count s t := by
  obtain ⟨b, -, h⟩ := countMicro_cases h
  exact (writesOnly_count ..).trans (countHead_writesOnly h)

theorem buildMicro_writesOnly (h : buildMicro s = .next t) (hp : s.phase = .build) : WritesOnly .build s t := by
  obtain ⟨-, h⟩ | ⟨-, h⟩ := buildMicro_cases h
  · obtain ⟨-, h⟩ | ⟨-, -, h⟩ := buildScan_cases h
    · exact scanNext_writesOnly h hp
    · exact (writesOnly_build ..).trans (scanNext_writesOnly h hp)
  · obtain ⟨a, q, b, q', -, -, -, h⟩ := buildMerge_cases h
    exact (writesOnly_build ..).trans (mergeHead_writesOnly h)

theorem genMicro_writesOnly (h : genMicro s = .next t) : WritesOnly .gen s t := by
  obtain ⟨-, rfl⟩ | ⟨n, p, rest, -, -, -, ⟨-, h⟩ | ⟨-, h⟩⟩ := genMicro_cases h
  · exact finishOk_writesOnly
  · exact (writesOnly_gen ..).trans (genHead_writesOnly h)
  · exact (writesOnly_gen ..).trans (genHead_writesOnly h)

theorem encodeMicro_writesOnly (h : encodeMicro s = .next t) (hp : s.phase = .encode) : WritesOnly .encode s t := by
  obtain ⟨b, -, ⟨-, -, rfl⟩ | ⟨-, -, rfl⟩ | ⟨-, -, rfl⟩ | ⟨-, -, h⟩⟩ := encodeMicro_cases h
  · exact raise_writesOnly _ hp
  · exact writesOnly_encode ..
  · exact writesOnly_encode ..
  · exact (writesOnly_encode ..).trans (encodeHead_writesOnly h)

theorem decodeMicro_writesOnly (h : decodeMicro s = .next t) (hp : s.phase = .decode) : WritesOnly .decode s t := by
  obtain ⟨b, -, -, ⟨-, -, h⟩ | ⟨-, -, -, ⟨-, h⟩ | ⟨-, h⟩⟩⟩ := decodeMicro_cases h
  · exact (writesOnly_decode ..).trans (decodeHead_writesOnly h hp)
  · exact (writesOnly_decode ..).trans (decodeHead_writesOnly h hp)
  · exact (writesOnly_decode ..).trans (decodeHead_writesOnly h hp)

/-- A micro-step writes the spaces of the running unit only. -/
theorem microStep_writesOnly (h : microStep s = .next t) : WritesOnly s.phase s t := by
  unfold microStep at h
  split at h
  case h_1 => cases h; exact .refl ..
  case h_2 hp => exact hp ▸ countMicro_writesOnly h
  case h_3 hp => exact hp ▸ buildMicro_writesOnly h hp
  case h_4 hp => exact hp ▸ genMicro_writesOnly h
  case h_5 hp => exact hp ▸ encodeMicro_writesOnly h hp
  case h_6 hp => exact hp ▸ decodeMicro_writesOnly h hp

/-- So do any number of them. -/
theorem microSteps_writesOnly (k : Nat) (hs : RunsOrIdle p s) (h : microSteps k s = .next t) : WritesOnly p s t := by
  induction k generalizing s with
  | zero => cases h; exact .refl ..
  | succ k ih =>
    obtain ⟨u, hu, ht⟩ := andThen_eq_next.mp h
    obtain rfl | hi := hs
    · exact (microStep_writesOnly hu).trans (ih (microStep_phase hu) ht)
    · rw [microSteps_idle (k + 1) hi] at h
      cases h
      exact .refl ..

theorem startCount_writesOnly (h : startCount s = .next t) : WritesOnly .count s t :=
  (accept_writesOnly ..).trans ((writesOnly_count ..).trans (countHead_writesOnly h))

theorem startBuild_writesOnly {w : Cmd} (h : startBuild w s = .next t) : WritesOnly .build s t := by
  cases h
  exact (accept_writesOnly w .build).trans (writesOnly_build ..)

theorem startGen_writesOnly (h : startGen s = .next t) : WritesOnly .gen s t := by
  obtain ⟨-, h⟩ | ⟨-, -, -, h⟩ := startGen_cases h
  · exact (accept_writesOnly ..).trans ((writesOnly_gen ..).trans (genHead_writesOnly h))
  · exact (accept_writesOnly ..).trans ((writesOnly_gen ..).trans (genHead_writesOnly h))

theorem encodeStart_writesOnly : WritesOnly .encode s (encodeStart s) :=
  (accept_writesOnly (encode .encode) .encode).trans (writesOnly_encode ..)

theorem startEncode_writesOnly (h : startEncode s = .next t) : WritesOnly .encode s t :=
  encodeStart_writesOnly.trans (encodeHead_writesOnly h)

theorem decodeStart_writesOnly : WritesOnly .decode s (decodeStart s) :=
  (accept_writesOnly (encode .decode) .decode).trans (writesOnly_decode ..)

theorem startDecode_writesOnly (h : startDecode s = .next t) : WritesOnly .decode s t := by
  obtain ⟨-, -, rfl⟩ | ⟨-, -, rfl⟩ | ⟨-, h⟩ := startDecode_cases h
  · exact decodeStart_writesOnly.trans finishOk_writesOnly
  · exact decodeStart_writesOnly.trans (raise_writesOnly _ rfl)
  · exact decodeStart_writesOnly.trans (decodeHead_writesOnly h rfl)

/-! A command, as acceptance and micro-steps. -/

/-- The phase of the unit a command runs; `NOP` runs none (R114, R115). -/
def unitOf : Instr → Phase
  | .nop => .idle
  | .count => .count
  | .build => .build
  | .buildS => .build
  | .gen => .gen
  | .encode => .encode
  | .decode => .decode

/-- The phase of the unit a command word starts; a reserved word starts none (R57). -/
def unitOfWord (w : Cmd) : Phase :=
  match decode w with
  | .ok i => unitOf i
  | .error _ => .idle

@[simp] theorem unitOf_eq_count {i : Instr} : unitOf i = .count ↔ i = .count := by cases i <;> simp [unitOf]
@[simp] theorem unitOf_eq_build {i : Instr} : unitOf i = .build ↔ i = .build ∨ i = .buildS := by cases i <;> simp [unitOf]
@[simp] theorem unitOf_eq_gen {i : Instr} : unitOf i = .gen ↔ i = .gen := by cases i <;> simp [unitOf]
@[simp] theorem unitOf_eq_encode {i : Instr} : unitOf i = .encode ↔ i = .encode := by cases i <;> simp [unitOf]
@[simp] theorem unitOf_eq_decode {i : Instr} : unitOf i = .decode ↔ i = .decode := by cases i <;> simp [unitOf]

theorem unitOfWord_encode (i : Instr) : unitOfWord (encode i) = unitOf i := by
  simp only [unitOfWord, decode_encode]

/-- Acceptance of a word, by the unit it starts. -/
theorem acceptWord_cases {w : Cmd} (hs : s.phase = .idle) (h : acceptWord w s = .next t) :
    (unitOfWord w = .idle ∧ ∃ e v, t = complete e (accept v .idle s)) ∨
    (unitOfWord w = .count ∧ startCount s = .next t) ∨
    (unitOfWord w = .build ∧ startBuild w s = .next t) ∨
    (unitOfWord w = .gen ∧ startGen s = .next t) ∨
    (unitOfWord w = .encode ∧ startEncode s = .next t) ∨
    (unitOfWord w = .decode ∧ startDecode s = .next t) := by
  unfold acceptWord at h
  unfold unitOfWord
  split at h <;> rename_i hd <;>
    simp only [hd, unitOf, reduceCtorEq, true_and, false_and, or_false, false_or]
  case h_1 => cases (whenIdle_idle _ hs).symm.trans h; exact ⟨_, _, rfl⟩
  case h_2 => cases (whenIdle_idle _ hs).symm.trans h; exact ⟨_, _, rfl⟩
  all_goals exact h

/-- After acceptance the unit of the word runs, or the operation has completed. -/
theorem acceptWord_phase {w : Cmd} (hs : s.phase = .idle) (h : acceptWord w s = .next t) : RunsOrIdle (unitOfWord w) t := by
  obtain ⟨hw, _, _, rfl⟩ | ⟨hw, h⟩ | ⟨hw, h⟩ | ⟨hw, h⟩ | ⟨hw, h⟩ | ⟨hw, h⟩ :=
    acceptWord_cases hs h <;> rw [hw]
  · exact .inl rfl
  · exact startCount_phase h
  · exact startBuild_phase h
  · exact startGen_phase h
  · exact startEncode_phase h
  · exact startDecode_phase h

/-- Acceptance of a word writes the spaces of the unit it starts only. -/
theorem acceptWord_writesOnly {w : Cmd} (hs : s.phase = .idle) (h : acceptWord w s = .next t) :
    WritesOnly (unitOfWord w) s t := by
  obtain ⟨hw, _, _, rfl⟩ | ⟨hw, h⟩ | ⟨hw, h⟩ | ⟨hw, h⟩ | ⟨hw, h⟩ | ⟨hw, h⟩ :=
    acceptWord_cases hs h <;> rw [hw]
  · exact complete_accept_writesOnly ..
  · exact startCount_writesOnly h
  · exact startBuild_writesOnly h
  · exact startGen_writesOnly h
  · exact startEncode_writesOnly h
  · exact startDecode_writesOnly h

/-- R117: a command is ignored while a unit runs. -/
theorem execAt_busy (i : Instr) (hs : s.phase ≠ .idle) : execAt i s = .next s := by
  cases i <;> exact whenIdle_busy _ hs

/-- R36: a command writes the spaces of its unit only. -/
theorem execAt_writesOnly {i : Instr} (h : execAt i s = .next t) : WritesOnly (unitOf i) s t := by
  by_cases hs : s.phase = .idle
  · obtain ⟨k, hk⟩ := execAt_eq_microSteps i hs h
    obtain ⟨u, hu, ht⟩ := andThen_eq_next.mp hk
    rw [← unitOfWord_encode]
    exact (acceptWord_writesOnly hs hu).trans (microSteps_writesOnly k (acceptWord_phase hs hu) ht)
  · rw [execAt_busy i hs] at h
    cases h
    exact .refl ..

end WritesOnly

/-- Settles O17: acceptance and every micro-step of a command write the spaces of its unit only. -/
theorem eachCommandWritesItsOwnSpaces : Obligations.EachCommandWritesItsOwnSpaces := by
  intro i s t h
  rw [← execAt_eq_exec] at h
  have hw := execAt_writesOnly h
  exact ⟨hw.input, hw.host, fun hi => hw.freq (by simpa using hi), fun hi hj => hw.tree (by simp [hi, hj]),
    fun hi => hw.code (by simpa using hi), fun hi => hw.bits (by simpa using hi), fun hi => hw.out (by simpa using hi)⟩

/-! ### What every step keeps

The host's moves and the micro-steps, taken apart once: an invariant that each kind of event keeps is kept by every step. -/

/-- `P` is kept by every event of the block: a move of the host is used up, an access is answered, a load is taken, `rst`, a word
is accepted while idle, and a micro-step. -/
structure KeptByEvents (P : State W → Prop) : Prop where
  move : ∀ s rest, P s → P { s with host := rest }
  answer : ∀ s e, P s → P (emit e s)
  loadIn : ∀ s seq, P s → s.phase = .idle → seq.length ≤ Config.lenMax W →
    P { s with input := seq, ilen := BitVec.ofNat _ seq.length }
  loadBits : ∀ s seq, P s → s.phase = .idle → seq.length ≤ Config.bitsMax W →
    P { s with bits := seq, blen := BitVec.ofNat _ seq.length }
  reset : ∀ s, P (hardReset s)
  accept : ∀ s t w, P s → s.phase = .idle → acceptWord w s = .next t → P t
  micro : ∀ s t, P s → microStep s = .next t → P t

/-- A reserved word is reported by its own number. -/
theorem reserved_of_decode {w v : Cmd} (h : decode w = .error (.reserved v)) : v = w := by
  unfold decode at h
  split_ifs at h
  cases h
  rfl

section KeptByEvents

variable {P : State W → Prop} (keep : KeptByEvents P) {s t : State W}
include keep

theorem KeptByEvents.of_microSteps (k : Nat) (hs : P s) (h : microSteps k s = .next t) : P t := by
  induction k generalizing s with
  | zero => cases h; exact hs
  | succ k ih =>
    obtain ⟨u, hu, ht⟩ := andThen_eq_next.mp h
    exact ih (keep.micro s u hs hu) ht

theorem KeptByEvents.of_execAt {i : Instr} (hs : P s) (h : execAt i s = .next t) : P t := by
  by_cases hp : s.phase = .idle
  · obtain ⟨k, hk⟩ := execAt_eq_microSteps i hp h
    obtain ⟨u, hu, ht⟩ := andThen_eq_next.mp hk
    exact keep.of_microSteps k (keep.accept s u _ hs hp hu) ht
  · rw [execAt_busy i hp] at h
    cases h
    exact hs

theorem KeptByEvents.of_runLine {w : Cmd} (hs : P s) (h : runLine execAt w s = .next t) : P t := by
  unfold runLine at h
  split at h
  · exact keep.of_execAt hs h
  · rename_i v hd
    obtain rfl := reserved_of_decode hd
    by_cases hp : s.phase = .idle
    · exact keep.accept s t v hs hp (by simpa only [acceptWord, hd] using h)
    · cases (whenIdle_busy _ hp).symm.trans h
      exact hs

theorem KeptByEvents.of_idleAccess {a : Access} (hs : P s) (hp : s.phase = .idle) (h : idleAccess a s = .next t) : P t := by
  cases a with
  | loadIn seq =>
    obtain ⟨hlen, hl⟩ | ⟨-, hl⟩ := loadIn_cases seq s
    · cases hl.symm.trans h; exact keep.answer _ _ (keep.loadIn s seq hs hp hlen)
    · cases hl.symm.trans h
  | loadBits seq =>
    obtain ⟨hlen, hl⟩ | ⟨-, hl⟩ := loadBits_cases seq s
    · cases hl.symm.trans h; exact keep.answer _ _ (keep.loadBits s seq hs hp hlen)
    · cases hl.symm.trans h
  | wrReg n w =>
    unfold idleAccess at h
    simp only at h
    split at h
    · exact keep.accept s t w hs hp h
    · cases h; exact hs
  | _ => cases h; exact keep.answer _ _ hs

theorem KeptByEvents.of_hostAccess {a : Access} (hs : P s) (h : hostAccess a s = .next t) : P t := by
  unfold hostAccess busyAccess at h
  split at h
  · exact keep.of_idleAccess hs ‹_› h
  · cases h
    split
    · exact keep.answer _ _ hs
    · exact keep.answer _ _ hs

theorem KeptByEvents.of_stepAt (hs : P s) (h : stepAt W s = .next t) : P t := by
  unfold stepAt stepWith at h
  cases hh : s.host with
  | nil =>
    rw [fetchMove_nil hh] at h
    exact keep.micro s t hs h
  | cons m rest =>
    rw [fetchMove_cons hh] at h
    have hr := keep.move s rest hs
    cases m with
    | line w => exact keep.of_runLine hr h
    | lineIfOk w =>
      simp only [runLineIfOk] at h
      split at h
      · exact keep.of_runLine hr h
      · cases h; exact hr
    | access a => exact keep.of_hostAccess hr h
    | wait => exact keep.micro _ t hr h
    | rst => cases h; exact keep.reset _

end KeptByEvents

/-- What every event keeps, every step of this hardware keeps. -/
theorem KeptByEvents.of_step {P : State → Prop} (keep : KeptByEvents P) {s t : State} (hs : P s)
    (h : step s = .next t) : P t := by
  refine keep.of_stepAt hs ?_
  rwa [stepAt, execAt_eq_exec]

/-! ### R23: the unused bits of the code entries -/

theorem codeBitsInv_congr {s t : State W} (h : t.code = s.code) (hs : CodeBitsInv s) : CodeBitsInv t := by
  intro b
  rw [codeAt_congr h]
  exact hs b

theorem codeBitsInv_of_empty {s : State W} (h : s.code = []) : CodeBitsInv s := by
  intro b j _
  simp [codeAt, h]

/-- R62: the entry GEN builds from a path has zeros at and above its length. -/
theorem ofPath_unused_bits (p : Bits) (hp : p.length ≤ 255) (j : Nat) (hj : (CodeEnt.ofPath p).len.toNat ≤ j) :
    (CodeEnt.ofPath p).bits.getLsbD j = false := by
  have hlen : (CodeEnt.ofPath p).len.toNat = p.length := by
    simp only [CodeEnt.ofPath, BitVec.toNat_ofNat]
    omega
  rw [hlen] at hj
  simp [CodeEnt.ofPath, BitVec.getLsbD_ofNat, testBit_pathNumber, List.getElem?_eq_none hj]

theorem codeBitsInv_setCode {s : State W} (b : Byte) {p : Bits} (hp : p.length ≤ 255) (hs : CodeBitsInv s) :
    CodeBitsInv (setCode b (CodeEnt.ofPath p) s) := by
  intro c
  rw [codeAt_setCode]
  split
  · exact ofPath_unused_bits p hp
  · exact hs c

theorem genHead_code {s t : State W} (h : genHead s = .next t) : t.code = s.code := by
  obtain ⟨-, rfl⟩ | ⟨-, rfl⟩ := genHead_cases h <;> rfl

theorem codeBitsInv_startGen {s t : State W} (h : startGen s = .next t) : CodeBitsInv t := by
  obtain ⟨-, h⟩ | ⟨-, -, -, h⟩ := startGen_cases h
  · exact codeBitsInv_of_empty (genHead_code h)
  · exact codeBitsInv_of_empty (genHead_code h)

theorem codeBitsInv_genMicro {s t : State W} (hs : CodeBitsInv s) (h : genMicro s = .next t) : CodeBitsInv t := by
  obtain ⟨-, rfl⟩ | ⟨n, p, rest, -, hp, -, ⟨-, h⟩ | ⟨-, h⟩⟩ := genMicro_cases h
  · exact codeBitsInv_congr rfl hs
  · exact codeBitsInv_congr (genHead_code h) (codeBitsInv_setCode _ hp hs)
  · exact codeBitsInv_congr (genHead_code h) hs

theorem codeBitsInv_kept : KeptByEvents (CodeBitsInv (W := W)) where
  move _ _ := codeBitsInv_congr rfl
  answer _ _ := codeBitsInv_congr rfl
  loadIn _ _ hs _ _ := codeBitsInv_congr rfl hs
  loadBits _ _ hs _ _ := codeBitsInv_congr rfl hs
  reset _ := codeBitsInv_of_empty rfl
  accept s t w hs hp h := by
    by_cases hw : unitOfWord w = .gen
    · exact codeBitsInv_startGen (by simpa [hw] using acceptWord_cases hp h)
    · exact codeBitsInv_congr ((acceptWord_writesOnly hp h).code hw) hs
  micro s t hs h := by
    by_cases hp : s.phase = .gen
    · simp only [microStep, hp] at h
      exact codeBitsInv_genMicro hs h
    · exact codeBitsInv_congr ((microStep_writesOnly h).code hp) hs

/-- Settles O59: only GEN writes `CODE`, and what it writes is the empty table and entries built from paths. -/
theorem stepKeepsUnusedCodeBitsZero : Obligations.StepKeepsUnusedCodeBitsZero :=
  fun _ _ => codeBitsInv_kept.of_step

end Sys2Proof.Machine
end

section

namespace Sys2Proof.Machine

variable {W : Nat}

/-! ### R24 to R26, R102: the length registers -/

/-- A counter below some value does not wrap when it is incremented. -/
theorem toNat_add_one_of_lt {n : Nat} {x : BitVec n} (h : x.toNat + 1 < 2 ^ n) : (x + 1#n).toNat = x.toNat + 1 := by
  have h1 : (1#n).toNat = 1 := by rw [BitVec.toNat_ofNat, Nat.mod_eq_of_lt (by omega)]
  rw [BitVec.toNat_add_of_lt (by omega), h1]

/-- R46: an admitted length fits its register. -/
theorem length_eq_toNat_ofNat {α : Type} {n : Nat} {seq : List α} (h : seq.length ≤ 2 ^ n - 1) :
    seq.length = (BitVec.ofNat n seq.length).toNat := by
  have := Nat.two_pow_pos n
  rw [BitVec.toNat_ofNat, Nat.mod_eq_of_lt (by omega)]

theorem lenOk_congr {s t : State W} (hi : SameIn s t) (hb : SameBits s t) (ho : SameOut s t) (hs : LenOk s) : LenOk t where
  input := by rw [hi.1, hi.2]; exact hs.input
  bits := by rw [hb.1, hb.2]; exact hs.bits
  out := by rw [ho.1, ho.2]; exact hs.out

/-- Outside ENCODE and DECODE the exact lengths are all that is claimed. -/
theorem lenInv_of_not_coding {s : State W} (he : s.phase ≠ .encode) (hd : s.phase ≠ .decode) (hs : LenOk s) : LenInv s :=
  ⟨hs, (absurd · he), (absurd · he), (absurd · he), (absurd · hd), (absurd · hd)⟩

theorem lenInv_of_idle {s : State W} (hp : s.phase = .idle) (hs : LenOk s) : LenInv s :=
  lenInv_of_not_coding (by simp [hp]) (by simp [hp]) hs

theorem lenOk_reset : LenOk (State.resetAt W) :=
  ⟨by simp [State.resetAt], by simp [State.resetAt], by simp [State.resetAt]⟩

theorem lenOk_finishOk {s : State W} (hs : LenOk s) : LenOk (finishOk s) :=
  ⟨hs.input, hs.bits, hs.out⟩

theorem lenOk_raise {s : State W} (e : Err) (hs : LenOk s) : LenOk (raise e s) := by
  obtain ⟨hi, hb, ho⟩ := hs
  refine ⟨by simpa using hi, ?_, ?_⟩
  · simp only [raise_bits, raise_blen]
    split <;> simp [hb]
  · simp only [raise_out, raise_olen]
    split <;> simp [ho]

theorem lenOk_appendBit {s : State W} (b : Bool) (h : s.bits.length + 1 < 2 ^ Config.wBlen W) (hs : LenOk s) :
    LenOk (appendBit b s) where
  input := hs.input
  bits := by
    rw [hs.bits] at h
    simp [toNat_add_one_of_lt h, hs.bits]
  out := hs.out

theorem lenOk_appendSym {s : State W} (v : Byte) (h : s.out.length + 1 < 2 ^ Config.wBlen W) (hs : LenOk s) :
    LenOk (appendSym v s) where
  input := hs.input
  bits := hs.bits
  out := by
    rw [hs.out] at h
    simp [toNat_add_one_of_lt h, hs.out]

theorem lenOk_encodeStart {s : State W} (hs : LenOk s) : LenOk (encodeStart s) :=
  ⟨hs.input, by simp [encodeStart], hs.out⟩

theorem lenOk_decodeStart {s : State W} (hs : LenOk s) : LenOk (decodeStart s) :=
  ⟨hs.input, hs.bits, by simp [decodeStart]⟩

/-! ENCODE appends at most 255 bits per symbol it has passed (R102). -/

theorem lenInv_encodeHead {s t : State W} (h : encodeHead s = .next t) (hp : s.phase = .encode) (hb : s.beat = false)
    (hs : LenOk s) (hle : s.bits.length ≤ 255 * s.ipos.toNat) : LenInv t := by
  obtain ⟨hlt, rfl⟩ | ⟨-, rfl⟩ := encodeHead_cases h
  · exact ⟨hs, fun _ => hlt, by simp [hb], by simpa [hb] using fun _ => hle, by simp [hp], by simp [hp]⟩
  · exact lenInv_of_idle rfl (lenOk_finishOk hs)

theorem lenInv_startEncode {s t : State W} (hs : LenOk s) (h : startEncode s = .next t) : LenInv t :=
  lenInv_encodeHead h rfl rfl (lenOk_encodeStart hs) (Nat.zero_le _)

theorem lenInv_encodeMicro {s t : State W} (hp : s.phase = .encode) (hs : LenInv s) (h : encodeMicro s = .next t) :
    LenInv t := by
  have hpos := hs.encPos hp
  have hbits := hs.encBits hp
  have hroom : 255 * s.ipos.toNat + 255 < 2 ^ Config.wBlen W := by
    have := s.ilen.isLt
    have : s.ipos.toNat < s.ilen.toNat := hpos
    simp only [Config.wBlen, pow_add]
    omega
  have hnext : (s.ipos + 1#W).toNat = s.ipos.toNat + 1 := toNat_add_one_of_lt (by have := s.ilen.isLt; bv_omega)
  obtain ⟨b, -, ⟨-, -, rfl⟩ | ⟨hbeat, -, rfl⟩ | ⟨hbeat, hlen, rfl⟩ | ⟨hbeat, -, h⟩⟩ := encodeMicro_cases h
  · exact lenInv_of_idle rfl (lenOk_raise _ hs.lens)
  · simp only [hbeat] at hbits
    exact ⟨{ hs.lens with }, fun _ => hpos, by simp, by simpa using fun _ => hbits,
      by simp [hp], by simp [hp]⟩
  · have hcpos := hs.encBeat hp hbeat
    simp only [hbeat, if_true, Config.codeLenMax] at hbits hcpos
    have hinc : (s.cpos + 1#8).toNat = s.cpos.toNat + 1 := toNat_add_one_of_lt (by omega)
    have hmax := (codeAt s b).len.isLt
    have hb := lenOk_appendBit ((codeAt s b).bits.getLsbD s.cpos.toNat) (by omega) hs.lens
    refine ⟨{ hb with }, fun _ => hpos, fun _ _ => ?_, fun _ => ?_, by simp [hp], by simp [hp]⟩
    · simp only [hinc, Config.codeLenMax]
      omega
    · simp only [appendBit_bits, List.length_append, List.length_singleton, appendBit_beat, hbeat, if_true, hinc,
        appendBit_ipos]
      omega
  · have hcpos := hs.encBeat hp hbeat
    simp only [hbeat, if_true, Config.codeLenMax] at hbits hcpos
    have hb := lenOk_appendBit ((codeAt s b).bits.getLsbD s.cpos.toNat) (by omega) hs.lens
    refine lenInv_encodeHead h hp rfl { hb with } ?_
    simp only [appendBit_bits, List.length_append, List.length_singleton, hnext]
    omega

/-! DECODE appends at most one symbol per bit it has consumed (R106). -/

theorem lenInv_decodeHead {s t : State W} (h : decodeHead s = .next t) (hp : s.phase = .decode) (hs : LenOk s)
    (hle : s.out.length ≤ s.bpos.toNat) : LenInv t := by
  obtain ⟨hlt, rfl⟩ | ⟨-, -, rfl⟩ | ⟨-, -, rfl⟩ := decodeHead_cases h
  · exact ⟨hs, by simp [hp], by simp [hp], by simp [hp], fun _ => hlt, fun _ => hle⟩
  · exact lenInv_of_idle rfl (lenOk_finishOk hs)
  · exact lenInv_of_idle rfl (lenOk_raise _ hs)

theorem lenInv_startDecode {s t : State W} (hs : LenOk s) (h : startDecode s = .next t) : LenInv t := by
  have hs := lenOk_decodeStart hs
  obtain ⟨-, -, rfl⟩ | ⟨-, -, rfl⟩ | ⟨-, h⟩ := startDecode_cases h
  · exact lenInv_of_idle rfl (lenOk_finishOk hs)
  · exact lenInv_of_idle rfl (lenOk_raise _ hs)
  · exact lenInv_decodeHead h rfl hs (by simp [decodeStart])

theorem lenInv_decodeMicro {s t : State W} (hp : s.phase = .decode) (hs : LenInv s) (h : decodeMicro s = .next t) :
    LenInv t := by
  have hout := hs.decOut hp
  have hlt : s.bpos.toNat + 1 < 2 ^ Config.wBlen W := by
    have := s.blen.isLt
    have : s.bpos.toNat < s.blen.toNat := hs.decPos hp
    omega
  have hnext := toNat_add_one_of_lt hlt
  have append : ∀ v, LenOk (appendSym v s) := fun v => lenOk_appendSym v (by omega) hs.lens
  obtain ⟨b, -, -, ⟨-, -, h⟩ | ⟨-, -, -, ⟨-, h⟩ | ⟨-, h⟩⟩⟩ := decodeMicro_cases h
  · exact lenInv_decodeHead h hp { append _ with } (by simpa [hnext] using hout)
  · exact lenInv_decodeHead h hp { append _ with } (by simpa [hnext] using hout)
  · exact lenInv_decodeHead h hp { hs.lens with } (by simp only [hnext]; omega)

theorem lenInv_of_runsOrIdle {p : Phase} {s t : State W} (he : p ≠ .encode) (hd : p ≠ .decode) (hw : WritesOnly p s t)
    (hr : RunsOrIdle p t) (hs : LenOk s) : LenInv t := by
  have ht := lenOk_congr hw.input (hw.bits he) (hw.out hd) hs
  obtain rfl | hi := hr
  · exact lenInv_of_not_coding he hd ht
  · exact lenInv_of_idle hi ht

theorem lenInv_kept : KeptByEvents (LenInv (W := W)) where
  move _ _ hs := { hs with lens := { hs.lens with } }
  answer _ _ hs := { hs with lens := { hs.lens with } }
  loadIn _ _ hs hp hl := lenInv_of_idle hp { hs.lens with input := length_eq_toNat_ofNat hl }
  loadBits _ _ hs hp hl := lenInv_of_idle hp { hs.lens with bits := length_eq_toNat_ofNat hl }
  reset _ := lenInv_of_idle rfl { lenOk_reset with }
  accept s t w hs hp h := by
    by_cases he : unitOfWord w = .encode
    · exact lenInv_startEncode hs.lens (by simpa [he] using acceptWord_cases hp h)
    by_cases hd : unitOfWord w = .decode
    · exact lenInv_startDecode hs.lens (by simpa [hd] using acceptWord_cases hp h)
    exact lenInv_of_runsOrIdle he hd (acceptWord_writesOnly hp h) (acceptWord_phase hp h) hs.lens
  micro s t hs h := by
    by_cases he : s.phase = .encode
    · exact lenInv_encodeMicro he hs (by simpa only [microStep, he] using h)
    by_cases hd : s.phase = .decode
    · exact lenInv_decodeMicro hd hs (by simpa only [microStep, hd] using h)
    exact lenInv_of_runsOrIdle he hd (microStep_writesOnly h) (microStep_phase h) hs.lens

/-- Settles O56: only ENCODE and DECODE append, and their cursors bound what they append, so no length register wraps. -/
theorem stepKeepsLengthsExact : Obligations.StepKeepsLengthsExact :=
  fun _ _ => lenInv_kept.of_step

end Sys2Proof.Machine
end

section

namespace Sys2Proof.Machine

variable {W : Nat}

/-! ### R21, R77 to R80: the tree

What the clauses say depends only on the records below a bound; so adding a record at `NNODE` keeps what was said of the earlier
ones. -/

theorem LeavesOk.congr {s t : State W} {n top : Nat} (hs : LeavesOk s n top) (h : ∀ i, i < n → nodeNo t i = nodeNo s i) :
    LeavesOk t n top where
  isLeaf i hi := by rw [h i hi]; exact hs.isLeaf i hi
  weight i hi := by rw [h i hi]; exact hs.weight i hi
  below i hi := by rw [h i hi]; exact hs.below i hi
  rising i j hij hj := by rw [h i (by omega), h j hj]; exact hs.rising i j hij hj

theorem LeavesOk.mono {s : State W} {n top top' : Nat} (hs : LeavesOk s n top) (h : top ≤ top') : LeavesOk s n top' :=
  { hs with below := fun i hi => Nat.lt_of_lt_of_le (hs.below i hi) h }

theorem leavesOk_zero (s : State W) (top : Nat) : LeavesOk s 0 top :=
  ⟨nofun, nofun, nofun, nofun⟩

/-- A leaf with a larger symbol and a positive weight goes behind the leaves. -/
theorem LeavesOk.push {s : State W} {n top : Nat} {b : Byte} {w : Cnt W} (hs : LeavesOk s n top)
    (hn : nodeNo s n = leafRec b w) (hw : w ≠ 0#_) (hb : top ≤ b.toNat) : LeavesOk s (n + 1) (b.toNat + 1) where
  isLeaf i hi := by
    obtain hi | rfl := Nat.lt_succ_iff_lt_or_eq.mp hi
    · exact hs.isLeaf i hi
    · simp [hn, leafRec]
  weight i hi := by
    obtain hi | rfl := Nat.lt_succ_iff_lt_or_eq.mp hi
    · exact hs.weight i hi
    · simpa [hn, leafRec, Nat.one_le_iff_ne_zero, BitVec.toNat_eq] using hw
  below i hi := by
    obtain hi | rfl := Nat.lt_succ_iff_lt_or_eq.mp hi
    · exact Nat.lt_of_lt_of_le (hs.below i hi) (by omega)
    · simp [hn, leafRec]
  rising i j hij hj := by
    obtain hj | rfl := Nat.lt_succ_iff_lt_or_eq.mp hj
    · exact hs.rising i j hij hj
    · simpa [hn, leafRec] using Nat.lt_of_lt_of_le (hs.below i hij) hb

theorem InternalsOk.congr {s t : State W} {n m : Nat} (hs : InternalsOk s n m) (h : ∀ i, i < m → nodeNo t i = nodeNo s i) :
    InternalsOk t n m := by
  intro i hn hm
  obtain ⟨hk, hsym, hne, hl, hr, hw⟩ := hs i hn hm
  simp only [nodeAt_eq_nodeNo] at hw ⊢
  rw [h i hm, h _ (by omega), h _ (by omega)]
  exact ⟨hk, hsym, hne, hl, hr, hw⟩

/-- A node made of two different earlier records goes behind the internal nodes. -/
theorem InternalsOk.push {s : State W} {n m : Nat} {a b : Idx} (hs : InternalsOk s n m)
    (hm : nodeNo s m = internalRec ((nodeAt s a).weight + (nodeAt s b).weight) a b) (hab : a ≠ b) (ha : a.toNat < m)
    (hb : b.toNat < m) : InternalsOk s n (m + 1) := by
  intro i hn hi
  obtain hi | rfl := Nat.lt_succ_iff_lt_or_eq.mp hi
  · exact hs i hn hi
  · simp [hm, internalRec, hab, ha, hb]

/-! How many parents a record has. -/

theorem isChild_congr {s t : State W} {j : Nat} (h : nodeNo t j = nodeNo s j) (i : Nat) : isChild t j i = isChild s j i := by
  simp only [isChild, h]

theorem isChild_of_leaf {s : State W} {j : Nat} (h : (nodeNo s j).kind = .leaf) (i : Nat) : isChild s j i = false := by
  simp [isChild, h]

theorem isChild_of_internalRec {s : State W} {j : Nat} {w : Cnt W} {a b : Idx} (h : nodeNo s j = internalRec w a b) (i : Nat) :
    isChild s j i = decide (a.toNat = i ∨ b.toNat = i) := by
  simp [isChild, h, internalRec]

theorem parents_eq_zero {s : State W} {i : Nat} (h : ∀ j, j < s.nnode.toNat → isChild s j i = false) : parents s i = 0 := by
  simpa [parents, List.filter_eq_nil_iff] using h

/-- Children come before their parents, so the last record has none. -/
theorem parents_of_last {s : State W} {n i : Nat} {top : Nat} (hl : LeavesOk s n top) (hi : InternalsOk s n s.nnode.toNat)
    (h : s.nnode.toNat ≤ i + 1) : parents s i = 0 := by
  refine parents_eq_zero fun j hj => ?_
  by_cases hjn : j < n
  · exact isChild_of_leaf (hl.isLeaf j hjn).1 i
  · obtain ⟨-, -, -, hleft, hright, -⟩ := hi j (by omega) hj
    simp only [isChild, Bool.and_eq_false_iff, Bool.or_eq_false_iff, decide_eq_false_iff_not]
    exact .inr ⟨by omega, by omega⟩

/-- One more record adds the parenthood it has itself. -/
theorem parents_push {s t : State W} (hn : t.nnode.toNat = s.nnode.toNat + 1)
    (h : ∀ j, j < s.nnode.toNat → nodeNo t j = nodeNo s j) (i : Nat) :
    parents t i = parents s i + if isChild t s.nnode.toNat i then 1 else 0 := by
  have hold : (List.range s.nnode.toNat).filter (fun j => isChild t j i) =
      (List.range s.nnode.toNat).filter (fun j => isChild s j i) :=
    List.filter_congr fun j hj => isChild_congr (h j (List.mem_range.mp hj)) i
  simp only [parents, hn, List.range_succ, List.filter_append, hold, List.length_append]
  cases hc : isChild t s.nnode.toNat i <;> simp [hc]

/-! A record written at `NNODE` (R43). -/

theorem nodeNo_of_write_same {s t : State W} {i : Nat} {r : NodeRec W} (h : t.node = Memory.write NodeRec.blank s.node i r) :
    nodeNo t i = r := by
  simp [nodeNo, h]

theorem nodeNo_of_write_below {s t : State W} {i k : Nat} {r : NodeRec W} (h : t.node = Memory.write NodeRec.blank s.node i r)
    (hk : k < i) : nodeNo t k = nodeNo s k := by
  simp [nodeNo, h, Memory.read_write_other _ _ _ (Nat.ne_of_lt hk)]

/-! The finished trees of R20. -/

theorem TreeInv.congr {s t : State W} (hs : TreeInv s) (h : SameTree s t) : TreeInv t := by
  have hpar := parents_congr h
  obtain ⟨hnode, hnsym, hnnode, hroot⟩ := h
  have hno := nodeNo_congr hnode
  refine ⟨?_, ?_, ?_, ?_, ?_⟩
  · simpa only [TreeRegs, hnsym, hnnode, hroot] using hs.regs
  · rw [hnsym]; exact hs.leaves.congr fun i _ => hno i
  · rw [hnsym, hnnode]; exact fun h2 => (hs.internals h2).congr fun i _ => hno i
  · simpa only [hnnode, hroot, hpar] using hs.owned
  · simpa only [hnsym, hno] using hs.single

/-- The null tree (R83). -/
theorem treeInv_null {s : State W} (hnsym : s.nsym = 0#9) (hnnode : s.nnode = 0#9) (hroot : s.root = nullIdx) : TreeInv s where
  regs := .inl ⟨hnsym, hnnode, hroot⟩
  leaves := by simpa [hnsym] using leavesOk_zero s 256
  internals := by simp [hnsym]
  owned := by simp [hnnode]
  single := by simp [hnsym]

/-- One leaf under the synthesized root (R84). -/
theorem treeInv_single {s t : State W} (hleaf : LeavesOk s 1 256)
    (hnode : t.node = Memory.write NodeRec.blank s.node 1 (internalRec (nodeNo s 0).weight 0#9 nullIdx))
    (hnsym : t.nsym = 1#9) (hnnode : t.nnode = 2#9) (hroot : t.root = 1#9) : TreeInv t := by
  have hleaf : LeavesOk t 1 256 := hleaf.congr fun i hi => nodeNo_of_write_below hnode hi
  have hrec : nodeNo t 1 = internalRec (nodeNo t 0).weight 0#9 nullIdx := by
    rw [nodeNo_of_write_same hnode, nodeNo_of_write_below hnode Nat.zero_lt_one]
  refine ⟨.inr (.inl ⟨hnsym, hnnode, hroot⟩), by simpa [hnsym] using hleaf, by simp [hnsym], fun i hi hne => ?_,
    fun _ => hrec⟩
  obtain rfl : i = 0 := by simp [hnnode, hroot] at hi hne; omega
  have h0 := isChild_of_leaf (hleaf.isLeaf 0 (by omega)).1 0
  have h1 := isChild_of_internalRec hrec 0
  simp [parents, hnnode, List.range_succ, h0, h1]

/-! The merge loop: `ForestInv` is what R80 keeps, also after the last merge. -/

/-- `MergeInv` without the place in the operation: the sub-trees of which `PQ` holds the roots. -/
structure ForestInv (s : State W) : Prop where
  two : 2 ≤ s.nsym.toNat
  most : s.nsym.toNat ≤ 256
  count : s.nnode.toNat + s.mleft.toNat = 2 * s.nsym.toNat - 1
  leaves : LeavesOk s s.nsym.toNat 256
  internals : InternalsOk s s.nsym.toNat s.nnode.toNat
  queueRising : s.pq.Pairwise (fun x y => x < y)
  queueInUse : ∀ x ∈ s.pq, x < s.nnode
  queueSize : s.pq.length = s.mleft.toNat + 1
  owned : ∀ i, i < s.nnode.toNat → parents s i = if BitVec.ofNat 9 i ∈ s.pq then 0 else 1

theorem MergeInv.forest {s : State W} (hs : MergeInv s) : ForestInv s :=
  { hs with }

theorem ForestInv.mergeInv {s : State W} (hs : ForestInv s) (hscan : s.scan = 256#9) (hleft : 1 ≤ s.mleft.toNat) :
    MergeInv s :=
  { hs with scanned := hscan, left := hleft }

theorem ofNat9_eq_iff {i : Nat} (hi : i < 512) (x : Idx) : BitVec.ofNat 9 i = x ↔ i = x.toNat := by
  rw [← BitVec.toNat_inj, BitVec.toNat_ofNat, Nat.mod_eq_of_lt hi]

/-- R78: at the start every leaf is a sub-tree of its own. -/
theorem forestInv_of_leaves {s : State W} (hmin : 2 ≤ s.nnode.toNat) (hmax : s.nnode.toNat ≤ 256)
    (hl : LeavesOk s s.nnode.toNat 256) (hnsym : s.nsym = s.nnode)
    (hpq : s.pq = (List.range s.nnode.toNat).map (BitVec.ofNat 9)) (hmleft : s.mleft = s.nnode - 1#9) : ForestInv s where
  two := by rwa [hnsym]
  most := by rwa [hnsym]
  count := by rw [hnsym, hmleft]; bv_omega
  leaves := by rwa [hnsym]
  internals := by rw [hnsym]; exact fun i hn hm => absurd hm (Nat.not_lt.mpr hn)
  queueRising := by
    rw [hpq, List.pairwise_map]
    refine List.Pairwise.imp_of_mem (fun {x y} hx hy hxy => ?_) List.pairwise_lt_range
    simp only [List.mem_range] at hx hy
    rw [BitVec.lt_def, BitVec.toNat_ofNat, BitVec.toNat_ofNat]
    omega
  queueInUse x hx := by
    rw [hpq, List.mem_map] at hx
    obtain ⟨i, hi, rfl⟩ := hx
    simp only [List.mem_range] at hi
    rw [BitVec.lt_def, BitVec.toNat_ofNat]
    omega
  queueSize := by rw [hpq, hmleft, List.length_map, List.length_range]; bv_omega
  owned i hi := by
    rw [hpq, if_pos (List.mem_map_of_mem (List.mem_range.mpr hi))]
    exact parents_eq_zero fun j hj => isChild_of_leaf (hl.isLeaf j hj).1 i

theorem nodup_of_rising {q : List Idx} (h : q.Pairwise (fun x y => x < y)) : q.Nodup :=
  h.imp fun {x y} hxy => by rintro rfl; exact absurd hxy (BitVec.lt_irrefl x)

/-- A set of records in use has no more elements than there are records. -/
theorem length_le_of_inUse {q : List Idx} {n : Idx} (hq : q.Nodup) (h : ∀ x ∈ q, x < n) : q.length ≤ n.toNat := by
  have hsub : q.map BitVec.toNat ⊆ List.range n.toNat := by
    intro k hk
    obtain ⟨x, hx, rfl⟩ := List.mem_map.mp hk
    exact List.mem_range.mpr (h x hx)
  have hnodup : (q.map BitVec.toNat).Nodup := hq.map fun x y => BitVec.eq_of_toNat_eq
  simpa using (hnodup.subperm hsub).length_le

/-- While sub-trees are left to merge, the leaves are all in use. -/
theorem ForestInv.nsym_le {s : State W} (hs : ForestInv s) : s.nsym.toNat ≤ s.nnode.toNat := by
  have hlen := length_le_of_inUse (nodup_of_rising hs.queueRising) hs.queueInUse
  have := hs.queueSize
  have := hs.count
  have := hs.two
  omega

/-- The state after the nodes `a` and `b` were joined under a new record, with `q` the rest of `PQ` (R80). -/
def joined (a b : Idx) (q : List Idx) (s : State W) : State W :=
  { setNode s.nnode (internalRec ((nodeAt s a).weight + (nodeAt s b).weight) a b) s with
    pq := pqInsert s.nnode q, mleft := s.mleft - 1#9, nnode := s.nnode + 1#9 }

theorem joined_node (a b : Idx) (q : List Idx) (s : State W) : (joined a b q s).node =
    Memory.write NodeRec.blank s.node s.nnode.toNat (internalRec ((nodeAt s a).weight + (nodeAt s b).weight) a b) := rfl

theorem joined_pq (a b : Idx) (q : List Idx) (s : State W) : (joined a b q s).pq = pqInsert s.nnode q := rfl

theorem nodeNo_joined_new (a b : Idx) (q : List Idx) (s : State W) :
    nodeNo (joined a b q s) s.nnode.toNat = internalRec ((nodeAt s a).weight + (nodeAt s b).weight) a b :=
  nodeNo_of_write_same (joined_node a b q s)

theorem nodeNo_joined_old (a b : Idx) (q : List Idx) {s : State W} {k : Nat} (hk : k < s.nnode.toNat) :
    nodeNo (joined a b q s) k = nodeNo s k :=
  nodeNo_of_write_below (joined_node a b q s) hk

theorem toNat_nnode_joined {s : State W} (a b : Idx) (q : List Idx) (hmax : s.nnode.toNat < 511) :
    (joined a b q s).nnode.toNat = s.nnode.toNat + 1 :=
  toNat_add_one_of_lt (by omega)

/-- Joining gives each of the two nodes its parent and changes no other count of parents. -/
theorem parents_joined {s : State W} (a b : Idx) (q : List Idx) (hmax : s.nnode.toNat < 511) (i : Nat) :
    parents (joined a b q s) i = parents s i + if a.toNat = i ∨ b.toNat = i then 1 else 0 := by
  rw [parents_push (toNat_nnode_joined a b q hmax) (fun j => nodeNo_joined_old a b q),
    isChild_of_internalRec (nodeNo_joined_new a b q s)]
  simp

/-- R80: joining two of the sub-trees under a new record leaves a forest with one sub-tree less. -/
theorem ForestInv.join {s : State W} (hs : ForestInv s) {a b : Idx} (ha : a ∈ s.pq) (hb : b ∈ s.pq.erase a)
    (hmax : s.nnode.toNat < 511) (hleft : 1 ≤ s.mleft.toNat) : ForestInv (joined a b ((s.pq.erase a).erase b) s) := by
  have hnodup := nodup_of_rising hs.queueRising
  obtain ⟨hba, hbpq⟩ := hnodup.mem_erase_iff.mp hb
  have hmem : ∀ x, x ∈ (s.pq.erase a).erase b ↔ x ≠ b ∧ x ≠ a ∧ x ∈ s.pq := fun x => by
    rw [(hnodup.erase a).mem_erase_iff, hnodup.mem_erase_iff]
  have hnew : s.nnode ∉ (s.pq.erase a).erase b := fun h =>
    absurd (hs.queueInUse _ ((hmem _).mp h).2.2) (BitVec.lt_irrefl _)
  have halt : a.toNat < s.nnode.toNat := hs.queueInUse a ha
  have hblt : b.toNat < s.nnode.toNat := hs.queueInUse b hbpq
  have hn := toNat_nnode_joined (s := s) a b ((s.pq.erase a).erase b) hmax
  have hm : (s.mleft - 1#9).toNat = s.mleft.toNat - 1 := by bv_omega
  have hold := fun k (hk : k < s.nnode.toNat) => nodeNo_joined_old a b ((s.pq.erase a).erase b) hk
  constructor
  case two => exact hs.two
  case most => exact hs.most
  case count =>
    have := hs.count
    rw [hn]
    show s.nnode.toNat + 1 + (s.mleft - 1#9).toNat = 2 * s.nsym.toNat - 1
    omega
  case leaves => exact hs.leaves.congr fun i hi => hold i (Nat.lt_of_lt_of_le hi hs.nsym_le)
  case internals =>
    rw [hn]
    refine (hs.internals.congr hold).push ?_ hba.symm halt hblt
    simp only [nodeNo_joined_new, nodeAt_eq_nodeNo, hold _ halt, hold _ hblt]
  case queueRising =>
    exact pqInsert_rising ((hs.queueRising.sublist List.erase_sublist).sublist List.erase_sublist)
  case queueInUse =>
    intro x hx
    rw [BitVec.lt_def, hn]
    obtain rfl | hx := mem_pqInsert.mp hx
    · omega
    · exact Nat.lt_succ_of_lt (hs.queueInUse x ((hmem x).mp hx).2.2)
  case queueSize =>
    have := hs.queueSize
    show (pqInsert s.nnode _).length = (s.mleft - 1#9).toNat + 1
    rw [length_pqInsert hnew, List.length_erase_of_mem hb, List.length_erase_of_mem ha]
    omega
  case owned =>
    intro i hi
    rw [hn] at hi
    simp only [parents_joined a b _ hmax, joined_pq, mem_pqInsert, hmem, ne_eq, ofNat9_eq_iff (show i < 512 by omega)]
    obtain hi | rfl := Nat.lt_succ_iff_lt_or_eq.mp hi
    · have hia : i = a.toNat → BitVec.ofNat 9 i ∈ s.pq := fun h => by simpa [h] using ha
      have hib : i = b.toNat → BitVec.ofNat 9 i ∈ s.pq := fun h => by simpa [h] using hbpq
      rw [hs.owned i hi]
      grind
    · rw [parents_of_last hs.leaves hs.internals (by omega)]
      simp [Nat.ne_of_lt halt, Nat.ne_of_lt hblt]

/-- R81: with one sub-tree left the last record is its root, and the tree is finished. -/
theorem ForestInv.treeInv {s : State W} (hs : ForestInv s) (hleft : s.mleft = 0#9) (hroot : s.root = s.nnode - 1#9) :
    TreeInv s := by
  have hcount := hs.count
  have htwo := hs.two
  have hmost := hs.most
  have hzero : s.mleft.toNat = 0 := by simp [hleft]
  have hr : s.root.toNat = s.nnode.toNat - 1 := by rw [hroot]; bv_omega
  obtain ⟨x, hx⟩ := List.length_eq_one_iff.mp (hs.queueSize.trans (by omega))
  have hxroot : s.root = x := by
    have hown := hs.owned s.root.toNat (by omega)
    rw [parents_of_last hs.leaves hs.internals (by omega), BitVec.ofNat_toNat, BitVec.setWidth_eq, hx] at hown
    by_contra hne
    simp [hne] at hown
  refine ⟨.inr (.inr ⟨htwo, hmost, by omega, by omega⟩), hs.leaves, fun _ => hs.internals, fun i hi hne => ?_,
    fun h1 => ?_⟩
  · rw [hs.owned i hi, hx, if_neg]
    rwa [List.mem_singleton, ofNat9_eq_iff (by omega), ← hxroot]
  · simp [h1] at htwo

/-! What each part of BUILD leaves. -/

/-- Outside BUILD the tree invariant is R21. -/
theorem treeStepInv_of_tree {s : State W} (hp : s.phase ≠ .build) (hs : TreeInv s) : TreeStepInv s :=
  ⟨fun _ => hs, (absurd · hp), (absurd · hp)⟩

theorem treeStepInv_of_idle {s : State W} (hp : s.phase = .idle) (hs : TreeInv s) : TreeStepInv s :=
  treeStepInv_of_tree (by simp [hp]) hs

theorem treeStepInv_of_scan {s : State W} (hp : s.phase = .build) (hscan : s.scan < 256#9) (hs : ScanInv s) : TreeStepInv s :=
  ⟨(absurd hp ·), fun _ _ => hs, fun _ h => absurd hscan h⟩

theorem treeStepInv_of_merge {s : State W} (hp : s.phase = .build) (hs : MergeInv s) : TreeStepInv s :=
  ⟨(absurd hp ·), fun _ h => by simp [hs.scanned] at h, fun _ _ => hs⟩

/-- The host's moves and the port events are not what the invariant is about. -/
theorem treeStepInv_ports {s : State W} (h : List HostMove) (e : List (Event W)) (hs : TreeStepInv s) :
    TreeStepInv { s with host := h, events := e } where
  outside hp := (hs.outside hp).congr ⟨rfl, rfl, rfl, rfl⟩
  scanning hp hlt := { hs.scanning hp hlt with leaves := (hs.scanning hp hlt).leaves.congr fun _ _ => rfl }
  merging hp hge := { hs.merging hp hge with leaves := (hs.merging hp hge).leaves.congr fun _ _ => rfl }

theorem treeStepInv_mergeHead {s t : State W} (h : mergeHead s = .next t) (hp : s.phase = .build) (hscan : s.scan = 256#9)
    (hs : ForestInv s) : TreeStepInv t := by
  obtain ⟨hleft, rfl⟩ | ⟨hleft, rfl⟩ := mergeHead_cases h
  · have ht : ForestInv { s with root := s.nnode - 1#9 } := { hs with leaves := hs.leaves.congr fun _ _ => rfl }
    exact treeStepInv_of_idle (by simp) ((ht.treeInv hleft rfl).congr ⟨rfl, rfl, rfl, rfl⟩)
  · exact treeStepInv_of_merge hp (hs.mergeInv hscan (by bv_omega))

theorem treeStepInv_buildMerge {s t : State W} (h : buildMerge s = .next t) (hp : s.phase = .build) (hs : MergeInv s) :
    TreeStepInv t := by
  obtain ⟨a, q, b, q', ha, hb, hmax, h⟩ := buildMerge_cases h
  obtain ⟨hapq, rfl⟩ := extractMin_some ha
  obtain ⟨hbpq, rfl⟩ := extractMin_some hb
  exact treeStepInv_mergeHead h hp hs.scanned (hs.forest.join hapq hbpq hmax hs.left)

theorem treeStepInv_buildRoots {s t : State W} (h : buildRoots s = .next t) (hp : s.phase = .build) (hscan : s.scan = 256#9)
    (hmax : s.nnode.toNat ≤ 256) (hs : LeavesOk s s.nnode.toNat 256) : TreeStepInv t := by
  obtain ⟨hn, -, rfl⟩ | ⟨hn, -, rfl⟩ | ⟨hn, rfl⟩ | ⟨h0, h1, rfl⟩ := buildRoots_cases h
  · exact treeStepInv_of_idle (by simp) (treeInv_null (by simp) (by simp [hn]) (by simp))
  · exact treeStepInv_of_idle (by simp) (treeInv_null rfl hn rfl)
  · have hleaf : LeavesOk s 1 256 := by simpa [hn] using hs
    exact treeStepInv_of_idle (by simp)
      (treeInv_single hleaf (by simp [hn, nodeAt_eq_nodeNo]) rfl (by simp [hn]) rfl)
  · have hmin : 2 ≤ s.nnode.toNat := by bv_omega
    refine treeStepInv_of_merge hp (ForestInv.mergeInv ?_ hscan ?_)
    · exact forestInv_of_leaves hmin hmax (hs.congr fun _ _ => rfl) rfl rfl rfl
    · simp only; bv_omega

/-- After a scan step that has dealt with the symbol `SCAN`. -/
theorem treeStepInv_scanNext {s t : State W} (h : scanNext s = .next t) (hp : s.phase = .build) (hscan : s.scan < 256#9)
    (hcount : s.nnode.toNat ≤ s.scan.toNat + 1) (hs : LeavesOk s s.nnode.toNat (s.scan.toNat + 1)) : TreeStepInv t := by
  obtain ⟨hlast, h⟩ | ⟨hmore, rfl⟩ := scanNext_cases h
  · simp only [hlast] at hcount hs
    exact treeStepInv_buildRoots h hp rfl hcount (hs.congr fun _ _ => rfl)
  · have hnext : (s.scan + 1#9).toNat = s.scan.toNat + 1 := by bv_omega
    refine treeStepInv_of_scan hp (by simp only; bv_omega) ⟨?_, ?_⟩
    · rwa [hnext]
    · rw [hnext]; exact hs.congr fun _ _ => rfl

theorem treeStepInv_buildScan {s t : State W} (h : buildScan s = .next t) (hp : s.phase = .build) (hscan : s.scan < 256#9)
    (hs : ScanInv s) : TreeStepInv t := by
  obtain ⟨hcount, hleaves⟩ := hs
  obtain ⟨-, h⟩ | ⟨hfreq, hmax, h⟩ := buildScan_cases h
  · exact treeStepInv_scanNext h hp hscan (by omega) (hleaves.mono (by omega))
  · have hn : (s.nnode + 1#9).toNat = s.nnode.toNat + 1 := toNat_add_one_of_lt (by omega)
    have hsym : (s.scan.setWidth 8).toNat = s.scan.toNat := by bv_omega
    refine treeStepInv_scanNext h hp hscan ?_ ?_
    · simp only [hn, setNode_scan]; omega
    · simp only [hn, setNode_scan, ← hsym]
      refine (hleaves.congr ?_).push ?_ hfreq (by omega)
      · exact fun i hi => nodeNo_of_write_below rfl hi
      · exact nodeNo_of_write_same (s := s) rfl

theorem treeStepInv_buildMicro {s t : State W} (h : buildMicro s = .next t) (hp : s.phase = .build) (hs : TreeStepInv s) :
    TreeStepInv t := by
  obtain ⟨hscan, h⟩ | ⟨hscan, h⟩ := buildMicro_cases h
  · exact treeStepInv_buildScan h hp hscan (hs.scanning hp hscan)
  · exact treeStepInv_buildMerge h hp (hs.merging hp hscan)

theorem treeStepInv_startBuild {w : Cmd} {s t : State W} (h : startBuild w s = .next t) : TreeStepInv t := by
  cases h
  exact treeStepInv_of_scan rfl (by simp) ⟨Nat.le_refl 0, leavesOk_zero _ 0⟩

theorem treeInv_reset : TreeInv (State.resetAt W) := treeInv_null rfl rfl rfl

theorem treeStepInv_of_runsOrIdle {p : Phase} {s t : State W} (hb : p ≠ .build) (hw : WritesOnly p s t)
    (hr : RunsOrIdle p t) (hs : TreeInv s) : TreeStepInv t := by
  refine treeStepInv_of_tree ?_ (hs.congr (hw.tree hb))
  obtain rfl | hi := hr
  · exact hb
  · simp [hi]

theorem treeStepInv_kept : KeptByEvents (TreeStepInv (W := W)) where
  move s rest := treeStepInv_ports rest s.events
  answer s e := treeStepInv_ports s.host (e :: s.events)
  loadIn _ _ hs hp _ := treeStepInv_of_idle hp ((hs.outside (by simp [hp])).congr ⟨rfl, rfl, rfl, rfl⟩)
  loadBits _ _ hs hp _ := treeStepInv_of_idle hp ((hs.outside (by simp [hp])).congr ⟨rfl, rfl, rfl, rfl⟩)
  reset _ := treeStepInv_of_idle rfl (treeInv_reset.congr ⟨rfl, rfl, rfl, rfl⟩)
  accept s t w hs hp h := by
    by_cases hb : unitOfWord w = .build
    · exact treeStepInv_startBuild (by simpa [hb] using acceptWord_cases hp h)
    · exact treeStepInv_of_runsOrIdle hb (acceptWord_writesOnly hp h) (acceptWord_phase hp h) (hs.outside (by simp [hp]))
  micro s t hs h := by
    by_cases hb : s.phase = .build
    · exact treeStepInv_buildMicro (by simpa only [microStep, hb] using h) hb hs
    · exact treeStepInv_of_runsOrIdle hb (microStep_writesOnly h) (microStep_phase h) (hs.outside hb)

/-- Settles O60: BUILD alone writes the tree; its scan keeps the leaves, its merges the forest, and the last merge leaves the
finished tree. -/
theorem stepKeepsTheTree : Obligations.StepKeepsTheTree :=
  fun _ _ => treeStepInv_kept.of_step

end Sys2Proof.Machine
end

section

namespace Sys2Proof.Machine

variable {W : Nat}

/-! ### R105 to R107, R154: the beats of DECODE -/

theorem decodeWalk_cons_leaf {s : State W} {cur : Idx} {b : Bool} {rest : Bits}
    (h : (nodeAt s ((nodeAt s cur).child b)).kind = .leaf) :
    decodeWalk s cur (b :: rest) =
      ((nodeAt s ((nodeAt s cur).child b)).sym :: (decodeWalk s s.root rest).1, (decodeWalk s s.root rest).2) := by
  simp only [decodeWalk, h]

theorem decodeWalk_cons_internal {s : State W} {cur : Idx} {b : Bool} {rest : Bits}
    (h : (nodeAt s ((nodeAt s cur).child b)).kind = .internal) :
    decodeWalk s cur (b :: rest) = decodeWalk s ((nodeAt s cur).child b) rest := by
  simp only [decodeWalk, h]

/-- The walk DECODE makes from `s` is what has been emitted, then the walk that is left in `u`. Of a root with one child, where no edge
is walked (R108), nothing is said. -/
def WalkSplit (s : State W) (beats : List Byte) (u : State W) : Prop :=
  (nodeAt s s.root).right ≠ nullIdx → s.bits.length = s.blen.toNat →
    decodeWalk s s.root s.bits = (beats ++ (decodeWalk s u.cur (s.bits.drop u.bpos.toNat)).1,
      (decodeWalk s u.cur (s.bits.drop u.bpos.toNat)).2)

/-- DECODE, accepted in `s` with a tree that is not null, has come to `u` and has emitted `beats`. -/
structure DecodeAt (s : State W) (beats : List Byte) (u : State W) : Prop where
  notNull : s.root ≠ nullIdx
  phase : u.phase = .decode
  frame : WritesOnly .decode s u
  out : u.out = beats
  olen : u.out.length = u.olen.toNat
  cursor : u.bpos ≤ s.blen
  few : beats.length ≤ u.bpos.toNat
  events : u.events = (beats.map Event.sym).reverse ++ .accepted 0x5#4 :: s.events
  walked : WalkSplit s beats u

/-- DECODE, accepted in `s`, has completed in `t` after emitting `beats`. -/
structure DecodeEnd (s : State W) (beats : List Byte) (t : State W) : Prop where
  idle : t.phase = .idle
  blen : t.blen = s.blen
  olen : t.out.length = t.olen.toNat
  few : beats.length ≤ s.blen.toNat
  events : t.events = .completed t.err :: ((beats.map Event.sym).reverse ++ .accepted 0x5#4 :: s.events)
  succeeded : t.err = .ok → t.out = beats
  failed : t.err ≠ .ok → t.err = .decoding ∧ t.out = []
  null : s.root = nullIdx → beats = []
  walked : s.root ≠ nullIdx → (nodeAt s s.root).right ≠ nullIdx → s.bits.length = s.blen.toNat →
    beats = (decodeWalk s s.root s.bits).1

/-- While a unit runs DECODE is under way, and in an idle block it has ended. -/
def DecodeRun (s u : State W) : Prop :=
  ∃ beats, (DecodeAt s beats u ∧ u.bpos < u.blen) ∨ DecodeEnd s beats u

section

variable {s u t : State W} {beats : List Byte}

theorem DecodeAt.bits_eq (hu : DecodeAt s beats u) : SameBits s u :=
  hu.frame.bits (by decide)

theorem DecodeAt.root_eq (hu : DecodeAt s beats u) : u.root = s.root := by
  obtain ⟨-, -, -, h⟩ := hu.frame.tree (by decide)
  exact h

theorem DecodeAt.nodeAt_eq (hu : DecodeAt s beats u) (i : Idx) : nodeAt u i = nodeAt s i := by
  obtain ⟨h, -⟩ := hu.frame.tree (by decide)
  exact nodeNo_congr h i.toNat

/-- Past the last bit the walk is over. -/
theorem DecodeAt.walk_over (hu : DecodeAt s beats u) (hend : ¬ u.bpos < u.blen) (hr : (nodeAt s s.root).right ≠ nullIdx)
    (hlen : s.bits.length = s.blen.toNat) : beats = (decodeWalk s s.root s.bits).1 := by
  have hdrop : s.bits.drop u.bpos.toNat = [] := by
    rw [hu.bits_eq.2, BitVec.lt_def] at hend
    exact List.drop_eq_nil_of_le (by omega)
  rw [hu.walked hr hlen, hdrop]
  simp [decodeWalk]

theorem DecodeAt.few_bits (hu : DecodeAt s beats u) : beats.length ≤ s.blen.toNat :=
  Nat.le_trans hu.few hu.cursor

/-- After the last bit, on the root. -/
theorem DecodeAt.finished (hu : DecodeAt s beats u) (hend : ¬ u.bpos < u.blen) : DecodeEnd s beats (finishOk u) where
  idle := rfl
  blen := hu.bits_eq.2
  olen := hu.olen
  few := hu.few_bits
  events := by simp [hu.events]
  succeeded _ := hu.out
  failed := by simp
  null := (absurd · hu.notNull)
  walked _ := hu.walk_over hend

/-- After the last bit, not on the root (R107). -/
theorem DecodeAt.raised (hu : DecodeAt s beats u) (hend : ¬ u.bpos < u.blen) : DecodeEnd s beats (raise .decoding u) where
  idle := rfl
  blen := by simp [hu.phase, hu.bits_eq.2]
  olen := by simp [hu.phase]
  few := hu.few_bits
  events := by simp [hu.events]
  succeeded := by simp
  failed := by simp [hu.phase]
  null := (absurd · hu.notNull)
  walked _ := hu.walk_over hend

theorem decodeRun_decodeHead (hu : DecodeAt s beats u) (h : decodeHead u = .next t) : DecodeRun s t := by
  obtain ⟨hlt, rfl⟩ | ⟨hend, -, rfl⟩ | ⟨hend, -, rfl⟩ := decodeHead_cases h
  · exact ⟨beats, .inl ⟨hu, hlt⟩⟩
  · exact ⟨beats, .inr (hu.finished hend)⟩
  · exact ⟨beats, .inr (hu.raised hend)⟩

theorem decodeAt_decodeStart (hr : s.root ≠ nullIdx) : DecodeAt s [] (decodeStart s) where
  notNull := hr
  phase := rfl
  frame := decodeStart_writesOnly
  out := rfl
  olen := by simp [decodeStart]
  cursor := by simp [decodeStart, BitVec.le_def]
  few := Nat.zero_le _
  events := rfl
  walked _ _ := by simp [decodeStart]

/-- With the null tree DECODE ends at acceptance, with or without an error, and emits nothing (R109). -/
theorem decodeEnd_null (hr : s.root = nullIdx) (hp : t.phase = .idle) (hblen : t.blen = s.blen) (hout : t.out = [])
    (holen : t.olen = 0#_) (herr : t.err = .ok ∨ t.err = .decoding)
    (hev : t.events = .completed t.err :: .accepted 0x5#4 :: s.events) : DecodeEnd s [] t where
  idle := hp
  blen := hblen
  olen := by simp [hout, holen]
  few := Nat.zero_le _
  events := hev
  succeeded _ := hout
  failed he := ⟨herr.resolve_left he, hout⟩
  null _ := rfl
  walked h := absurd hr h

theorem decodeRun_startDecode (h : startDecode s = .next u) : DecodeRun s u := by
  obtain ⟨hr, -, rfl⟩ | ⟨hr, -, rfl⟩ | ⟨hr, h⟩ := startDecode_cases h
  · exact ⟨[], .inr (decodeEnd_null hr rfl rfl rfl rfl (.inl rfl) rfl)⟩
  · exact ⟨[], .inr (decodeEnd_null hr rfl rfl rfl rfl (.inr rfl) rfl)⟩
  · exact decodeRun_decodeHead (decodeAt_decodeStart hr) h

theorem DecodeAt.bpos_succ (hu : DecodeAt s beats u) (hlt : u.bpos < u.blen) :
    (u.bpos + 1#_).toNat = u.bpos.toNat + 1 ∧ u.bpos + 1#_ ≤ s.blen := by
  rw [hu.bits_eq.2, BitVec.lt_def] at hlt
  have hnext : (u.bpos + 1#_).toNat = u.bpos.toNat + 1 := toNat_add_one_of_lt (by have := s.blen.isLt; omega)
  exact ⟨hnext, by rw [BitVec.le_def, hnext]; omega⟩

theorem DecodeAt.drop_bits (hu : DecodeAt s beats u) {b : Bool} (hb : inputBit u = some b) :
    s.bits.drop u.bpos.toNat = b :: s.bits.drop (u.bpos.toNat + 1) := by
  rw [inputBit, hu.bits_eq.1] at hb
  obtain ⟨hlt, rfl⟩ := List.getElem?_eq_some_iff.mp hb
  exact List.drop_eq_getElem_cons hlt

/-- One bit consumed with one symbol emitted. -/
theorem DecodeAt.emitted (hu : DecodeAt s beats u) (hlt : u.bpos < u.blen) (v : Byte) (c : Idx)
    (hw : WalkSplit s (beats ++ [v]) { appendSym v u with cur := c, bpos := u.bpos + 1#_ }) :
    DecodeAt s (beats ++ [v]) { appendSym v u with cur := c, bpos := u.bpos + 1#_ } := by
  obtain ⟨hnext, hle⟩ := hu.bpos_succ hlt
  have hfew := hu.few
  have holen := hu.olen
  have hroom : u.olen.toNat + 1 < 2 ^ Config.wBlen W := by
    rw [← holen, hu.out]
    have := s.blen.isLt
    have : (u.bpos + 1#_).toNat ≤ s.blen.toNat := hle
    omega
  exact {
    notNull := hu.notNull
    phase := hu.phase
    frame := hu.frame.trans (writesOnly_decode ..)
    out := by simp [hu.out]
    olen := by simp [toNat_add_one_of_lt hroom, holen]
    cursor := hle
    few := by simp only [hnext, List.length_append, List.length_singleton]; omega
    events := by simp [hu.events]
    walked := hw }

/-- One bit consumed with no symbol emitted. -/
theorem DecodeAt.moved (hu : DecodeAt s beats u) (hlt : u.bpos < u.blen) (c : Idx)
    (hw : WalkSplit s beats { u with cur := c, bpos := u.bpos + 1#_ }) :
    DecodeAt s beats { u with cur := c, bpos := u.bpos + 1#_ } := by
  obtain ⟨hnext, hle⟩ := hu.bpos_succ hlt
  exact { hu with
    frame := hu.frame.trans (writesOnly_decode ..)
    cursor := hle
    few := by simp only [hnext]; exact Nat.le_succ_of_le hu.few
    walked := hw }

theorem decodeRun_decodeMicro (hu : DecodeAt s beats u) (hlt : u.bpos < u.blen) (h : decodeMicro u = .next t) :
    DecodeRun s t := by
  obtain ⟨hnext, -⟩ := hu.bpos_succ hlt
  obtain ⟨b, hb, -, hcases⟩ := decodeMicro_cases h
  have hdrop := hu.drop_bits hb
  have hroot := hu.root_eq
  simp only [hu.nodeAt_eq] at hcases
  obtain ⟨hone, -, h⟩ | ⟨-, -, -, ⟨hk, h⟩ | ⟨hk, h⟩⟩ := hcases
  · exact decodeRun_decodeHead (hu.emitted hlt _ u.cur fun hr => absurd (hroot ▸ hone) hr) h
  · refine decodeRun_decodeHead (hu.emitted hlt _ u.root fun hr hlen => ?_) h
    rw [hu.walked hr hlen, hdrop, decodeWalk_cons_leaf hk]
    simp only [hnext, hroot, List.append_assoc, List.singleton_append]
  · refine decodeRun_decodeHead (hu.moved hlt _ fun hr hlen => ?_) h
    rw [hu.walked hr hlen, hdrop, decodeWalk_cons_internal hk]
    simp only [hnext]

theorem decodeRun_of_execDecode (hs : s.phase = .idle) (h : execDecode s = .next t) : ∃ beats, DecodeEnd s beats t := by
  rw [execDecode, whenIdle_idle _ hs] at h
  obtain ⟨⟨beats, ⟨hrun, -⟩ | hend⟩, hidle⟩ := start_then_run (DecodeRun s) (fun _ => decodeRun_startDecode) (by
    rintro u v ⟨beats, ⟨hu, hlt⟩ | hend⟩ hp hv
    · exact decodeRun_decodeMicro hu hlt hv
    · exact absurd hend.idle hp) h
  · simp [hrun.phase] at hidle
  · exact ⟨beats, hend⟩

end

/-- With two or more symbols the root has both its children (R21). -/
theorem TreeInv.root_right {s : State W} (hs : TreeInv s) (h2 : 2 ≤ s.nsym.toNat) :
    s.root ≠ nullIdx ∧ (nodeAt s s.root).right ≠ nullIdx := by
  obtain ⟨h, -⟩ | ⟨h, -⟩ | ⟨-, hmost, hnnode, hroot⟩ := hs.regs
  · simp [h] at h2
  · simp [h] at h2
  · obtain ⟨-, -, -, -, hright, -⟩ := hs.internals h2 s.root.toNat (by omega) (by omega)
    rw [← nodeAt_eq_nodeNo] at hright
    refine ⟨fun h => ?_, fun h => ?_⟩
    · simp [h] at hroot; omega
    · simp [h] at hright; omega

/-- Settles O52: a micro-step consumes a bit and emits at most one symbol, and the walk left to make is that of the bits left. -/
theorem decoderEmitsAtMostOneSymbolPerBit : Obligations.DecoderEmitsAtMostOneSymbolPerBit := by
  intro s t hs h
  obtain ⟨beats, hend⟩ := decodeRun_of_execDecode hs h
  refine ⟨hend.olen, ?_, beats, hend.few, hend.events, hend.succeeded, hend.failed, hend.null, fun hinv h2 hlen => ?_⟩
  · rw [BitVec.le_def, ← hend.olen, hend.blen]
    by_cases he : t.err = .ok
    · rw [hend.succeeded he]; exact hend.few
    · simp [(hend.failed he).2]
  · obtain ⟨hroot, hright⟩ := hinv.root_right h2
    exact hend.walked hroot hright hlen

/-! ### R34: the reset state -/

/-- Settles O1: every element of the table is a field of the literal reset state or a read of an empty table. -/
theorem resetLeavesTheEmptyBlock : Obligations.ResetLeavesTheEmptyBlock :=
  ⟨rfl, rfl, rfl, rfl, fun _ => rfl, rfl, rfl, rfl, fun _ => rfl, fun _ => rfl, rfl, rfl, rfl, rfl, rfl, rfl, rfl, rfl, rfl⟩

theorem controlInv_reset : ControlInv (State.resetAt W) :=
  ⟨(absurd rfl ·), fun _ => rfl, fun _ => rfl, fun _ => rfl⟩

theorem freqSum_of_empty {s : State W} (h : s.freq = []) : freqSum s = 0 := by
  simp [freqSum, freqAt, h]

theorem countInv_reset : CountInv (State.resetAt W) where
  fits := by rw [freqSum_of_empty rfl]; exact Nat.zero_le _
  pos := nofun
  sum := nofun

/-- Settles O2: the tables and sequences are empty, no unit runs, and the tree is the null tree. -/
theorem resetMeetsEveryInvariant : Obligations.ResetMeetsEveryInvariant :=
  ⟨memWf_reset, lenInv_of_idle rfl lenOk_reset, controlInv_reset, countInv_reset, codeBitsInv_of_empty rfl,
    treeStepInv_of_tree (by decide) treeInv_reset⟩

/-! ### R32: the host registers -/

/-- A host read of a register while idle (R119). -/
theorem step_rdReg {s : State} {n : BitVec 3} {rest : List HostMove} (hp : s.phase = .idle)
    (hh : s.host = .access (.rdReg n) :: rest) :
    step s = .next { s with host := rest, events := .answer (.reg (hostReg s n)) :: s.events } := by
  rw [step_access hh, hostAccess, if_pos hp]
  rfl

/-- R117: a command written while a unit runs is only answered. -/
theorem step_wrCmd_busy {s : State} {w : Cmd} {rest : List HostMove} (hp : s.phase ≠ .idle)
    (hh : s.host = .access (.wrReg 0#3 w) :: rest) :
    step s = .next { s with host := rest, events := .answer .notAccepted :: s.events } := by
  rw [step_access hh, hostAccess, if_neg hp]
  rfl

/-- Settles O20: an access is answered from the state, a write to a read-only number is passed over, and a write while busy is only
answered. -/
theorem hostRegistersReadAsListed : Obligations.HostRegistersReadAsListed := by
  refine ⟨fun s n rest hp hh => ⟨hostReg s n, step_rdReg hp hh, ?_⟩, fun s n w rest hp hn hh => ?_,
    fun s w rest hp hh => ⟨_, step_wrCmd_busy hp hh, rfl⟩, by decide⟩
  · refine ⟨?_, ?_, ?_, ?_, ?_, ?_, ?_, ?_⟩ <;> rintro rfl <;> rfl
  · rw [step_access hh, hostAccess, if_pos hp]
    exact if_neg hn

end Sys2Proof.Machine
end


/-! PROOFS of the family `20_memory.md`: every step keeps the tables canonical (R35), a load replaces a sequence and its length
(R46), and a busy block admits only a read of `STATUS` (R45). -/

section

namespace Sys2Proof.Machine

variable {W : Nat}

/-! ### R35, R37, R38: the canonical form of the tables

Only COUNT, BUILD and GEN write a table; they clear it, write an entry named by a byte, or allocate a record below the capacity. -/

theorem memWf_congr {s t : State W} (hf : t.freq = s.freq) (hn : t.node = s.node) (hc : t.code = s.code) (hs : MemWf s) :
    MemWf t := by
  simpa only [MemWf, hf, hn, hc] using hs

/-- ENCODE, DECODE and what runs no unit write no table (R36). -/
theorem memWf_of_writesOnly {p : Phase} {s t : State W} (hw : WritesOnly p s t) (hc : p ≠ .count) (hb : p ≠ .build)
    (hg : p ≠ .gen) (hs : MemWf s) : MemWf t := by
  obtain ⟨hnode, -⟩ := hw.tree hb
  exact memWf_congr (hw.freq hc) hnode (hw.code hg) hs

theorem memWf_of_writes_nothing {s t : State W} (hw : WritesOnly .idle s t) (hs : MemWf s) : MemWf t :=
  memWf_of_writesOnly hw nofun nofun nofun hs

theorem memWf_startCount {s t : State W} (h : startCount s = .next t) (hs : MemWf s) : MemWf t := by
  obtain ⟨-, hnode, hcode⟩ := hs
  exact memWf_of_writes_nothing (countHead_writesOnly h) ⟨Memory.wf_nil _ _, hnode, hcode⟩

theorem memWf_countMicro {s t : State W} (h : countMicro s = .next t) (hs : MemWf s) : MemWf t := by
  obtain ⟨b, -, h⟩ := countMicro_cases h
  exact memWf_of_writes_nothing (countHead_writesOnly h) (memWf_setFreq b _ hs)

theorem memWf_startGen {s t : State W} (h : startGen s = .next t) (hs : MemWf s) : MemWf t := by
  obtain ⟨hfreq, hnode, -⟩ := hs
  obtain ⟨-, h⟩ | ⟨-, -, -, h⟩ := startGen_cases h
  · exact memWf_of_writes_nothing (genHead_writesOnly h) ⟨hfreq, hnode, Memory.wf_nil _ _⟩
  · exact memWf_of_writes_nothing (genHead_writesOnly h) ⟨hfreq, hnode, Memory.wf_nil _ _⟩

theorem memWf_genMicro {s t : State W} (h : genMicro s = .next t) (hs : MemWf s) : MemWf t := by
  obtain ⟨-, rfl⟩ | ⟨n, p, rest, -, -, -, ⟨-, h⟩ | ⟨-, h⟩⟩ := genMicro_cases h
  · exact hs
  · exact memWf_of_writes_nothing (genHead_writesOnly h) (memWf_setCode _ (CodeEnt.ofPath p) hs)
  · exact memWf_of_writes_nothing (genHead_writesOnly h) hs

theorem memWf_startBuild {w : Cmd} {s t : State W} (h : startBuild w s = .next t) (hs : MemWf s) : MemWf t := by
  cases h
  exact hs

/-- The synthesized root of a tree of one leaf is record 1. -/
theorem memWf_buildRoots {s t : State W} (h : buildRoots s = .next t) (hs : MemWf s) : MemWf t := by
  obtain ⟨-, -, rfl⟩ | ⟨-, -, rfl⟩ | ⟨hone, rfl⟩ | ⟨-, -, rfl⟩ := buildRoots_cases h
  · exact memWf_congr (by simp) (by simp) (by simp) hs
  · exact hs
  · exact memWf_setNode s.nnode (internalRec (nodeAt s 0#9).weight 0#9 nullIdx) (by simp [hone]) hs
  · exact hs

theorem memWf_scanNext {s t : State W} (h : scanNext s = .next t) (hs : MemWf s) : MemWf t := by
  obtain ⟨-, h⟩ | ⟨-, rfl⟩ := scanNext_cases h
  · exact memWf_buildRoots h hs
  · exact hs

theorem memWf_mergeHead {s t : State W} (h : mergeHead s = .next t) (hs : MemWf s) : MemWf t := by
  obtain ⟨-, rfl⟩ | ⟨-, rfl⟩ := mergeHead_cases h
  · exact hs
  · exact hs

theorem memWf_buildMicro {s t : State W} (h : buildMicro s = .next t) (hs : MemWf s) : MemWf t := by
  obtain ⟨-, h⟩ | ⟨-, h⟩ := buildMicro_cases h
  · obtain ⟨-, h⟩ | ⟨-, hroom, h⟩ := buildScan_cases h
    · exact memWf_scanNext h hs
    · exact memWf_scanNext h (memWf_setNode s.nnode _ hroom hs)
  · obtain ⟨a, q, b, q', -, -, hroom, h⟩ := buildMerge_cases h
    exact memWf_mergeHead h (memWf_setNode s.nnode (internalRec (_ + _) a b) hroom hs)

theorem memWf_acceptWord {w : Cmd} {s t : State W} (h : acceptWord w s = .next t) (hp : s.phase = .idle) (hs : MemWf s) :
    MemWf t := by
  obtain ⟨-, _, _, rfl⟩ | ⟨-, h⟩ | ⟨-, h⟩ | ⟨-, h⟩ | ⟨-, h⟩ | ⟨-, h⟩ := acceptWord_cases hp h
  · exact hs
  · exact memWf_startCount h hs
  · exact memWf_startBuild h hs
  · exact memWf_startGen h hs
  · exact memWf_of_writesOnly (startEncode_writesOnly h) nofun nofun nofun hs
  · exact memWf_of_writesOnly (startDecode_writesOnly h) nofun nofun nofun hs

theorem memWf_microStep {s t : State W} (h : microStep s = .next t) (hs : MemWf s) : MemWf t := by
  by_cases hc : s.phase = .count
  · exact memWf_countMicro (by simpa only [microStep, hc] using h) hs
  by_cases hb : s.phase = .build
  · exact memWf_buildMicro (by simpa only [microStep, hb] using h) hs
  by_cases hg : s.phase = .gen
  · exact memWf_genMicro (by simpa only [microStep, hg] using h) hs
  exact memWf_of_writesOnly (microStep_writesOnly h) hc hb hg hs

theorem memWf_kept : KeptByEvents (MemWf (W := W)) where
  move _ _ hs := hs
  answer _ _ hs := hs
  loadIn _ _ hs _ _ := hs
  loadBits _ _ hs _ _ := hs
  reset _ := memWf_reset
  accept _ _ _ hs hp h := memWf_acceptWord h hp hs
  micro _ _ hs h := memWf_microStep h hs

/-- Settles O55: a table is only ever cleared or written at an index in range, and a write keeps the canonical form. -/
theorem stepKeepsTablesCanonical : Obligations.StepKeepsTablesCanonical :=
  fun _ _ => memWf_kept.of_step

/-! ### R45, R46: the host's accesses -/

theorem step_access_idle {s : State} {a : Access} {rest : List HostMove} (hp : s.phase = .idle)
    (hh : s.host = .access a :: rest) : step s = idleAccess a { s with host := rest } :=
  (step_access hh).trans (if_pos hp)

theorem step_access_busy {s : State} {a : Access} {rest : List HostMove} (hp : s.phase ≠ .idle)
    (hh : s.host = .access a :: rest) : step s = .next (busyAccess a { s with host := rest }) :=
  (step_access hh).trans (if_neg hp)

/-- Two cases told apart by a bound, each read as an implication. -/
theorem imp_and_imp_of_le_or_lt {n m : Nat} {p q : Prop} (h : (n ≤ m ∧ p) ∨ (m < n ∧ q)) : (n ≤ m → p) ∧ (m < n → q) := by
  obtain ⟨hle, hp⟩ | ⟨hlt, hq⟩ := h
  · exact ⟨fun _ => hp, fun hlt => absurd hle (Nat.not_le.mpr hlt)⟩
  · exact ⟨fun hle => absurd hle (Nat.not_le.mpr hlt), fun _ => hq⟩

/-- Settles O22: a load is taken whole or refused, and an admitted length fits its register. -/
theorem loadsReplaceSequenceAndLength : Obligations.LoadsReplaceSequenceAndLength := by
  refine ⟨fun s seq rest hp hh => ?_, fun s seq rest hp hh => ?_⟩
  · rw [step_access_idle hp hh, idleAccess]
    obtain ⟨taken, refused⟩ := imp_and_imp_of_le_or_lt (loadIn_cases seq { s with host := rest })
    exact ⟨fun hle => ⟨_, taken hle, (length_eq_toNat_ofNat hle).symm, rfl⟩, refused⟩
  · rw [step_access_idle hp hh, idleAccess]
    obtain ⟨taken, refused⟩ := imp_and_imp_of_le_or_lt (loadBits_cases seq { s with host := rest })
    exact ⟨fun hle => ⟨_, taken hle, (length_eq_toNat_ofNat hle).symm, rfl⟩, refused⟩

/-- Settles O23: a busy block answers a read of `STATUS` and no other access. -/
theorem busyBlockAdmitsOnlyStatus : Obligations.BusyBlockAdmitsOnlyStatus := by
  intro s a rest hp hh
  rw [step_access_busy hp hh, busyAccess]
  constructor
  · intro hstatus
    rw [if_pos hstatus]
    rfl
  · intro hother
    rw [if_neg hother]
    rfl

end Sys2Proof.Machine
end


/-! PROOFS of the family `30_encoding.md`: the control state every step keeps (R58, R28, R29), the bit formats (R54 to R62, R70), the
reserved words (R57), the pseudo-operations (R68), and the lengths of the codes (R65). -/

section

namespace Sys2Proof.Machine

variable {W : Nat}

/-! ### R58, R28, R29: the control state

A unit works on the hidden state of its own phase; acceptance clears `DONE`, and completion sets it and empties the hidden state. -/

theorem controlInv_of_idle {s : State W} (hp : s.phase = .idle) (hq : s.pq = []) (hk : s.stk = []) (hb : s.beat = false) :
    ControlInv s :=
  ⟨(absurd hp ·), fun _ => hq, fun _ => hk, fun _ => hb⟩

theorem controlInv_finishOk (s : State W) : ControlInv (finishOk s) :=
  controlInv_of_idle rfl rfl rfl rfl

theorem controlInv_raise (e : Err) (s : State W) : ControlInv (raise e s) :=
  controlInv_of_idle rfl rfl rfl rfl

section

variable {s t : State W}

/-- In an idle block the hidden state is empty, and acceptance leaves it so. -/
theorem controlInv_accept (w : Cmd) (p : Phase) (hp : s.phase = .idle) (hs : ControlInv s) : ControlInv (accept w p s) where
  busyNotDone _ := rfl
  queue _ := hs.queue (by simp [hp])
  stack _ := hs.stack (by simp [hp])
  place _ := hs.place (by simp [hp])

/-! A loop head goes on with the state it has or ends the operation. -/

theorem controlInv_countHead (h : countHead s = .next t) (hs : ControlInv s) : ControlInv t := by
  obtain ⟨-, rfl⟩ | ⟨-, rfl⟩ := countHead_cases h
  · exact hs
  · exact controlInv_finishOk s

theorem controlInv_genHead (h : genHead s = .next t) (hs : ControlInv s) : ControlInv t := by
  obtain ⟨-, rfl⟩ | ⟨-, rfl⟩ := genHead_cases h
  · exact controlInv_finishOk s
  · exact hs

theorem controlInv_encodeHead (h : encodeHead s = .next t) (hs : ControlInv s) : ControlInv t := by
  obtain ⟨-, rfl⟩ | ⟨-, rfl⟩ := encodeHead_cases h
  · exact hs
  · exact controlInv_finishOk s

theorem controlInv_decodeHead (h : decodeHead s = .next t) (hs : ControlInv s) : ControlInv t := by
  obtain ⟨-, rfl⟩ | ⟨-, -, rfl⟩ | ⟨-, -, rfl⟩ := decodeHead_cases h
  · exact hs
  · exact controlInv_finishOk s
  · exact controlInv_raise _ s

theorem controlInv_mergeHead (h : mergeHead s = .next t) (hs : ControlInv s) : ControlInv t := by
  obtain ⟨-, rfl⟩ | ⟨-, rfl⟩ := mergeHead_cases h
  · exact controlInv_finishOk _
  · exact hs

/-- The first `PQ` is put in place during BUILD. -/
theorem controlInv_buildRoots (h : buildRoots s = .next t) (hp : s.phase = .build) (hs : ControlInv s) : ControlInv t := by
  obtain ⟨-, -, rfl⟩ | ⟨-, -, rfl⟩ | ⟨-, rfl⟩ | ⟨-, -, rfl⟩ := buildRoots_cases h
  · exact controlInv_raise _ _
  · exact controlInv_finishOk _
  · exact controlInv_finishOk _
  · exact { hs with queue := absurd hp }

theorem controlInv_scanNext (h : scanNext s = .next t) (hp : s.phase = .build) (hs : ControlInv s) : ControlInv t := by
  obtain ⟨-, h⟩ | ⟨-, rfl⟩ := scanNext_cases h
  · exact controlInv_buildRoots h hp { hs with }
  · exact { hs with }

/-! Acceptance and step 0 of each unit. -/

theorem controlInv_startCount (h : startCount s = .next t) (hp : s.phase = .idle) (hs : ControlInv s) : ControlInv t :=
  controlInv_countHead h { controlInv_accept (encode .count) .count hp hs with }

theorem controlInv_startBuild {w : Cmd} (h : startBuild w s = .next t) (hp : s.phase = .idle) (hs : ControlInv s) :
    ControlInv t := by
  cases h
  exact { controlInv_accept w .build hp hs with }

theorem controlInv_startGen (h : startGen s = .next t) (hp : s.phase = .idle) (hs : ControlInv s) : ControlInv t := by
  have ha := controlInv_accept (encode .gen) .gen hp hs
  obtain ⟨-, h⟩ | ⟨-, -, -, h⟩ := startGen_cases h
  · exact controlInv_genHead h { ha with stack := absurd rfl }
  · exact controlInv_genHead h { ha with stack := absurd rfl }

theorem controlInv_startEncode (h : startEncode s = .next t) (hp : s.phase = .idle) (hs : ControlInv s) : ControlInv t :=
  controlInv_encodeHead h { controlInv_accept (encode .encode) .encode hp hs with place := absurd rfl }

theorem controlInv_startDecode (h : startDecode s = .next t) (hp : s.phase = .idle) (hs : ControlInv s) : ControlInv t := by
  obtain ⟨-, -, rfl⟩ | ⟨-, -, rfl⟩ | ⟨-, h⟩ := startDecode_cases h
  · exact controlInv_finishOk _
  · exact controlInv_raise _ _
  · exact controlInv_decodeHead h { controlInv_accept (encode .decode) .decode hp hs with }

theorem controlInv_acceptWord {w : Cmd} (h : acceptWord w s = .next t) (hp : s.phase = .idle) (hs : ControlInv s) :
    ControlInv t := by
  obtain ⟨-, _, v, rfl⟩ | ⟨-, h⟩ | ⟨-, h⟩ | ⟨-, h⟩ | ⟨-, h⟩ | ⟨-, h⟩ := acceptWord_cases hp h
  · exact { controlInv_accept v .idle hp hs with busyNotDone := absurd rfl }
  · exact controlInv_startCount h hp hs
  · exact controlInv_startBuild h hp hs
  · exact controlInv_startGen h hp hs
  · exact controlInv_startEncode h hp hs
  · exact controlInv_startDecode h hp hs

/-! The micro-steps of each unit. -/

theorem controlInv_countMicro (h : countMicro s = .next t) (hs : ControlInv s) : ControlInv t := by
  obtain ⟨b, -, h⟩ := countMicro_cases h
  exact controlInv_countHead h { hs with }

theorem controlInv_buildMicro (h : buildMicro s = .next t) (hp : s.phase = .build) (hs : ControlInv s) : ControlInv t := by
  obtain ⟨-, h⟩ | ⟨-, h⟩ := buildMicro_cases h
  · obtain ⟨-, h⟩ | ⟨-, -, h⟩ := buildScan_cases h
    · exact controlInv_scanNext h hp hs
    · exact controlInv_scanNext h hp { hs with }
  · obtain ⟨a, q, b, q', -, -, -, h⟩ := buildMerge_cases h
    exact controlInv_mergeHead h { hs with queue := absurd hp }

theorem controlInv_genMicro (h : genMicro s = .next t) (hp : s.phase = .gen) (hs : ControlInv s) : ControlInv t := by
  obtain ⟨-, rfl⟩ | ⟨n, p, rest, -, -, -, ⟨-, h⟩ | ⟨-, h⟩⟩ := genMicro_cases h
  · exact controlInv_finishOk s
  · exact controlInv_genHead h { hs with stack := absurd hp }
  · exact controlInv_genHead h { hs with stack := absurd hp }

theorem controlInv_encodeMicro (h : encodeMicro s = .next t) (hp : s.phase = .encode) (hs : ControlInv s) : ControlInv t := by
  obtain ⟨b, -, ⟨-, -, rfl⟩ | ⟨-, -, rfl⟩ | ⟨-, -, rfl⟩ | ⟨-, -, h⟩⟩ := encodeMicro_cases h
  · exact controlInv_raise _ s
  · exact { hs with place := absurd hp }
  · exact { hs with }
  · exact controlInv_encodeHead h { hs with place := absurd hp }

theorem controlInv_decodeMicro (h : decodeMicro s = .next t) (hs : ControlInv s) : ControlInv t := by
  obtain ⟨b, -, -, ⟨-, -, h⟩ | ⟨-, -, -, ⟨-, h⟩ | ⟨-, h⟩⟩⟩ := decodeMicro_cases h
  · exact controlInv_decodeHead h { hs with }
  · exact controlInv_decodeHead h { hs with }
  · exact controlInv_decodeHead h { hs with }

theorem controlInv_microStep (h : microStep s = .next t) (hs : ControlInv s) : ControlInv t := by
  unfold microStep at h
  split at h
  case h_1 => cases h; exact hs
  case h_2 => exact controlInv_countMicro h hs
  case h_3 hp => exact controlInv_buildMicro h hp hs
  case h_4 hp => exact controlInv_genMicro h hp hs
  case h_5 hp => exact controlInv_encodeMicro h hp hs
  case h_6 => exact controlInv_decodeMicro h hs

end

theorem controlInv_kept : KeptByEvents (ControlInv (W := W)) where
  move _ _ hs := { hs with }
  answer _ _ hs := { hs with }
  loadIn _ _ hs _ _ := { hs with }
  loadBits _ _ hs _ _ := { hs with }
  reset _ := { controlInv_reset (W := W) with }
  accept _ _ _ hs hp h := controlInv_acceptWord h hp hs
  micro _ _ hs h := controlInv_microStep h hs

/-- Settles O57: acceptance clears `DONE`, each unit touches only its own hidden state, and completion empties it. -/
theorem stepKeepsControlConsistent : Obligations.StepKeepsControlConsistent :=
  fun _ _ => controlInv_kept.of_step

end Sys2Proof.Machine
end

section

namespace Sys2Proof.Machine

variable {W : Nat}

/-! ### R54 to R57, R70: the command words -/

/-- R57, R70: the nine reserved words. -/
theorem decode_reserved {w : Cmd} (hw : w ∈ [0x6#4, 0x7#4, 0x8#4, 0x9#4, 0xB#4, 0xC#4, 0xD#4, 0xE#4, 0xF#4]) :
    decode w = .error (.reserved w) := by
  revert w
  decide

/-- A word that decodes to a command is that command's word. -/
theorem encode_of_decode {w : Cmd} {i : Instr} (h : decode w = .ok i) : encode i = w := by
  revert w
  cases i <;> decide

/-- A word decodes exactly when its selector is assigned and its strict flag stands only with BUILD. -/
theorem decode_isOk_eq_wf : ∀ w : Cmd, (decode w).isOk = CmdFields.wf ⟨w.getLsbD 3, w.extractLsb' 0 3⟩ := by
  decide

theorem exists_decode_iff_isOk (w : Cmd) : (∃ i, decode w = .ok i) ↔ (decode w).isOk = true := by
  cases decode w with
  | ok i => simp [Except.isOk, Except.toBool]
  | error e => simp [Except.isOk, Except.toBool]

/-- Settles O4: the seven assigned words one by one, and the list of the reserved ones. -/
theorem commandWordsDecodeAsListed : Obligations.CommandWordsDecodeAsListed :=
  ⟨rfl, rfl, rfl, rfl, rfl, rfl, rfl, fun _ => decode_reserved⟩

/-- Settles O5: the word of a command decodes to it, and the sixteen words decode as their fields say. -/
theorem encodingAndDecodingAgree : Obligations.EncodingAndDecodingAgree :=
  ⟨decode_encode, fun _ _ => encode_of_decode, fun w => by rw [exists_decode_iff_isOk, decode_isOk_eq_wf]⟩

/-! ### R60, R61: the bit formats of the entries

A field is found by passing over the fields above it and below it. -/

theorem NodeRec.pack_kind (r : NodeRec W) : r.pack.extractLsb' 0 1 = r.kind.bit := by
  rw [NodeRec.pack, BitVec.extractLsb'_cast, BitVec.extractLsb'_append_eq_of_add_le (by decide),
    BitVec.extractLsb'_append_eq_of_add_le (by decide), BitVec.extractLsb'_append_eq_of_add_le (by decide)]
  exact BitVec.extractLsb'_append_eq_right

theorem NodeRec.pack_sym (r : NodeRec W) : r.pack.extractLsb' 1 8 = r.sym := by
  rw [NodeRec.pack, BitVec.extractLsb'_cast, BitVec.extractLsb'_append_eq_of_add_le (by decide),
    BitVec.extractLsb'_append_eq_of_add_le (by decide), BitVec.extractLsb'_append_eq_of_add_le (by decide)]
  exact BitVec.extractLsb'_append_eq_left

theorem NodeRec.pack_left (r : NodeRec W) : r.pack.extractLsb' 9 9 = r.left := by
  rw [NodeRec.pack, BitVec.extractLsb'_cast, BitVec.extractLsb'_append_eq_of_add_le (by decide),
    BitVec.extractLsb'_append_eq_of_add_le (by decide)]
  exact BitVec.extractLsb'_append_eq_left

theorem NodeRec.pack_right (r : NodeRec W) : r.pack.extractLsb' 18 9 = r.right := by
  rw [NodeRec.pack, BitVec.extractLsb'_cast, BitVec.extractLsb'_append_eq_of_add_le (by decide)]
  exact BitVec.extractLsb'_append_eq_left

theorem NodeRec.pack_weight (r : NodeRec W) : r.pack.extractLsb' 27 W = r.weight := by
  rw [NodeRec.pack, BitVec.extractLsb'_cast]
  exact BitVec.extractLsb'_append_eq_left

theorem CodeEnt.pack_len (c : CodeEnt) : c.pack.extractLsb' 0 8 = c.len :=
  BitVec.extractLsb'_append_eq_right

theorem CodeEnt.pack_bits (c : CodeEnt) (j : Nat) : c.pack.getLsbD (8 + j) = c.bits.getLsbD j := by
  rw [CodeEnt.pack, BitVec.getLsbD_append, if_neg (by omega), Nat.add_sub_cancel_left]

/-- Settles O6: each field by its own lemma. -/
theorem entryFormatsPlaceTheirFields : Obligations.EntryFormatsPlaceTheirFields :=
  ⟨fun r => ⟨r.pack_kind, r.pack_sym, r.pack_left, r.pack_right, r.pack_weight⟩,
    fun c => ⟨c.pack_len, fun j _ => c.pack_bits j⟩⟩

/-! ### R62: the entry of a path -/

theorem ofPath_len {p : Bits} (hp : p.length ≤ 255) : (CodeEnt.ofPath p).len.toNat = p.length := by
  simp only [CodeEnt.ofPath, BitVec.toNat_ofNat]
  omega

theorem ofPath_bits {p : Bits} (hp : p.length ≤ 255) {j : Nat} (hj : j < p.length) :
    (CodeEnt.ofPath p).bits.getLsbD j = p[j] := by
  have hwidth : j < 255 := Nat.lt_of_lt_of_le hj hp
  simp only [CodeEnt.ofPath, BitVec.getLsbD_ofNat, testBit_pathNumber]
  simp [hwidth, hj]

/-- R62: read in order, the bits of the entry built from a path are the path. -/
theorem string_ofPath {p : Bits} (hp : p.length ≤ 255) : (CodeEnt.ofPath p).string = p := by
  refine List.ext_getElem ?_ fun j _ hj => ?_
  · simp [CodeEnt.string, ofPath_len hp]
  · simp [CodeEnt.string, ofPath_bits hp hj]

/-- Settles O7: bit `j` of a path's number is edge `j`, and a path of at most 255 edges fits the entry. -/
theorem entryOfPathAssemblesThePath : Obligations.EntryOfPathAssemblesThePath := by
  intro p hp
  have hlen := ofPath_len hp
  exact ⟨hlen, string_ofPath hp, fun j hj => ofPath_bits hp hj,
    fun j hj => ofPath_unused_bits p hp j (by omega)⟩

/-! ### R58: `STATUS` -/

theorem statusWord_busy (s : State W) : (statusWord s).getLsbD 0 = decide (s.phase ≠ .idle) := by
  simp only [statusWord, BitVec.getLsbD_append]
  simp [busy]

theorem statusWord_done (s : State W) : (statusWord s).getLsbD 1 = s.done := by
  simp only [statusWord, BitVec.getLsbD_append]
  simp

theorem statusWord_err (s : State W) : (statusWord s).extractLsb' 2 3 = s.err.toCode := by
  rw [statusWord, BitVec.extractLsb'_append_eq_of_le (by decide), BitVec.extractLsb'_append_eq_of_le (by decide)]
  exact BitVec.extractLsb'_append_eq_right

theorem statusWord_phase (s : State W) : (statusWord s).extractLsb' 5 3 = s.phase.toCode := by
  rw [statusWord, BitVec.extractLsb'_append_eq_of_le (by decide), BitVec.extractLsb'_append_eq_of_le (by decide)]
  exact BitVec.extractLsb'_append_eq_left

/-- In an idle block that is done `STATUS` shows the error and nothing else. -/
theorem statusWord_of_completed {s : State W} (hp : s.phase = .idle) (hd : s.done = true) :
    statusWord s = 0#3 ++ s.err.toCode ++ 0b10#2 := by
  simp only [statusWord, busy, hp, hd]
  cases s.err <;> rfl

theorem ControlInv.not_busy_and_done {s : State W} (hs : ControlInv s) :
    ¬((statusWord s).getLsbD 0 = true ∧ (statusWord s).getLsbD 1 = true) := by
  rintro ⟨hbusy, hdone⟩
  rw [statusWord_busy, decide_eq_true_eq] at hbusy
  rw [statusWord_done, hs.busyNotDone hbusy] at hdone
  cases hdone

/-- Settles O19: the four fields of the word, and the control invariant for `BUSY` and `DONE`. -/
theorem statusWordShowsItsFields : Obligations.StatusWordShowsItsFields := by
  refine ⟨fun s => ⟨statusWord_busy s, statusWord_done s, statusWord_err s, statusWord_phase s⟩,
    ⟨rfl, rfl, rfl, rfl, rfl⟩, ⟨rfl, rfl, rfl, rfl, rfl, rfl⟩, fun s => ControlInv.not_busy_and_done,
    fun s hp hd he => ?_⟩
  rw [statusWord_of_completed hp hd, he]
  rfl

/-! ### R57: the reserved words -/

theorem reservedWord_idle {s : State W} (w : Cmd) (hp : s.phase = .idle) : reservedWord w s = .next (takeIllegal w s) :=
  whenIdle_idle _ hp

theorem statusWord_takeIllegal (w : Cmd) (s : State W) : statusWord (takeIllegal w s) = 0x12#8 := by
  have herr : (takeIllegal w s).err = .illegalCmd := rfl
  rw [statusWord_of_completed rfl rfl, herr]
  rfl

/-- A reserved word that comes while idle, by a command line or by a plain write to `CMD`, is taken as one. -/
theorem step_reserved {s : State} {w : Cmd} {rest : List HostMove} (hw : decode w = .error (.reserved w)) (hp : s.phase = .idle)
    (hh : s.host = .line w :: rest ∨ s.host = .access (.wrReg 0#3 w) :: rest) :
    step s = .next (takeIllegal w { s with host := rest }) := by
  obtain hh | hh := hh
  · rw [step_line hh, runLine, hw]
    exact reservedWord_idle w hp
  · rw [step_access hh, hostAccess_wrCmd_idle (s := { s with host := rest }) w hp, acceptWord, hw]
    exact reservedWord_idle w hp

/-- Settles O11: both moves report `ILLEGAL_CMD` by acceptance and completion, which write the control state alone. -/
theorem reservedWordOnlyReports : Obligations.ReservedWordOnlyReports := by
  intro s w rest hw hp hh
  refine ⟨_, step_reserved (decode_reserved hw) hp hh, rfl, rfl, rfl, statusWord_takeIllegal .., rfl,
    ⟨rfl, rfl, rfl, rfl⟩, rfl, ⟨rfl, rfl⟩, ⟨rfl, rfl⟩, ⟨rfl, rfl⟩, ⟨rfl, rfl, rfl, rfl, rfl, rfl, rfl, rfl, rfl⟩, rfl⟩

/-! ### R68: the pseudo-operations -/

theorem step_lineIfOk {s : State} {w : Cmd} {rest : List HostMove} (hh : s.host = .lineIfOk w :: rest) :
    step s = runLineIfOk exec w { s with host := rest } := by
  simp only [step, stepWith, fetchMove_cons hh]

/-- Settles O9: a later line is passed over after an error, and without one it is run as an ordinary line. -/
theorem pseudoOperationsStopAtTheFirstError : Obligations.PseudoOperationsStopAtTheFirstError := by
  refine ⟨fun seq => rfl, fun seq => rfl, fun s w rest hh => ?_⟩
  have hline : step { s with host := .line w :: rest } = runLine exec w { s with host := rest } := step_line rfl
  rw [step_lineIfOk hh, hline]
  exact ⟨fun he => if_neg he, fun he => if_pos he⟩

end Sys2Proof.Machine
end

section

namespace Sys2Proof.Machine

variable {W : Nat}

/-! ### R90: walks down the tree -/

/-- A walk of one edge or more leaves an internal record in use by a child that is there. -/
theorem walk_cons {s : State W} {n m : Idx} {b : Bool} {p : Bits} :
    walk s n (b :: p) = some m ↔
      n < s.nnode ∧ (nodeAt s n).kind = .internal ∧ (nodeAt s n).child b ≠ nullIdx ∧ walk s ((nodeAt s n).child b) p = some m := by
  rw [walk]
  split
  · rename_i hnone
    simp only [useNode, ite_eq_right_iff, reduceCtorEq, imp_false] at hnone
    simp [hnone]
  · rename_i r hr
    obtain ⟨hlt, rfl⟩ := useNode_eq_some.mp hr
    simp [hlt, and_assoc]

/-- A walk goes on by one edge. -/
theorem walk_snoc {s : State W} {n m : Idx} {b : Bool} {p : Bits} (h : walk s n p = some m) (hlt : m < s.nnode)
    (hk : (nodeAt s m).kind = .internal) (hc : (nodeAt s m).child b ≠ nullIdx) :
    walk s n (p ++ [b]) = some ((nodeAt s m).child b) := by
  induction p generalizing n with
  | nil =>
    obtain rfl : n = m := by simpa [walk] using h
    exact walk_cons.mpr ⟨hlt, hk, hc, rfl⟩
  | cons a p ih =>
    obtain ⟨hn, hkn, hcn, h⟩ := walk_cons.mp h
    exact walk_cons.mpr ⟨hn, hkn, hcn, ih h⟩

/-- No edge leaves a leaf. -/
theorem eq_nil_of_walk_leaf {s : State W} {n m : Idx} {p : Bits} (hk : (nodeAt s n).kind = .leaf) (h : walk s n p = some m) :
    p = [] := by
  cases p with
  | nil => rfl
  | cons b p =>
    obtain ⟨-, hint, -⟩ := walk_cons.mp h
    rw [hk] at hint
    cases hint

theorem InternalsOk.child_lt {s : State W} {n m : Nat} (hs : InternalsOk s n m) {i : Idx} (hn : n ≤ i.toNat) (hm : i.toNat < m)
    (b : Bool) : ((nodeAt s i).child b).toNat < i.toNat := by
  obtain ⟨-, -, -, hleft, hright, -⟩ := hs i.toNat hn hm
  cases b with
  | false => exact hleft
  | true => exact hright

/-- Every edge goes to an earlier record, and only the last one to a leaf: so a walk from record `n` has at most as many edges as
there are internal records up to `n`. -/
theorem TreeInv.walk_length_le {s : State W} (hs : TreeInv s) (h2 : 2 ≤ s.nsym.toNat) {n m : Idx} {p : Bits}
    (hn : s.nsym.toNat ≤ n.toNat) (h : walk s n p = some m) : p.length + s.nsym.toNat ≤ n.toNat + 1 := by
  induction p generalizing n with
  | nil => exact Nat.le_succ_of_le (by simpa using hn)
  | cons b p ih =>
    obtain ⟨hlt, -, -, h⟩ := walk_cons.mp h
    have hchild := (hs.internals h2).child_lt hn hlt b
    rw [List.length_cons]
    by_cases hc : s.nsym.toNat ≤ ((nodeAt s n).child b).toNat
    · have := ih hc h
      omega
    · obtain rfl := eq_nil_of_walk_leaf (hs.leaves.isLeaf _ (by omega)).1 h
      simp only [List.length_nil]
      omega

/-- R65: with N at least 2 symbols no walk from the root has more than N - 1 edges. -/
theorem TreeInv.walk_root_length_le {s : State W} (hs : TreeInv s) (h2 : 2 ≤ s.nsym.toNat) {m : Idx} {p : Bits}
    (h : walk s s.root p = some m) : p.length ≤ s.nsym.toNat - 1 := by
  obtain ⟨hone, -⟩ | ⟨hone, -⟩ | ⟨-, -, -, hroot⟩ := hs.regs
  · simp [hone] at h2
  · simp [hone] at h2
  · have := hs.walk_length_le h2 (by omega) h
    omega

/-- R84: from the synthesized root one edge can be walked, the left one to the leaf. -/
theorem TreeInv.walk_of_single {s : State W} (hs : TreeInv s) (h1 : s.nsym = 1#9) {m : Idx} {b : Bool} {p : Bits}
    (h : walk s s.root (b :: p) = some m) : b = false ∧ p = [] := by
  have hroot : s.root = 1#9 := by
    obtain ⟨h, -⟩ | ⟨-, -, h⟩ | ⟨h, -⟩ := hs.regs
    · simp [h1] at h
    · exact h
    · simp [h1] at h
  have hrec : nodeAt s s.root = internalRec (nodeNo s 0).weight 0#9 nullIdx := by
    rw [hroot]
    exact hs.single h1
  have hleaf : (nodeAt s 0#9).kind = .leaf := (hs.leaves.isLeaf 0 (by simp [h1])).1
  obtain ⟨-, -, hnull, h⟩ := walk_cons.mp h
  rw [hrec] at hnull h
  cases b with
  | false => exact ⟨rfl, eq_nil_of_walk_leaf hleaf h⟩
  | true => exact absurd rfl hnull

/-! ### R89: GEN records walks

Whatever the arena holds, each pair on `STK` is a node with a walk to it, and each entry written is the walk to a leaf. -/

/-- The entry `c` is the path of a walk from the root to a leaf with the symbol `b`. -/
def IsLeafCode (s : State W) (b : Byte) (c : CodeEnt) : Prop :=
  ∃ (i : Idx) (p : Bits), i < s.nnode ∧ (nodeAt s i).kind = .leaf ∧ (nodeAt s i).sym = b ∧ p.length ≤ 255 ∧
    walk s s.root p = some i ∧ c = CodeEnt.ofPath p

/-- GEN, accepted in `s`, has come to `u`. A pair with `NULL` names no node, and GEN pops none. -/
structure GenWalks (s u : State W) : Prop where
  tree : SameTree s u
  stack : ∀ n p, (n, p) ∈ u.stk → n ≠ nullIdx → walk s s.root p = some n
  codes : ∀ b, codeAt u b = CodeEnt.absent ∨ IsLeafCode s b (codeAt u b)

section

variable {s t u : State W}

theorem mem_genChildren {r : NodeRec W} {p q : Bits} {n : Idx} (h : (n, q) ∈ genChildren r p) :
    ∃ b, n = r.child b ∧ q = p ++ [b] := by
  have hmem : (n, q) = (r.left, p ++ [false]) ∨ (n, q) = (r.right, p ++ [true]) := by
    unfold genChildren at h
    split at h
    · exact .inl (List.mem_singleton.mp h)
    · simpa using h
  obtain h | h := hmem
  · cases h; exact ⟨false, rfl, rfl⟩
  · cases h; exact ⟨true, rfl, rfl⟩

theorem genWalks_genHead (h : genHead u = .next t) (hu : GenWalks s u) : GenWalks s t := by
  obtain ⟨-, rfl⟩ | ⟨-, rfl⟩ := genHead_cases h
  · exact ⟨hu.tree, nofun, hu.codes⟩
  · exact hu

theorem genWalks_startGen (h : startGen s = .next u) : GenWalks s u := by
  obtain ⟨-, h⟩ | ⟨-, -, -, h⟩ := startGen_cases h
  · exact genWalks_genHead h ⟨⟨rfl, rfl, rfl, rfl⟩, nofun, fun _ => .inl rfl⟩
  · refine genWalks_genHead h ⟨⟨rfl, rfl, rfl, rfl⟩, fun n p hmem _ => ?_, fun _ => .inl rfl⟩
    cases List.mem_singleton.mp hmem
    rfl

theorem ne_nullIdx_of_lt {n m : Idx} (h : n < m) : n ≠ nullIdx := by
  bv_omega

theorem genWalks_genMicro (hu : GenWalks s u) (h : genMicro u = .next t) : GenWalks s t := by
  obtain ⟨hnode, -, hnnode, -⟩ := hu.tree
  have hno : ∀ i, nodeAt u i = nodeAt s i := fun i => nodeNo_congr hnode i.toNat
  obtain ⟨-, rfl⟩ | ⟨n, p, rest, hstk, hp, hlt, hcases⟩ := genMicro_cases h
  · exact ⟨hu.tree, nofun, hu.codes⟩
  have htop : walk s s.root p = some n := hu.stack n p (by simp [hstk]) (ne_nullIdx_of_lt hlt)
  have hrest : ∀ m q, (m, q) ∈ rest → m ≠ nullIdx → walk s s.root q = some m :=
    fun m q hmem => hu.stack m q (by simp [hstk, hmem])
  rw [hnnode] at hlt
  rw [hno] at hcases
  obtain ⟨hk, h⟩ | ⟨hk, h⟩ := hcases
  · refine genWalks_genHead h ⟨hu.tree, hrest, fun b => ?_⟩
    show codeAt (setCode _ _ u) b = _ ∨ IsLeafCode s b (codeAt (setCode _ _ u) b)
    rw [codeAt_setCode]
    split
    · rename_i hb
      exact .inr ⟨n, p, hlt, hk, hb.symm, hp, htop, rfl⟩
    · exact hu.codes b
  · refine genWalks_genHead h ⟨hu.tree, fun m q hmem hm => ?_, hu.codes⟩
    obtain hmem | hmem := List.mem_append.mp hmem
    · obtain ⟨b, rfl, rfl⟩ := mem_genChildren hmem
      exact walk_snoc htop hlt hk hm
    · exact hrest m q hmem hm

/-- Every entry in the table GEN leaves is the walk to a leaf with its symbol. -/
theorem codes_of_execGen (hs : s.phase = .idle) (h : execGen s = .next t) (b : Byte) :
    codeAt t b = CodeEnt.absent ∨ IsLeafCode s b (codeAt t b) := by
  rw [execGen, whenIdle_idle _ hs] at h
  obtain ⟨ht, -⟩ := start_then_run (GenWalks s) (fun _ => genWalks_startGen) (fun _ _ hu _ => genWalks_genMicro hu) h
  exact ht.codes b

end

/-- Settles O40: an entry is the walk to a leaf, and the tree bounds how far a walk can go. -/
theorem codeLengthsAreBounded : Obligations.CodeLengthsAreBounded := by
  intro s t b hs hinv h
  obtain habsent | ⟨i, p, hi, -, -, hp, hwalk, hcode⟩ := codes_of_execGen hs h b
  · simp [habsent]
  have hlen : (codeAt t b).len.toNat = p.length := by rw [hcode, ofPath_len hp]
  have hpos : (codeAt t b).len ≠ 0#8 → 1 ≤ p.length := fun hne => by rw [← hlen]; bv_omega
  refine ⟨fun h0 => ?_, fun hne h1 => ?_, fun hne h2 => ?_⟩
  · obtain ⟨-, hnnode, -⟩ | ⟨h1, -⟩ | ⟨h2, -⟩ := hinv.regs
    · simp [hnnode] at hi
    · simp [h0] at h1
    · simp [h0] at h2
  · rw [hcode, string_ofPath hp]
    cases p with
    | nil => exact absurd (hpos hne) (Nat.not_succ_le_zero 0)
    | cons c p =>
      obtain ⟨rfl, rfl⟩ := hinv.walk_of_single h1 hwalk
      rfl
  · rw [hlen]
    exact ⟨hpos hne, hinv.walk_root_length_le h2 hwalk, hp⟩

end Sys2Proof.Machine
end

/-! PROOFS of the family `40_frequency_counter.md`: COUNT computes the histogram of `IN` (R71, R73), micro-step by micro-step
(R72), and no count overflows (R74). -/

section

namespace Sys2Proof.Machine

variable {W : Nat}

/-! ### R74: the sum of the entries of `FREQ` -/

theorem freqSum_eq_sum (s : State W) :
    freqSum s = ∑ i ∈ Finset.range Config.nsymMax, (freqAt s (BitVec.ofNat 8 i)).toNat := rfl

theorem freqSum_congr {s t : State W} (h : t.freq = s.freq) : freqSum t = freqSum s := by
  simp only [freqSum, freqAt_congr h]

theorem freqAt_le_freqSum (s : State W) (b : Byte) : (freqAt s b).toNat ≤ freqSum s := by
  have h := Finset.single_le_sum (f := fun i => (freqAt s (BitVec.ofNat 8 i)).toNat) (fun _ _ => Nat.zero_le _)
    (Finset.mem_range.mpr b.isLt)
  rwa [BitVec.ofNat_toNat, BitVec.setWidth_eq, ← freqSum_eq_sum] at h

/-- Where one entry is larger by 1, so is the sum. -/
theorem freqSum_succ {s t : State W} (b : Byte)
    (h : ∀ c, (freqAt t c).toNat = (freqAt s c).toNat + if c = b then 1 else 0) : freqSum t = freqSum s + 1 := by
  have hone : ∑ i ∈ Finset.range Config.nsymMax, (if BitVec.ofNat 8 i = b then 1 else 0) = 1 := by
    rw [Finset.sum_eq_single_of_mem b.toNat (Finset.mem_range.mpr b.isLt)]
    · simp
    · intro i hi hne
      rw [Finset.mem_range] at hi
      exact if_neg fun h => hne (by rw [← h, BitVec.toNat_ofNat, Nat.mod_eq_of_lt hi])
  rw [freqSum_eq_sum t, Finset.sum_congr rfl fun i _ => h (BitVec.ofNat 8 i), Finset.sum_add_distrib, hone, freqSum_eq_sum]

/-! ### R72: one byte counted -/

/-- The loop body of COUNT for the byte `b`: its entry incremented, `IPOS` moved on. -/
def countByte (b : Byte) (s : State W) : State W :=
  { setFreq b (freqAt s b + 1#_) s with ipos := s.ipos + 1#_ }

theorem countMicro_of_inputByte {s : State W} {b : Byte} (h : inputByte s = some b) :
    countMicro s = countHead (countByte b s) := by
  simp only [countMicro, h, countByte]

/-- While the entries sum to less than `LEN_MAX`, incrementing one does not wrap. -/
theorem freqAt_countByte {s : State W} (b : Byte) (hsum : freqSum s + 1 < 2 ^ W) (c : Byte) :
    (freqAt (countByte b s) c).toNat = (freqAt s c).toNat + if c = b then 1 else 0 := by
  have hle := freqAt_le_freqSum s b
  have hset : freqAt (countByte b s) c = if c = b then freqAt s b + 1#_ else freqAt s c := freqAt_setFreq s b c _
  rw [hset]
  split
  next hc => rw [hc, toNat_add_one_of_lt (by omega)]
  next => rfl

theorem freqSum_countByte {s : State W} (b : Byte) (hsum : freqSum s + 1 < 2 ^ W) :
    freqSum (countByte b s) = freqSum s + 1 :=
  freqSum_succ b (freqAt_countByte b hsum)

/-! ### R74, R86: what every step keeps of the counts -/

theorem countInv_of_not_counting {s t : State W} (hp : t.phase ≠ .count) (hf : t.freq = s.freq) (hs : CountInv s) :
    CountInv t :=
  ⟨by rw [freqSum_congr hf]; exact hs.fits, (absurd · hp), (absurd · hp)⟩

theorem countInv_countHead {s t : State W} (h : countHead s = .next t) (hfits : freqSum s ≤ Config.lenMax W)
    (hsum : freqSum s = s.ipos.toNat) : CountInv t := by
  obtain ⟨hlt, rfl⟩ | ⟨-, rfl⟩ := countHead_cases h
  · exact ⟨hfits, fun _ => hlt, fun _ => hsum⟩
  · exact ⟨hfits, nofun, nofun⟩

theorem countInv_startCount {s t : State W} (h : startCount s = .next t) : CountInv t := by
  refine countInv_countHead h ?_ ?_
  · rw [freqSum_of_empty rfl]; exact Nat.zero_le _
  · rw [freqSum_of_empty rfl]; simp

/-- `IPOS` below `ILEN` is what leaves room for one more count. -/
theorem countInv_countMicro {s t : State W} (hp : s.phase = .count) (hs : CountInv s) (h : countMicro s = .next t) :
    CountInv t := by
  obtain ⟨b, -, h⟩ := countMicro_cases h
  have hlt : s.ipos.toNat < s.ilen.toNat := hs.pos hp
  have hlen := s.ilen.isLt
  have hsum := hs.sum hp
  have hnext : freqSum (countByte b s) = s.ipos.toNat + 1 := by rw [freqSum_countByte b (by omega), hsum]
  refine countInv_countHead h ?_ ?_
  · exact hnext.trans_le (by rw [Config.lenMax]; omega)
  · exact hnext.trans (toNat_add_one_of_lt (by omega)).symm

theorem countInv_kept : KeptByEvents (CountInv (W := W)) where
  move _ _ hs := { hs with }
  answer _ _ hs := { hs with }
  loadIn s _ hs hp _ := countInv_of_not_counting (s := s) (by simp [hp]) rfl hs
  loadBits _ _ hs _ _ := { hs with }
  reset _ := { countInv_reset (W := W) with }
  accept s t w hs hp h := by
    by_cases hw : unitOfWord w = .count
    · exact countInv_startCount (by simpa [hw] using acceptWord_cases hp h)
    · refine countInv_of_not_counting ?_ ((acceptWord_writesOnly hp h).freq hw) hs
      obtain hr | hr := acceptWord_phase hp h <;> simp [hr, hw]
  micro s t hs h := by
    by_cases hp : s.phase = .count
    · exact countInv_countMicro hp hs (by simpa only [microStep, hp] using h)
    · refine countInv_of_not_counting ?_ ((microStep_writesOnly h).freq hp) hs
      obtain hr | hr := microStep_phase h <;> simp [hr, hp]

/-- Settles O58: inside COUNT the entries sum to `IPOS`, which stays below `ILEN` until COUNT ends, and no other unit writes
`FREQ`. -/
theorem stepKeepsCountsInRange : Obligations.StepKeepsCountsInRange :=
  fun _ _ => countInv_kept.of_step

/-! ### R10: micro-steps as the run of one unit -/

/-- Micro-steps of the sequencer that end in an idle block are micro-steps of the unit its phase selects. -/
theorem runUnit_of_microSteps {micro : State W → Result W} {p : Phase} (select : ∀ s, s.phase = p → microStep s = micro s) :
    ∀ (n : Nat) (s t : State W), RunsOrIdle p s → microSteps n s = .next t → t.phase = .idle →
      runUnit micro n s = .next t := by
  intro n
  induction n with
  | zero =>
    intro s t _ h ht
    cases h
    exact runUnit_idle micro 0 ht
  | succ n ih =>
    intro s t hs h ht
    by_cases hi : s.phase = .idle
    · rw [runUnit_idle micro _ hi, ← h, microSteps_idle _ hi]
    · obtain ⟨u, hu, hut⟩ := andThen_eq_next.mp h
      have hrun := ih u t (hs.resolve_right hi ▸ microStep_phase hu) hut ht
      rw [runUnit_succ micro n hi, ← select s (hs.resolve_right hi), hu, andThen_next, hrun]

/-! ### R71, R72: the run of COUNT -/

/-- COUNT started in `s` has counted the first `k` bytes of `IN` into `FREQ` (R72). -/
structure Tallied (s : State W) (k : Nat) (u : State W) : Prop where
  frame : WritesOnly .count s u
  counts : ∀ b, (freqAt u b).toNat = (s.input.take k).count b
  sum : freqSum u = k

/-- COUNT started in `s` is about to test its loop after `k` bytes. -/
structure CountAt (s : State W) (k : Nat) (u : State W) : Prop extends Tallied s k u where
  phase : u.phase = .count
  strict : u.sLatch = false
  cursor : u.ipos.toNat = k

/-- After `k` bytes COUNT is running with bytes left, or it has completed with none left. -/
def CountRun (s : State W) (k : Nat) (u : State W) : Prop :=
  (k < s.ilen.toNat ∧ CountAt s k u) ∨ (k = s.ilen.toNat ∧ Completed 0x1#4 .ok s u ∧ Tallied s k u)

section

variable {s u : State W} {k : Nat}

theorem CountRun.tallied (h : CountRun s k u) : Tallied s k u :=
  h.elim (·.2.toTallied) (·.2.2)

theorem CountRun.completed (h : CountRun s s.ilen.toNat u) : Completed 0x1#4 .ok s u :=
  h.elim (absurd ·.1 (Nat.lt_irrefl _)) (·.2.1)

theorem CountAt.finished (hu : CountAt s k u) : Completed 0x1#4 .ok s (finishOk u) where
  idle := rfl
  done := rfl
  err := rfl
  strict := hu.strict
  host := hu.frame.host
  queue := rfl
  stack := rfl

theorem countRun_countHead (hu : CountAt s k u) (hk : k ≤ s.ilen.toNat) : ∃ t, countHead u = .next t ∧ CountRun s k t := by
  have hilen : u.ilen = s.ilen := hu.frame.input.2
  have hcursor := hu.cursor
  by_cases hlt : u.ipos < u.ilen
  · refine ⟨u, if_pos hlt, .inl ⟨?_, hu⟩⟩
    rw [BitVec.lt_def, hilen] at hlt
    omega
  · refine ⟨finishOk u, if_neg hlt, .inr ⟨?_, hu.finished, hu.frame.trans finishOk_writesOnly, hu.counts, hu.sum⟩⟩
    rw [BitVec.lt_def, hilen] at hlt
    omega

/-- R71: whatever `FREQ` held, acceptance clears it. -/
theorem countRun_startCount (s : State W) : ∃ t, startCount s = .next t ∧ CountRun s 0 t := by
  refine countRun_countHead ?_ (Nat.zero_le _)
  exact {
    frame := (accept_writesOnly (encode .count) .count).trans (writesOnly_count ..)
    counts := fun b => by simp [freqAt]
    sum := freqSum_of_empty rfl
    phase := rfl
    strict := rfl
    cursor := by simp }

/-- R72: one more byte counted. -/
theorem CountAt.countByte (hu : CountAt s k u) (hk : k + 1 < 2 ^ W) {b : Byte} (hb : s.input[k]? = some b) :
    CountAt s (k + 1) (countByte b u) where
  frame := hu.frame.trans (writesOnly_count ..)
  counts c := by
    rw [freqAt_countByte b (by rwa [hu.sum]), hu.counts, List.take_add_one, hb, Option.toList_some, List.count_append,
      List.count_singleton]
    simp only [beq_iff_eq, eq_comm (a := b)]
  sum := by rw [freqSum_countByte b (by rwa [hu.sum]), hu.sum]
  phase := hu.phase
  strict := hu.strict
  cursor := by
    have hcursor := hu.cursor
    exact (toNat_add_one_of_lt (by omega)).trans (by rw [hcursor])

theorem countRun_countMicro (hlen : s.ilen.toNat ≤ s.input.length) (hu : CountAt s k u) (hk : k < s.ilen.toNat) :
    ∃ t, countMicro u = .next t ∧ CountRun s (k + 1) t := by
  have hb : s.input[k]? = some s.input[k] := List.getElem?_eq_getElem (by omega)
  have hread : inputByte u = some s.input[k] := by rw [inputByte, hu.frame.input.1, hu.cursor, hb]
  rw [countMicro_of_inputByte hread]
  exact countRun_countHead (hu.countByte (by have := s.ilen.isLt; omega) hb) hk

/-- R72: what holds after micro-step `k`. -/
theorem countRun_microSteps (hlen : s.ilen.toNat ≤ s.input.length) (hk : k ≤ s.ilen.toNat) :
    ∃ t, andThen (startCount s) (microSteps k) = .next t ∧ CountRun s k t := by
  obtain ⟨u, hstart, hu⟩ := countRun_startCount s
  rw [hstart, andThen_next]
  clear hstart
  induction k with
  | zero => exact ⟨u, rfl, hu⟩
  | succ k ih =>
    obtain ⟨v, hv, hrun⟩ := ih (by omega)
    obtain ⟨hlt, hat⟩ | ⟨heq, -⟩ := hrun
    · obtain ⟨t, ht, hnext⟩ := countRun_countMicro hlen hat hlt
      refine ⟨t, ?_, hnext⟩
      rw [microSteps_add, hv, andThen_next, microSteps, microStep, hat.phase]
      simp only [ht, andThen_next, microSteps]
    · omega

/-- R71: COUNT in an idle block completes, with all of `IN` counted. -/
theorem countRun_execCount (hp : s.phase = .idle) (hlen : s.ilen.toNat ≤ s.input.length) :
    ∃ t, execCount s = .next t ∧ CountRun s s.ilen.toNat t := by
  obtain ⟨t, h, hrun⟩ := countRun_microSteps hlen le_rfl
  obtain ⟨u, hu, ht⟩ := andThen_eq_next.mp h
  refine ⟨t, ?_, hrun⟩
  rw [execCount, whenIdle_idle _ hp, hu, andThen_next]
  exact runUnit_of_microSteps (fun s hs => by simp only [microStep, hs]) _ u t (startCount_phase hu) ht hrun.completed.idle

end

/-- Settles O24: COUNT completes after `ILEN` micro-steps, with the first `ILEN` bytes counted. -/
theorem countComputesTheHistogram : Obligations.CountComputesTheHistogram := by
  refine ⟨fun s hp hlen => ?_, fun s hp h0 => ?_⟩
  · obtain ⟨t, ht, hrun⟩ := countRun_execCount hp hlen.ge
    obtain ⟨frame, hcounts, -⟩ := hrun.tallied
    refine ⟨t, ht, hrun.completed, fun b => ?_, frame.input, frame.tree nofun, frame.code nofun, frame.bits nofun,
      frame.out nofun⟩
    rw [hcounts, ← hlen, List.take_length]
  · obtain ⟨t, ht, hrun⟩ := countRun_execCount hp (by simp [h0])
    refine ⟨t, ht, hrun.completed.err, fun b => BitVec.eq_of_toNat_eq ?_⟩
    rw [hrun.tallied.counts]
    simp [h0]

/-- Settles O25: the entries sum to `ILEN`, which is no more than `LEN_MAX`, so no entry can wrap. -/
theorem countsSumToTheLengthWithoutOverflow : Obligations.CountsSumToTheLengthWithoutOverflow := by
  intro W s t hp hlen h
  obtain ⟨u, hu, hrun⟩ := countRun_execCount hp hlen.ge
  cases hu.symm.trans h
  obtain ⟨-, hcounts, hsum⟩ := hrun.tallied
  refine ⟨hsum, fun b => ?_, fun b hall => ?_⟩
  · exact (freqAt_le_freqSum t b).trans_eq hsum
  · rw [hcounts, ← hlen, List.take_length, hall, List.count_replicate_self]

/-- Settles O26: the invariant of COUNT's loop, kept by each micro-step. -/
theorem countMicroStepsKeepTheirInvariant : Obligations.CountMicroStepsKeepTheirInvariant := by
  intro s k hp hlen hk
  obtain ⟨t, ht, hrun⟩ := countRun_microSteps hlen.ge hk
  obtain ⟨-, hcounts, hsum⟩ := hrun.tallied
  refine ⟨t, ht, hcounts, hsum, fun hlt => ?_, fun heq => ?_⟩
  · obtain ⟨-, hat⟩ | ⟨heq, -⟩ := hrun
    · exact ⟨hat.phase, hat.cursor⟩
    · omega
  · subst heq
    exact hrun.completed.idle

end Sys2Proof.Machine
end

/-! PROOFS of the family `41_tree_builder.md`: the key order and the merges it decides (R79, R80), and the one run of BUILD from which
the statements about its result follow (R76, R77, R81 to R87). -/

section

namespace Sys2Proof.Machine

variable {W : Nat}

/-! ### R79: the four tests -/

section

variable {node : Memory (NodeRec W)} {x y : Idx} {p q : NodeRec W}

theorem before_of_weight_ne (hp : Memory.read NodeRec.blank node x.toNat = p)
    (hq : Memory.read NodeRec.blank node y.toNat = q) (h : p.weight ≠ q.weight) :
    before node x y = decide (p.weight < q.weight) := by
  simp [before, hp, hq, h]

theorem before_of_leaves (hp : Memory.read NodeRec.blank node x.toNat = p)
    (hq : Memory.read NodeRec.blank node y.toNat = q) (h : p.weight = q.weight) (hkp : p.kind = .leaf) (hkq : q.kind = .leaf) :
    before node x y = decide (p.sym < q.sym) := by
  simp [before, hp, hq, h, hkp, hkq]

theorem before_of_internal_leaf (hp : Memory.read NodeRec.blank node x.toNat = p)
    (hq : Memory.read NodeRec.blank node y.toNat = q) (h : p.weight = q.weight) (hkp : p.kind = .internal)
    (hkq : q.kind = .leaf) : before node x y = true := by
  simp [before, hp, hq, h, hkp, hkq]

theorem before_of_leaf_internal (hp : Memory.read NodeRec.blank node x.toNat = p)
    (hq : Memory.read NodeRec.blank node y.toNat = q) (h : p.weight = q.weight) (hkp : p.kind = .leaf)
    (hkq : q.kind = .internal) : before node x y = false := by
  simp [before, hp, hq, h, hkp, hkq]

theorem before_of_internals (hp : Memory.read NodeRec.blank node x.toNat = p)
    (hq : Memory.read NodeRec.blank node y.toNat = q) (h : p.weight = q.weight) (hkp : p.kind = .internal)
    (hkq : q.kind = .internal) : before node x y = decide (x < y) := by
  simp [before, hp, hq, h, hkp, hkq]

/-- No node that comes before another weighs more. -/
theorem weight_le_of_before (h : before node x y = true) :
    (Memory.read NodeRec.blank node x.toNat).weight.toNat ≤ (Memory.read NodeRec.blank node y.toNat).weight.toNat := by
  by_cases hw : (Memory.read NodeRec.blank node x.toNat).weight = (Memory.read NodeRec.blank node y.toNat).weight
  · rw [hw]
  · rw [before_of_weight_ne rfl rfl hw, decide_eq_true_eq] at h
    exact Nat.le_of_lt h

end

/-! ### R79: the order of the keys -/

theorem keyLt_trans {a b c : Nat × Nat × Nat} (hab : keyLt a b) (hbc : keyLt b c) : keyLt a c := by
  unfold keyLt at *
  omega

theorem keyLt_asymm {a b : Nat × Nat × Nat} (hab : keyLt a b) : ¬ keyLt b a := by
  unfold keyLt at *
  omega

/-- The index tells any two keys apart. -/
theorem nodeKey_lt_or_lt (node : Memory (NodeRec W)) {x y : Idx} (h : x ≠ y) :
    keyLt (nodeKey node x) (nodeKey node y) ∨ keyLt (nodeKey node y) (nodeKey node x) := by
  have hidx : (nodeKey node x).2.2 ≠ (nodeKey node y).2.2 := fun he => h (BitVec.eq_of_toNat_eq he)
  unfold keyLt
  omega

/-- On the records below `m` the four tests decide as the keys do. -/
def KeyOrdered (node : Memory (NodeRec W)) (m : Nat) : Prop :=
  ∀ x y : Idx, x.toNat < m → y.toNat < m → (before node x y = true ↔ keyLt (nodeKey node x) (nodeKey node y))

/-- Rising symbols put the leaves in the order of their indices. -/
theorem LeavesOk.sym_lt_iff {s : State W} {n top i j : Nat} (hs : LeavesOk s n top) (hi : i < n) (hj : j < n) :
    (nodeNo s i).sym < (nodeNo s j).sym ↔ i < j := by
  rw [BitVec.lt_def]
  obtain h | rfl | h := Nat.lt_trichotomy i j
  · simp [h, hs.rising i j h hj]
  · simp
  · have := hs.rising j i h hi
    omega

/-- R79: in an arena laid out as R43 says `before` is the lexicographic order of the keys. -/
theorem keyOrdered_of_arena {s : State W} {n m top : Nat} (hl : LeavesOk s n top) (hi : InternalsOk s n m) :
    KeyOrdered s.node m := by
  intro x y hx hy
  have hkind : ∀ i : Idx, i.toNat < m → (i.toNat < n ∧ (nodeAt s i).kind = .leaf) ∨
      (n ≤ i.toNat ∧ (nodeAt s i).kind = .internal) := fun i him => by
    by_cases hin : i.toNat < n
    · exact .inl ⟨hin, (hl.isLeaf _ hin).1⟩
    · exact .inr ⟨Nat.le_of_not_lt hin, (hi _ (Nat.le_of_not_lt hin) him).1⟩
  simp only [nodeAt] at hkind
  by_cases hw : (nodeAt s x).weight = (nodeAt s y).weight
  · have hw' := congrArg BitVec.toNat hw
    simp only [nodeAt] at hw'
    obtain ⟨hxn, hkx⟩ | ⟨hxn, hkx⟩ := hkind x hx <;> obtain ⟨hyn, hky⟩ | ⟨hyn, hky⟩ := hkind y hy
    · rw [before_of_leaves rfl rfl hw hkx hky, decide_eq_true_eq]
      have hsym := hl.sym_lt_iff hxn hyn
      simpa [keyLt, nodeKey, hw', hkx, hky, nodeNo] using hsym
    · rw [before_of_leaf_internal rfl rfl hw hkx hky]
      simp [keyLt, nodeKey, hw', hkx, hky]
    · rw [before_of_internal_leaf rfl rfl hw hkx hky]
      simp [keyLt, nodeKey, hw', hkx, hky]
    · rw [before_of_internals rfl rfl hw hkx hky, decide_eq_true_eq, BitVec.lt_def]
      simp [keyLt, nodeKey, hw', hkx, hky]
  · have hne : (nodeAt s x).weight.toNat ≠ (nodeAt s y).weight.toNat := fun h => hw (BitVec.eq_of_toNat_eq h)
    rw [before_of_weight_ne rfl rfl hw, decide_eq_true_eq, BitVec.lt_def]
    exact (or_iff_left fun h => hne h.1).symm

theorem ForestInv.keyOrdered {s : State W} (hs : ForestInv s) : KeyOrdered s.node s.nnode.toNat :=
  keyOrdered_of_arena hs.leaves hs.internals

section

variable {node : Memory (NodeRec W)} {m : Nat} {x y z : Idx}

theorem KeyOrdered.trans (hk : KeyOrdered node m) (hx : x.toNat < m) (hy : y.toNat < m) (hz : z.toNat < m)
    (hxy : before node x y = true) (hyz : before node y z = true) : before node x z = true :=
  (hk x z hx hz).mpr (keyLt_trans ((hk x y hx hy).mp hxy) ((hk y z hy hz).mp hyz))

/-- Of two different nodes exactly one comes before the other. -/
theorem KeyOrdered.iff_not (hk : KeyOrdered node m) (hx : x.toNat < m) (hy : y.toNat < m) (hne : x ≠ y) :
    before node x y = true ↔ ¬ before node y x = true := by
  rw [hk x y hx hy, hk y x hy hx]
  exact ⟨keyLt_asymm, (nodeKey_lt_or_lt node hne).resolve_right⟩

end

/-- Settles O32: the four tests one by one; the keys are the order, and keys of different nodes differ in their index. -/
theorem beforeIsTheKeyOrder : Obligations.BeforeIsTheKeyOrder := by
  refine ⟨fun node x y => ⟨fun h => ?_, fun h hkp hkq => ?_, fun h hkp hkq => ⟨?_, ?_⟩, fun h hkp hkq => ?_⟩,
    fun s n m hl hi x y z hx hy hz hne => ?_⟩
  · rw [before_of_weight_ne rfl rfl h, decide_eq_true_eq]
  · rw [before_of_leaves rfl rfl h hkp hkq, decide_eq_true_eq]
  · exact before_of_internal_leaf rfl rfl h hkp hkq
  · exact before_of_leaf_internal rfl rfl h.symm hkq hkp
  · rw [before_of_internals rfl rfl h hkp hkq, decide_eq_true_eq]
  · have hk := keyOrdered_of_arena hl hi
    exact ⟨hk x y hx hy, hk.iff_not hx hy hne, hk.trans hx hy hz⟩

/-! ### R80: the two least nodes of `PQ` -/

/-- What comes before the kept one of two nodes comes before the dropped one too. -/
theorem KeyOrdered.before_dropped {node : Memory (NodeRec W)} {m : Nat} (hk : KeyOrdered node m) {l k d : Idx}
    (hl : l.toNat < m) (hkm : k.toNat < m) (hd : d.toNat < m) (hlk : k ≠ l → before node l k = true)
    (hkd : d ≠ k → before node k d = true) (hne : d ≠ l) : before node l d = true := by
  by_cases hdk : d = k
  · subst hdk
    exact hlk hne
  · by_cases hkl : k = l
    · rw [← hkl]
      exact hkd hdk
    · exact hk.trans hl hkm hd (hlk hkl) (hkd hdk)

theorem leastOf_cons (node : Memory (NodeRec W)) (y z : Idx) (q : List Idx) :
    leastOf node y (z :: q) = leastOf node (if before node z y then z else y) q := rfl

/-- The least element of a set of nodes comes before every other one. -/
theorem before_leastOf {node : Memory (NodeRec W)} {m : Nat} (hk : KeyOrdered node m) {q : List Idx} {y : Idx}
    (hq : ∀ x ∈ y :: q, x.toNat < m) {x : Idx} (hx : x ∈ y :: q) (hne : x ≠ leastOf node y q) :
    before node (leastOf node y q) x = true := by
  induction q generalizing x y with
  | nil => exact absurd (List.mem_singleton.mp hx) hne
  | cons z q ih =>
    have hy : y.toNat < m := hq y (by simp)
    have hz : z.toNat < m := hq z (by simp)
    rw [leastOf_cons] at hne ⊢
    by_cases hzy : before node z y = true
    · rw [if_pos hzy] at hne ⊢
      have hrest : ∀ w ∈ z :: q, w.toNat < m := fun w hw => hq w (List.mem_cons_of_mem y hw)
      obtain rfl | hx := List.mem_cons.mp hx
      · exact hk.before_dropped (hrest _ (leastOf_mem node q z)) hz hy (ih hrest (by simp)) (fun _ => hzy) hne
      · exact ih hrest hx hne
    · rw [if_neg hzy] at hne ⊢
      have hrest : ∀ w ∈ y :: q, w.toNat < m := fun w hw => hq w (by simp only [List.mem_cons] at hw ⊢; tauto)
      have hyz : z ≠ y → before node y z = true := fun h => (hk.iff_not hy hz h.symm).mpr hzy
      obtain rfl | hx : x = z ∨ x ∈ y :: q := by simp only [List.mem_cons] at hx ⊢; tauto
      · exact hk.before_dropped (hrest _ (leastOf_mem node q y)) hy hz (ih hrest (by simp)) hyz hne
      · exact ih hrest hx hne

theorem before_of_extractMin {node : Memory (NodeRec W)} {m : Nat} (hk : KeyOrdered node m) {q q' : List Idx} {a : Idx}
    (hq : ∀ x ∈ q, x.toNat < m) (h : extractMin node q = some (a, q')) : ∀ x ∈ q, x ≠ a → before node a x = true := by
  cases q with
  | nil => cases h
  | cons y q =>
    cases h
    exact fun x hx hne => before_leastOf hk hq hx hne

/-- `a` is the least node of `PQ` and `b` the least of the rest (R80). -/
structure LeastTwo (s : State W) (a b : Idx) : Prop where
  memA : a ∈ s.pq
  memB : b ∈ s.pq.erase a
  leastA : ∀ x ∈ s.pq, x ≠ a → before s.node a x = true
  leastB : ∀ x ∈ s.pq.erase a, x ≠ b → before s.node b x = true

/-- The state after BUILD's merge of the two least nodes, before the test of the loop. -/
theorem ForestInv.buildMerge {s : State W} (hs : ForestInv s) (hleft : 1 ≤ s.mleft.toNat) :
    ∃ a b, LeastTwo s a b ∧ buildMerge s = mergeHead (joined a b ((s.pq.erase a).erase b) s) := by
  have hsize := hs.queueSize
  have hcount := hs.count
  have hmost := hs.most
  obtain ⟨a, q, ha⟩ := extractMin_isSome s.node (q := s.pq) (List.ne_nil_of_length_pos (by omega))
  obtain ⟨hapq, rfl⟩ := extractMin_some ha
  have hrest : (s.pq.erase a).length = s.mleft.toNat := by rw [List.length_erase_of_mem hapq]; omega
  obtain ⟨b, q, hb⟩ := extractMin_isSome s.node (q := s.pq.erase a) (List.ne_nil_of_length_pos (by omega))
  obtain ⟨hbpq, rfl⟩ := extractMin_some hb
  have hinUse : ∀ x ∈ s.pq, x.toNat < s.nnode.toNat := hs.queueInUse
  refine ⟨a, b, ⟨hapq, hbpq, before_of_extractMin hs.keyOrdered hinUse ha,
    before_of_extractMin hs.keyOrdered (fun x hx => hinUse x (List.mem_of_mem_erase hx)) hb⟩, ?_⟩
  simp only [Machine.buildMerge, ha, hb, allocNode, joined]
  exact if_pos (by show s.nnode.toNat < 511; omega)

theorem buildMicro_of_scanning {s : State W} (h : s.scan < 256#9) : buildMicro s = buildScan s := if_pos h

theorem buildMicro_of_scanned {s : State W} (h : s.scan = 256#9) : buildMicro s = buildMerge s := if_neg (by simp [h])

theorem nodeNo_joined_other (a b : Idx) (q : List Idx) {s : State W} {k : Nat} (hk : k ≠ s.nnode.toNat) :
    nodeNo (joined a b q s) k = nodeNo s k := by
  simp only [nodeNo, joined_node, Memory.read_write_other _ _ _ hk]

theorem mem_erase_erase_iff {q : List Idx} (hq : q.Nodup) {a b x : Idx} :
    x ∈ (q.erase a).erase b ↔ x ∈ q ∧ x ≠ a ∧ x ≠ b := by
  rw [(hq.erase a).mem_erase_iff, hq.mem_erase_iff]
  tauto

/-- Settles O33: the two removals find the least node and the least of the rest, and the parent goes to the free record `NNODE`. -/
theorem mergeJoinsTheTwoLeastNodes : Obligations.MergeJoinsTheTwoLeastNodes := by
  intro s _ hs
  have hnodup := nodup_of_rising hs.queueRising
  have hcount := hs.count
  have hmost := hs.most
  have hleft := hs.left
  obtain ⟨a, b, hab, hmerge⟩ := hs.forest.buildMerge hleft
  obtain ⟨hba, hbpq⟩ := hnodup.mem_erase_iff.mp hab.memB
  have hnext := hs.forest.join hab.memA hab.memB (by omega) hleft
  have hmleft : (joined a b ((s.pq.erase a).erase b) s).mleft.toNat + 1 = s.mleft.toNat := by
    show (s.mleft - 1#9).toNat + 1 = s.mleft.toNat
    bv_omega
  refine ⟨a, b, joined a b ((s.pq.erase a).erase b) s, by rw [buildMicro_of_scanned hs.scanned, hmerge], hab.memA, hbpq,
    hba.symm, hab.leastA, fun x hx hxa hxb => hab.leastB x (hnodup.mem_erase_iff.mpr ⟨hxa, hx⟩) hxb, nodeNo_joined_new ..,
    fun j hj => nodeNo_joined_other a b _ hj, fun x => ?_, ?_, toNat_nnode_joined a b _ (by omega), hmleft⟩
  · rw [joined_pq, mem_pqInsert, mem_erase_erase_iff hnodup, or_comm]
  · rw [hnext.queueSize, hs.queueSize, hmleft]

end Sys2Proof.Machine
end

section

namespace Sys2Proof.Machine

variable {W : Nat}

/-! ### R76 to R78, R83, R84: the end of the scan, by the number of leaves -/

/-- R83, R85: no leaf. -/
theorem buildRoots_of_none {s : State W} (hp : s.phase = .build) (hn : s.nnode = 0#9) :
    buildRoots s = .next (complete (if s.sLatch then .emptyInput else .ok) (release { s with nsym := 0#9, root := nullIdx })) := by
  simp only [buildRoots, hn, if_true]
  cases s.sLatch
  · rfl
  · simp [raise, clearOutput, hp]

/-- A record written at `NNODE` (R43). -/
def pushRec (r : NodeRec W) (s : State W) : State W := { setNode s.nnode r s with nnode := s.nnode + 1#9 }

theorem pushRec_node (r : NodeRec W) (s : State W) :
    (pushRec r s).node = Memory.write NodeRec.blank s.node s.nnode.toNat r := rfl

theorem allocNode_of_room {s : State W} (r : NodeRec W) (k : State W → Result W) (h : s.nnode.toNat < 511) :
    allocNode r s k = k (pushRec r s) := if_pos h

/-- The one leaf under the synthesized root (R84). -/
def singleRoot (s : State W) : State W :=
  { pushRec (internalRec (nodeAt s 0#9).weight 0#9 nullIdx) s with nsym := 1#9, root := 1#9 }

/-- R84: one leaf. -/
theorem buildRoots_of_one {s : State W} (hn : s.nnode = 1#9) : buildRoots s = .next (finishOk (singleRoot s)) := by
  simp [buildRoots, hn, allocNode, setNode, nodeAt, singleRoot, pushRec]

theorem nodeNo_singleRoot {s : State W} (hn : s.nnode = 1#9) :
    nodeNo (singleRoot s) 1 = internalRec (nodeAt s 0#9).weight 0#9 nullIdx := by
  have hnode := pushRec_node (internalRec (nodeAt s 0#9).weight 0#9 nullIdx) s
  rw [hn] at hnode
  exact nodeNo_of_write_same (t := singleRoot s) hnode

/-- R78: the forest of at least two leaves with which the merges begin. -/
def forestStart (s : State W) : State W :=
  { s with nsym := s.nnode, pq := (List.range s.nnode.toNat).map (BitVec.ofNat 9), mleft := s.nnode - 1#9 }

theorem buildRoots_of_more {s : State W} (hn : 2 ≤ s.nnode.toNat) : buildRoots s = .next (forestStart s) := by
  have h0 : s.nnode ≠ 0#9 := by bv_omega
  have h1 : s.nnode ≠ 1#9 := by bv_omega
  simp only [buildRoots, if_neg h0, if_neg h1, forestStart]

theorem idx_cases (n : Idx) : n = 0#9 ∨ n = 1#9 ∨ 2 ≤ n.toNat := by
  bv_omega

/-! ### R76, R155: BUILD completes -/

theorem buildRoots_answers {s : State W} (hp : s.phase = .build) : ∃ t, buildRoots s = .next t := by
  obtain hn | hn | hn := idx_cases s.nnode
  · exact ⟨_, buildRoots_of_none hp hn⟩
  · exact ⟨_, buildRoots_of_one hn⟩
  · exact ⟨_, buildRoots_of_more hn⟩

theorem scanNext_answers {s : State W} (hp : s.phase = .build) : ∃ t, scanNext s = .next t := by
  unfold scanNext
  split
  · exact buildRoots_answers hp
  · exact ⟨_, rfl⟩

theorem mergeHead_answers (s : State W) : ∃ t, mergeHead s = .next t := by
  unfold mergeHead
  split
  · exact ⟨_, rfl⟩
  · exact ⟨_, rfl⟩

theorem buildMicro_answers {s : State W} (hp : s.phase = .build) (hs : TreeStepInv s) : ∃ t, buildMicro s = .next t := by
  by_cases hscan : s.scan < 256#9
  · have hroom : s.nnode.toNat < 511 := by
      have := (hs.scanning hp hscan).count
      bv_omega
    rw [buildMicro_of_scanning hscan, buildScan]
    simp only [allocNode_of_room _ _ hroom]
    split
    · exact scanNext_answers hp
    · exact scanNext_answers hp
  · have hm := hs.merging hp hscan
    obtain ⟨a, b, -, h⟩ := hm.forest.buildMerge hm.left
    rw [buildMicro_of_scanned hm.scanned, h]
    exact mergeHead_answers _

theorem buildRoots_scan {s t : State W} (h : buildRoots s = .next t) : t.phase = .idle ∨ t.scan = s.scan := by
  obtain ⟨-, -, rfl⟩ | ⟨-, -, rfl⟩ | ⟨-, rfl⟩ | ⟨-, -, rfl⟩ := buildRoots_cases h
  · exact .inl rfl
  · exact .inl rfl
  · exact .inl rfl
  · exact .inr rfl

theorem scanNext_scan {s t : State W} (h : scanNext s = .next t) : t.phase = .idle ∨ t.scan = s.scan + 1#9 := by
  obtain ⟨hlast, h⟩ | ⟨-, rfl⟩ := scanNext_cases h
  · rw [hlast]
    exact buildRoots_scan h
  · exact .inr rfl

theorem buildScan_scan {s t : State W} (h : buildScan s = .next t) : t.phase = .idle ∨ t.scan = s.scan + 1#9 := by
  obtain ⟨-, h⟩ | ⟨-, -, h⟩ := buildScan_cases h
  · exact scanNext_scan h
  · exact (scanNext_scan h :)

theorem buildMerge_mleft {s t : State W} (h : buildMerge s = .next t) :
    t.phase = .idle ∨ (t.scan = s.scan ∧ t.mleft = s.mleft - 1#9) := by
  obtain ⟨a, q, b, q', -, -, -, h⟩ := buildMerge_cases h
  obtain ⟨-, rfl⟩ | ⟨-, rfl⟩ := mergeHead_cases h
  · exact .inl rfl
  · exact .inr ⟨rfl, rfl⟩

/-- R155: the micro-steps BUILD has still to make, or more. -/
def buildSize (s : State W) : Nat := if s.scan < 256#9 then 511 - s.scan.toNat else s.mleft.toNat

theorem MergeInv.mleft_le {s : State W} (hs : MergeInv s) : s.mleft.toNat ≤ 255 := by
  have := hs.forest.nsym_le
  have := hs.count
  have := hs.most
  omega

theorem buildSize_of_scanning {s : State W} (h : s.scan < 256#9) : buildSize s = 511 - s.scan.toNat := if_pos h

theorem buildSize_of_merging {s : State W} (h : ¬ s.scan < 256#9) : buildSize s = s.mleft.toNat := if_neg h

theorem buildSize_pos {s : State W} (hp : s.phase = .build) (hs : TreeStepInv s) : 0 < buildSize s := by
  by_cases hscan : s.scan < 256#9
  · rw [buildSize_of_scanning hscan]
    bv_omega
  · rw [buildSize_of_merging hscan]
    exact (hs.merging hp hscan).left

theorem buildSize_lt {s t : State W} (hp : s.phase = .build) (hs : TreeStepInv s) (h : buildMicro s = .next t)
    (hrun : t.phase ≠ .idle) : buildSize t < buildSize s := by
  have htree := treeStepInv_buildMicro h hp hs
  have hpt : t.phase = .build := hp ▸ (buildMicro_phase h).resolve_right hrun
  obtain ⟨hscan, h⟩ | ⟨hscan, h⟩ := buildMicro_cases h
  · have hnext := (buildScan_scan h).resolve_left hrun
    rw [buildSize_of_scanning hscan]
    by_cases hlt : t.scan < 256#9
    · rw [buildSize_of_scanning hlt]
      bv_omega
    · have := (htree.merging hpt hlt).mleft_le
      rw [buildSize_of_merging hlt]
      bv_omega
  · have hleft := (hs.merging hp hscan).left
    obtain ⟨hsame, hnext⟩ := (buildMerge_mleft h).resolve_left hrun
    rw [buildSize_of_merging hscan, buildSize_of_merging (hsame ▸ hscan), hnext]
    bv_omega

/-- The state after acceptance of BUILD (R76, R77). -/
def buildStart (w : Cmd) (s : State W) : State W := { accept w .build s with nnode := 0#9, scan := 0#9 }

theorem startBuild_eq (w : Cmd) (s : State W) : startBuild w s = .next (buildStart w s) := rfl

theorem treeStepInv_buildStart (w : Cmd) (s : State W) : TreeStepInv (buildStart w s) :=
  treeStepInv_startBuild (startBuild_eq w s)

theorem execAt_build {i : Instr} (hi : i = .build ∨ i = .buildS) {s : State W} (hs : s.phase = .idle) :
    execAt i s = runUnit buildMicro buildSteps (buildStart (encode i) s) := by
  have hrun : execAt i s = andThen (startBuild (encode i) s) (runUnit buildMicro buildSteps) := by
    obtain rfl | rfl := hi
    · exact whenIdle_idle _ hs
    · exact whenIdle_idle _ hs
  rw [hrun, startBuild_eq, andThen_next]

/-- What every micro-step of BUILD keeps, together with the tree invariant, holds when BUILD completes; and it does complete. -/
theorem execAt_build_induction {i : Instr} (hi : i = .build ∨ i = .buildS) {s : State W} (hs : s.phase = .idle)
    (P : State W → Prop) (start : P (buildStart (encode i) s))
    (keep : ∀ u t, P u → u.phase = .build → TreeStepInv u → buildMicro u = .next t → TreeStepInv t → P t) :
    ∃ t, execAt i s = .next t ∧ P t ∧ t.phase = .idle := by
  rw [execAt_build hi hs]
  obtain ⟨t, ht, ⟨-, -, hP⟩, hidle⟩ := runUnit_completes (micro := buildMicro)
    (fun v => RunsOrIdle .build v ∧ TreeStepInv v ∧ P v) buildSize
    (fun v ⟨hr, htree, _⟩ hp => buildSize_pos (hr.resolve_right hp) htree)
    (fun v ⟨hr, htree, hv⟩ hp => by
      have hb := hr.resolve_right hp
      obtain ⟨t, ht⟩ := buildMicro_answers hb htree
      have htree' := treeStepInv_buildMicro ht hb htree
      exact ⟨t, ht, ⟨hb ▸ buildMicro_phase ht, htree', keep v t hv hb htree ht htree'⟩, buildSize_lt hb htree ht⟩)
    buildSteps (buildStart (encode i) s) ⟨.inl rfl, treeStepInv_buildStart .., start⟩ (fun _ => Nat.le_refl 511)
  exact ⟨t, ht, hP, hidle⟩

/-! ### R77, R43: what BUILD has written -/

/-- The table `m` with the records `r 0`, `r 1`, … written over the first `n` ones, in that order. -/
def recordsOver (m : Memory (NodeRec W)) (r : Nat → NodeRec W) : Nat → Memory (NodeRec W)
  | 0 => m
  | n + 1 => Memory.write NodeRec.blank (recordsOver m r n) n (r n)

theorem recordsOver_congr (m : Memory (NodeRec W)) {r r' : Nat → NodeRec W} {n : Nat} (h : ∀ k, k < n → r k = r' k) :
    recordsOver m r n = recordsOver m r' n := by
  induction n with
  | zero => rfl
  | succ n ih => rw [recordsOver, recordsOver, ih fun k hk => h k (by omega), h n (by omega)]

/-- Since `s` the records in use have been written, once each and in rising order, and no other record. -/
def Written (s u : State W) : Prop := u.node = recordsOver s.node (nodeNo u) u.nnode.toNat

theorem Written.push {s u t : State W} {r : NodeRec W} (hu : Written s u)
    (hnode : t.node = Memory.write NodeRec.blank u.node u.nnode.toNat r) (hn : t.nnode.toNat = u.nnode.toNat + 1) :
    Written s t := by
  have hold : recordsOver s.node (nodeNo t) u.nnode.toNat = u.node :=
    (recordsOver_congr _ fun k => nodeNo_of_write_below hnode).trans hu.symm
  rw [Written, hn, recordsOver, hold, nodeNo_of_write_same hnode, hnode]

/-- `u` differs from `s`, with BUILD accepted by the word `w`, in the tree and BUILD's own registers only. -/
def buildFrame (w : Cmd) (s u : State W) : State W :=
  { accept w .build s with
    node := u.node, nsym := u.nsym, nnode := u.nnode, root := u.root, scan := u.scan, mleft := u.mleft, pq := u.pq }

/-- BUILD, accepted in `s` by the word `w`, has come to `u` and has made the leaves of the symbols `l`. -/
structure Building (w : Cmd) (s : State W) (l : List Byte) (u : State W) : Prop where
  frame : u = buildFrame w s u
  written : Written s u
  leaves : ∀ (k : Nat) (b : Byte), l[k]? = some b → nodeNo u k = leafRec b (freqAt s b)

section

variable {w : Cmd} {s u : State W} {l : List Byte}

theorem Building.setRegs (hu : Building w s l u) (a r : Idx) (c m : BitVec 9) (q : List Idx) :
    Building w s l { u with nsym := a, root := r, scan := c, mleft := m, pq := q } where
  frame := congrArg (fun v => { v with nsym := a, root := r, scan := c, mleft := m, pq := q }) hu.frame
  written := hu.written
  leaves := hu.leaves

theorem lt_length_of_getElem? {α : Type} {l : List α} {k : Nat} {x : α} (h : l[k]? = some x) : k < l.length :=
  (List.getElem?_eq_some_iff.mp h).1

/-- A record written at `NNODE` leaves the leaves as they were. -/
theorem Building.alloc (hu : Building w s l u) (r : NodeRec W) (hl : l.length ≤ u.nnode.toNat) (hmax : u.nnode.toNat < 511) :
    Building w s l (pushRec r u) where
  frame := congrArg (fun v => { v with node := Memory.write NodeRec.blank u.node u.nnode.toNat r, nnode := u.nnode + 1#9 })
    hu.frame
  written := hu.written.push (pushRec_node r u) (toNat_add_one_of_lt (by omega))
  leaves k b hk := by
    rw [← hu.leaves k b hk]
    exact nodeNo_of_write_below (pushRec_node r u) (Nat.lt_of_lt_of_le (lt_length_of_getElem? hk) hl)

theorem Building.phase (hu : Building w s l u) : u.phase = .build := congrArg State.phase hu.frame

theorem Building.sLatch (hu : Building w s l u) : u.sLatch = w.getLsbD 3 := congrArg State.sLatch hu.frame

theorem Building.freqAt_eq (hu : Building w s l u) (b : Byte) : freqAt u b = freqAt s b :=
  freqAt_congr (congrArg State.freq hu.frame) b

end

end Sys2Proof.Machine
end

section

namespace Sys2Proof.Machine

variable {W : Nat}

/-! ### R77: the symbols counted -/

/-- The counted symbols below `n`, in rising order: those whose leaves the scan has made when it comes to `n`. -/
def countedBelow (s : State W) (n : Nat) : List Byte :=
  ((List.range n).map (BitVec.ofNat 8)).filter (fun b => decide (freqAt s b ≠ 0#_))

theorem countedBelow_all (s : State W) : countedBelow s 256 = countedSyms s := rfl

theorem countedBelow_succ_of_absent {s : State W} {n : Nat} (h : freqAt s (BitVec.ofNat 8 n) = 0#_) :
    countedBelow s (n + 1) = countedBelow s n := by
  simp [countedBelow, List.range_succ, h]

theorem countedBelow_succ_of_counted {s : State W} {n : Nat} (h : freqAt s (BitVec.ofNat 8 n) ≠ 0#_) :
    countedBelow s (n + 1) = countedBelow s n ++ [BitVec.ofNat 8 n] := by
  simp [countedBelow, List.range_succ, h]

theorem mem_countedSyms {s : State W} {b : Byte} : b ∈ countedSyms s ↔ freqAt s b ≠ 0#_ := by
  have hb : ∃ i, i < 256 ∧ BitVec.ofNat 8 i = b := ⟨b.toNat, b.isLt, by simp⟩
  simp [countedSyms, hb]

theorem countedSyms_eq_nil {s : State W} : countedSyms s = [] ↔ ∀ b, freqAt s b = 0#_ := by
  simp only [List.eq_nil_iff_forall_not_mem, mem_countedSyms, not_not]

theorem countedSyms_nodup (s : State W) : (countedSyms s).Nodup := by
  refine ((List.nodup_map_iff_inj_on List.nodup_range).mpr fun i hi j hj h => ?_).filter _
  have hi : i < 256 := List.mem_range.mp hi
  have hj : j < 256 := List.mem_range.mp hj
  have := congrArg BitVec.toNat h
  simp only [BitVec.toNat_ofNat] at this
  omega

theorem countedSyms_eq_singleton {s : State W} {b : Byte} (hb : freqAt s b ≠ 0#_) (h : ∀ c, c ≠ b → freqAt s c = 0#_) :
    countedSyms s = [b] := by
  refine List.perm_singleton.mp ((List.perm_ext_iff_of_nodup (countedSyms_nodup s) (List.nodup_singleton b)).mpr fun c => ?_)
  rw [mem_countedSyms, List.mem_singleton]
  exact ⟨fun hc => by_contra fun hne => hc (h c hne), fun hc => hc ▸ hb⟩

theorem sum_map_filter_of_zero {α : Type} (p : α → Bool) (f : α → Nat) (l : List α) (h : ∀ x, p x = false → f x = 0) :
    ((l.filter p).map f).sum = (l.map f).sum := by
  induction l with
  | nil => rfl
  | cons x l ih =>
    by_cases hp : p x = true
    · rw [List.filter_cons_of_pos hp, List.map_cons, List.map_cons, List.sum_cons, List.sum_cons, ih]
    · rw [List.filter_cons_of_neg hp, List.map_cons, List.sum_cons, h x (by simpa using hp), ih, Nat.zero_add]

/-- The symbols that are not counted add nothing. -/
theorem sum_countedSyms (s : State W) : ((countedSyms s).map fun b => (freqAt s b).toNat).sum = freqSum s := by
  rw [countedSyms, sum_map_filter_of_zero _ _ _ fun b hb => by simp_all, List.map_map]
  rfl

/-! ### R81, R82, R86: the weights while BUILD merges -/

/-- The weight of a node, as a number. -/
abbrev weightOf (s : State W) (k : Nat) : Nat := (nodeNo s k).weight.toNat

/-- The internal nodes' weights do not fall from one record to the next (R82). -/
def InternalsRise (s : State W) : Prop :=
  ∀ j k, s.nsym.toNat ≤ j → j < k → k < s.nnode.toNat → weightOf s j ≤ weightOf s k

/-- The nodes of `PQ` share out the whole weight, and no internal node is heavier than two of them together. -/
structure HeapInv (total : Nat) (s : State W) : Prop where
  sum : (s.pq.map fun x => weightOf s x.toNat).sum = total
  pairs : ∀ j, s.nsym.toNat ≤ j → j < s.nnode.toNat → ∀ x ∈ s.pq, ∀ y ∈ s.pq, x ≠ y →
    weightOf s j ≤ weightOf s x.toNat + weightOf s y.toNat
  rise : InternalsRise s

theorem pqInsert_perm {i : Idx} {q : List Idx} (h : i ∉ q) : (pqInsert i q).Perm (i :: q) := by
  induction q with
  | nil => exact .refl _
  | cons x q ih =>
    simp only [List.mem_cons, not_or] at h
    simp only [pqInsert, if_neg h.1]
    split
    · exact .refl _
    · exact ((ih h.2).cons x).trans (.swap i x q)

section

variable {total : Nat} {s : State W} {a b : Idx}

theorem weightOf_joined_old (a b : Idx) (q : List Idx) {k : Nat} (hk : k < s.nnode.toNat) :
    weightOf (joined a b q s) k = weightOf s k := by
  rw [weightOf, nodeNo_joined_old a b q hk]

theorem LeastTwo.mem_and_ne (hab : LeastTwo s a b) (hs : ForestInv s) : b ∈ s.pq ∧ a ≠ b := by
  obtain ⟨hba, hbpq⟩ := (nodup_of_rising hs.queueRising).mem_erase_iff.mp hab.memB
  exact ⟨hbpq, hba.symm⟩

theorem LeastTwo.weight_le (hab : LeastTwo s a b) (hs : ForestInv s) : weightOf s a.toNat ≤ weightOf s b.toNat := by
  obtain ⟨hbpq, hne⟩ := hab.mem_and_ne hs
  exact weight_le_of_before (hab.leastA b hbpq hne.symm)

theorem ForestInv.mem_rest (hs : ForestInv s) {x : Idx} (hx : x ∈ (s.pq.erase a).erase b) : x < s.nnode :=
  hs.queueInUse x (List.mem_of_mem_erase (List.mem_of_mem_erase hx))

/-- R80: the weight that two nodes and the rest of `PQ` share out. -/
theorem HeapInv.sum_eq (h : HeapInv total s) (hab : LeastTwo s a b) : weightOf s a.toNat + (weightOf s b.toNat +
    (((s.pq.erase a).erase b).map fun x => weightOf s x.toNat).sum) = total := by
  rw [List.sum_map_erase (fun x : Idx => weightOf s x.toNat) hab.memB,
    List.sum_map_erase (fun x : Idx => weightOf s x.toNat) hab.memA, h.sum]

/-- R86: the weight of the new node does not wrap. -/
theorem HeapInv.weightOf_joined_new (h : HeapInv total s) (hab : LeastTwo s a b) (hfit : total < 2 ^ W) (q : List Idx) :
    weightOf (joined a b q s) s.nnode.toNat = weightOf s a.toNat + weightOf s b.toNat := by
  have hsum := h.sum_eq hab
  rw [weightOf, nodeNo_joined_new]
  exact BitVec.toNat_add_of_lt (by show weightOf s a.toNat + weightOf s b.toNat < 2 ^ W; omega)

theorem HeapInv.sum_joined (h : HeapInv total s) (hs : ForestInv s) (hab : LeastTwo s a b) (hfit : total < 2 ^ W)
    {q : List Idx} (hq : q = (s.pq.erase a).erase b) :
    ((pqInsert s.nnode q).map fun x => weightOf (joined a b q s) x.toNat).sum = total := by
  have hfresh : s.nnode ∉ q := fun hx => absurd (hs.mem_rest (hq ▸ hx)) (BitVec.lt_irrefl _)
  have hrest : q.map (fun x => weightOf (joined a b q s) x.toNat) = q.map fun x => weightOf s x.toNat :=
    List.map_congr_left fun x hx => weightOf_joined_old a b q (hs.mem_rest (hq ▸ hx))
  have hsum := h.sum_eq hab
  rw [((pqInsert_perm hfresh).map _).sum_eq, List.map_cons, List.sum_cons, h.weightOf_joined_new hab hfit, hrest, hq]
  omega

/-- Every node of `PQ` after the merge is at least as heavy as the second of the two joined. -/
theorem HeapInv.le_weight_of_mem (h : HeapInv total s) (hs : ForestInv s) (hab : LeastTwo s a b) (hfit : total < 2 ^ W)
    {q : List Idx} (hq : q = (s.pq.erase a).erase b) {x : Idx} (hx : x ∈ pqInsert s.nnode q) :
    weightOf s b.toNat ≤ weightOf (joined a b q s) x.toNat := by
  have hnodup := nodup_of_rising hs.queueRising
  obtain rfl | hx := mem_pqInsert.mp hx
  · rw [h.weightOf_joined_new hab hfit]
    omega
  · rw [weightOf_joined_old a b q (hs.mem_rest (hq ▸ hx))]
    obtain ⟨hxb, hxa⟩ := (hnodup.erase a).mem_erase_iff.mp (hq ▸ hx)
    exact weight_le_of_before (hab.leastB x hxa hxb)

/-- No internal node, the new one among them, is heavier than the two joined together. -/
theorem HeapInv.weight_le (h : HeapInv total s) (hs : ForestInv s) (hab : LeastTwo s a b) (hfit : total < 2 ^ W)
    (q : List Idx) {j : Nat} (hj : s.nsym.toNat ≤ j) (hlt : j < s.nnode.toNat + 1) :
    weightOf (joined a b q s) j ≤ weightOf s a.toNat + weightOf s b.toNat := by
  obtain hlt | rfl := Nat.lt_succ_iff_lt_or_eq.mp hlt
  · obtain ⟨hbpq, hne⟩ := hab.mem_and_ne hs
    rw [weightOf_joined_old a b q hlt]
    exact h.pairs j hj hlt a hab.memA b hbpq hne
  · exact (h.weightOf_joined_new hab hfit q).le

/-- R80, R82: joining the two least nodes keeps the sum, and leaves nothing lighter than what is left of `PQ`. -/
theorem HeapInv.join (h : HeapInv total s) (hs : ForestInv s) (hab : LeastTwo s a b) (hfit : total < 2 ^ W)
    (hmax : s.nnode.toNat < 511) {q : List Idx} (hq : q = (s.pq.erase a).erase b) : HeapInv total (joined a b q s) := by
  have hn := toNat_nnode_joined a b q hmax
  have hle := hab.weight_le hs
  refine ⟨h.sum_joined hs hab hfit hq, fun j hj hlt x hx y hy _ => ?_, fun j k hj hjk hk => ?_⟩
  · have hx := h.le_weight_of_mem hs hab hfit hq hx
    have hy := h.le_weight_of_mem hs hab hfit hq hy
    have := h.weight_le hs hab hfit q hj (hn ▸ hlt)
    omega
  · rw [hn] at hk
    obtain hk | rfl := Nat.lt_succ_iff_lt_or_eq.mp hk
    · rw [weightOf_joined_old a b q (by omega), weightOf_joined_old a b q hk]
      exact h.rise j k hj hjk hk
    · rw [h.weightOf_joined_new hab hfit]
      exact h.weight_le hs hab hfit q hj (by omega)

end

/-- R81: the last record has no parent yet. -/
theorem ForestInv.last_mem {s : State W} (hs : ForestInv s) : s.nnode - 1#9 ∈ s.pq := by
  have := hs.nsym_le
  have := hs.two
  have hlast : (s.nnode - 1#9).toNat + 1 = s.nnode.toNat := by bv_omega
  have hown := hs.owned (s.nnode - 1#9).toNat (by omega)
  rw [parents_of_last hs.leaves hs.internals (by omega), BitVec.ofNat_toNat, BitVec.setWidth_eq] at hown
  by_contra hmem
  simp [hmem] at hown

/-- R81: the node that is left when there is no merge left carries the whole weight. -/
theorem HeapInv.weight_last {total : Nat} {s : State W} (h : HeapInv total s) (hs : ForestInv s) (hleft : s.mleft = 0#9) :
    weightOf s (s.nnode - 1#9).toNat = total := by
  obtain ⟨x, hx⟩ := List.length_eq_one_iff.mp (hs.queueSize.trans (by simp [hleft]))
  have hlast : s.nnode - 1#9 = x := by simpa [hx] using hs.last_mem
  rw [hlast, ← h.sum, hx]
  simp

end Sys2Proof.Machine
end

section

namespace Sys2Proof.Machine

variable {W : Nat}

/-! ### R76: the run of BUILD -/

/-- BUILD has dealt with the symbols below `n`. -/
structure ScanAt (w : Cmd) (s : State W) (n : Nat) (u : State W) : Prop extends Building w s (countedBelow s n) u where
  count : u.nnode.toNat = (countedBelow s n).length

/-- BUILD is about to test its merge loop. -/
structure MergeAt (w : Cmd) (s u : State W) : Prop extends Building w s (countedSyms s) u where
  count : u.nsym.toNat = (countedSyms s).length
  heap : freqSum s ≤ Config.lenMax W → HeapInv (freqSum s) u

/-- R85: the status BUILD, started by the word `w`, completes with. -/
def buildErr (w : Cmd) (s : State W) : Err := if w.getLsbD 3 = true ∧ countedSyms s = [] then .emptyInput else .ok

/-- BUILD, accepted in `s` by the word `w`, has completed with the status `e`, the arena `m` and the tree registers `a`, `b`, `r`. -/
def builtState (w : Cmd) (e : Err) (s : State W) (m : Memory (NodeRec W)) (a b r : Idx) : State W :=
  complete e (release { accept w .build s with node := m, nsym := a, nnode := b, root := r })

/-- What BUILD, accepted in `s` by the word `w`, leaves. -/
structure BuildEnd (w : Cmd) (s t : State W) : Prop where
  ended : t = builtState w (buildErr w s) s t.node t.nsym t.nnode t.root
  written : Written s t
  count : t.nsym.toNat = (countedSyms s).length
  leaves : ∀ (k : Nat) (b : Byte), (countedSyms s)[k]? = some b → nodeNo t k = leafRec b (freqAt s b)
  weight : freqSum s ≤ Config.lenMax W → countedSyms s ≠ [] → weightOf t t.root.toNat = freqSum s ∧ InternalsRise t

/-- The scan is under way, or the merges are, or BUILD has ended. -/
inductive BuildRun (w : Cmd) (s u : State W) : Prop where
  | scanning (lt : u.scan < 256#9) (hu : ScanAt w s u.scan.toNat u)
  | merging (scanned : u.scan = 256#9) (hu : MergeAt w s u)
  | ended (idle : u.phase = .idle) (hu : BuildEnd w s u)

section

variable {w : Cmd} {s t u : State W}

theorem buildErr_of_counted (h : countedSyms s ≠ []) : buildErr w s = .ok := if_neg fun hw => h hw.2

theorem buildErr_of_empty (h : countedSyms s = []) : buildErr w s = if w.getLsbD 3 then .emptyInput else .ok := by
  simp [buildErr, h]

/-- Completion of BUILD. -/
theorem Building.complete (hu : Building w s (countedSyms s) u) (hcount : u.nsym.toNat = (countedSyms s).length)
    (hweight : freqSum s ≤ Config.lenMax W → countedSyms s ≠ [] → weightOf u u.root.toNat = freqSum s ∧ InternalsRise u) :
    BuildEnd w s (complete (buildErr w s) (release u)) where
  ended := (congrArg (fun v => Machine.complete (buildErr w s) (release v)) hu.frame :)
  written := hu.written
  count := hcount
  leaves := hu.leaves
  weight := hweight

theorem countedSyms_ne_nil_of_length {n : Nat} (hn : 0 < n) (h : n = (countedSyms s).length) : countedSyms s ≠ [] :=
  List.ne_nil_of_length_pos (by omega)

theorem buildRun_finishOk (hu : Building w s (countedSyms s) u) (hcount : u.nsym.toNat = (countedSyms s).length)
    (hne : countedSyms s ≠ [])
    (hweight : freqSum s ≤ Config.lenMax W → weightOf u u.root.toNat = freqSum s ∧ InternalsRise u) :
    BuildRun w s (finishOk u) := by
  have hend := hu.complete hcount fun hfit _ => hweight hfit
  rw [buildErr_of_counted hne] at hend
  exact .ended rfl hend

/-- R81: the test of the merge loop. -/
theorem buildRun_mergeHead (hu : MergeAt w s u) (hs : ForestInv u) (hscan : u.scan = 256#9) (h : mergeHead u = .next t) :
    BuildRun w s t := by
  obtain ⟨hleft, rfl⟩ | ⟨-, rfl⟩ := mergeHead_cases h
  · refine buildRun_finishOk (hu.setRegs ..) hu.count
      (countedSyms_ne_nil_of_length (by have := hs.two; omega) hu.count) fun hfit => ?_
    exact ⟨(hu.heap hfit).weight_last hs hleft, (hu.heap hfit).rise⟩
  · exact .merging hscan hu

theorem lt_two_pow_of_le_lenMax {n : Nat} (h : n ≤ Config.lenMax W) : n < 2 ^ W := by
  have := Nat.two_pow_pos W
  rw [Config.lenMax] at h
  omega

/-- R80: one merge. -/
theorem buildRun_buildMerge (hu : MergeAt w s u) (hs : MergeInv u) (h : buildMerge u = .next t) : BuildRun w s t := by
  obtain ⟨a, b, hab, hmerge⟩ := hs.forest.buildMerge hs.left
  rw [hmerge] at h
  have hmax : u.nnode.toNat < 511 := by
    have := hs.count
    have := hs.most
    have := hs.left
    omega
  have hroom : (countedSyms s).length ≤ u.nnode.toNat := hu.count ▸ hs.forest.nsym_le
  have hjoin : Building w s (countedSyms s) (joined a b ((u.pq.erase a).erase b) u) :=
    (hu.alloc (internalRec ((nodeAt u a).weight + (nodeAt u b).weight) a b) hroom hmax).setRegs ..
  have hat : MergeAt w s (joined a b ((u.pq.erase a).erase b) u) :=
    ⟨hjoin, hu.count, fun hfit => (hu.heap hfit).join hs.forest hab (lt_two_pow_of_le_lenMax hfit) hmax rfl⟩
  exact buildRun_mergeHead hat (hs.forest.join hab.memA hab.memB hmax hs.left) hs.scanned h

/-- R84: the synthesized root has the weight of the one leaf. -/
theorem freqSum_of_single {b : Byte} (h : countedSyms s = [b]) : (freqAt s b).toNat = freqSum s := by
  rw [← sum_countedSyms, h]
  simp

/-- R78: the leaves share out the sum of the counts. -/
theorem heapInv_forestStart (hu : ScanAt w s 256 u) : HeapInv (freqSum s) (forestStart u) := by
  have hcount := hu.count
  have hlen : u.nnode.toNat < 512 := u.nnode.isLt
  rw [countedBelow_all] at hcount
  refine ⟨?_, fun j hj hlt => absurd hlt (Nat.not_lt.mpr hj), fun j k hj hjk hk => absurd (Nat.lt_of_le_of_lt hj hjk)
    (Nat.lt_asymm hk)⟩
  rw [← sum_countedSyms, forestStart, List.map_map]
  refine congrArg List.sum (List.ext_getElem (by simp [hcount]) fun k hk hk' => ?_)
  simp only [List.length_map, List.length_range] at hk hk'
  have hleaf := hu.leaves k _ (List.getElem?_eq_getElem hk')
  have hidx : (BitVec.ofNat 9 k).toNat = k := by
    rw [BitVec.toNat_ofNat]
    omega
  simp only [List.getElem_map, List.getElem_range, Function.comp_apply, hidx]
  exact congrArg (fun r : NodeRec W => r.weight.toNat) hleaf

/-- The end of the scan (R76). -/
theorem buildRun_buildRoots (hu : ScanAt w s 256 u) (hscan : u.scan = 256#9) (h : buildRoots u = .next t) :
    BuildRun w s t := by
  have hcount := hu.count
  have hb := hu.toBuilding
  rw [countedBelow_all] at hcount hb
  obtain hn | hn | hn := idx_cases u.nnode
  · have hnil : countedSyms s = [] := List.eq_nil_of_length_eq_zero (by simpa [hn] using hcount.symm)
    have hend := (hb.setRegs 0#9 nullIdx u.scan u.mleft u.pq).complete (by simp [hnil]) fun _ hne => absurd hnil hne
    have herr : (if u.sLatch then Err.emptyInput else .ok) = buildErr w s := by rw [buildErr_of_empty hnil, hb.sLatch]
    rw [buildRoots_of_none hb.phase hn, herr] at h
    cases h
    exact .ended rfl hend
  · obtain ⟨b, hsingle⟩ := List.length_eq_one_iff.mp (hcount.symm.trans (by simp [hn]))
    have hleaf : nodeAt u 0#9 = leafRec b (freqAt s b) := hb.leaves 0 b (by simp [hsingle])
    rw [buildRoots_of_one hn] at h
    cases h
    have hroot : Building w s (countedSyms s) (singleRoot u) := (hb.alloc _ hcount.ge (by simp [hn])).setRegs ..
    refine buildRun_finishOk hroot (by simp [hsingle, singleRoot]) (by simp [hsingle]) fun _ =>
      ⟨?_, fun j k hj hjk hk => ?_⟩
    · rw [← freqSum_of_single hsingle]
      show weightOf (singleRoot u) 1 = _
      rw [weightOf, nodeNo_singleRoot hn, hleaf]
      rfl
    · simp [singleRoot, pushRec, hn] at hk hj
      omega
  · rw [buildRoots_of_more hn] at h
    cases h
    exact .merging hscan ⟨hb.setRegs .., hcount, fun _ => heapInv_forestStart hu⟩

/-- After the scan step that has dealt with the symbol `SCAN`. -/
theorem buildRun_scanNext (hu : ScanAt w s (u.scan.toNat + 1) u) (hscan : u.scan < 256#9) (h : scanNext u = .next t) :
    BuildRun w s t := by
  obtain ⟨hlast, h⟩ | ⟨hmore, rfl⟩ := scanNext_cases h
  · simp only [hlast] at hu
    have hend : ScanAt w s 256 { u with scan := 256#9 } := ⟨hu.setRegs .., hu.count⟩
    exact buildRun_buildRoots hend rfl h
  · have hnext : (u.scan + 1#9).toNat = u.scan.toNat + 1 := by bv_omega
    have hrun : ScanAt w s (u.scan + 1#9).toNat { u with scan := u.scan + 1#9 } := by
      rw [hnext]
      exact ⟨hu.setRegs .., hu.count⟩
    exact .scanning (by simp only; bv_omega) hrun

/-- A leaf goes behind the leaves. -/
theorem Building.pushLeaf {l : List Byte} (hu : Building w s l u) (hl : u.nnode.toNat = l.length) (hmax : u.nnode.toNat < 511)
    (b : Byte) : Building w s (l ++ [b]) (pushRec (leafRec b (freqAt s b)) u) := by
  obtain ⟨hframe, hwritten, hleaves⟩ := hu.alloc (leafRec b (freqAt s b)) hl.ge hmax
  refine ⟨hframe, hwritten, fun k c hk => ?_⟩
  obtain hlt | rfl := Nat.lt_succ_iff_lt_or_eq.mp (show k < l.length + 1 by simpa using lt_length_of_getElem? hk)
  · exact hleaves k c (by rwa [List.getElem?_append_left hlt] at hk)
  · obtain rfl : b = c := by simpa using hk
    exact hl ▸ nodeNo_of_write_same (pushRec_node _ u)

/-- R77: one symbol. -/
theorem buildRun_buildScan (hu : ScanAt w s u.scan.toNat u) (hscan : u.scan < 256#9) (h : buildScan u = .next t) :
    BuildRun w s t := by
  have hsym : u.scan.setWidth 8 = BitVec.ofNat 8 u.scan.toNat := by simp
  have hcount := hu.count
  obtain ⟨habsent, h⟩ | ⟨hcounted, hmax, h⟩ := buildScan_cases h
  · rw [hsym, hu.freqAt_eq] at habsent
    have hlist := countedBelow_succ_of_absent habsent
    exact buildRun_scanNext ⟨hlist ▸ hu.toBuilding, hlist ▸ hcount⟩ hscan h
  · rw [hu.freqAt_eq] at hcounted h
    have hlist := countedBelow_succ_of_counted (hsym ▸ hcounted)
    rw [← hsym] at hlist
    have hnext : ScanAt w s (u.scan.toNat + 1) (pushRec (leafRec (u.scan.setWidth 8) (freqAt s (u.scan.setWidth 8))) u) := by
      refine ⟨hlist ▸ hu.pushLeaf hcount hmax _, ?_⟩
      rw [hlist, List.length_append, ← hcount]
      exact toNat_add_one_of_lt (by omega)
    exact buildRun_scanNext (u := pushRec _ u) hnext hscan h

theorem buildRun_buildMicro (hu : BuildRun w s u) (hp : u.phase = .build) (hs : TreeStepInv u) (h : buildMicro u = .next t) :
    BuildRun w s t := by
  cases hu with
  | scanning hlt hu =>
    rw [buildMicro_of_scanning hlt] at h
    exact buildRun_buildScan hu hlt h
  | merging hscan hu =>
    rw [buildMicro_of_scanned hscan] at h
    exact buildRun_buildMerge hu (hs.merging hp (by simp [hscan])) h
  | ended hidle _ =>
    rw [hp] at hidle
    cases hidle

theorem buildRun_buildStart (w : Cmd) (s : State W) : BuildRun w s (buildStart w s) :=
  .scanning (by simp [buildStart]) ⟨⟨rfl, rfl, nofun⟩, rfl⟩

end

/-- R76: BUILD in an idle block completes, with a tree that meets R21. -/
theorem buildEnd_execAt {i : Instr} (hi : i = .build ∨ i = .buildS) {s : State W} (hs : s.phase = .idle) :
    ∃ t, execAt i s = .next t ∧ BuildEnd (encode i) s t ∧ TreeInv t := by
  obtain ⟨t, ht, ⟨hrun, htree⟩, hidle⟩ := execAt_build_induction hi hs (fun u => BuildRun (encode i) s u ∧ TreeStepInv u)
    ⟨buildRun_buildStart .., treeStepInv_buildStart ..⟩
    (fun u t hu hp hs h ht => ⟨buildRun_buildMicro hu.1 hp hs h, ht⟩)
  refine ⟨t, ht, ?_, htree.outside (by simp [hidle])⟩
  cases hrun with
  | scanning _ hu => simp [hu.phase] at hidle
  | merging _ hu => simp [hu.phase] at hidle
  | ended _ hu => exact hu

end Sys2Proof.Machine
end

section

namespace Sys2Proof.Machine

variable {W : Nat}

/-! ### What BUILD leaves -/

section

variable {w : Cmd} {s t u : State W}

theorem BuildEnd.field {α : Type} (h : BuildEnd w s t) (f : State W → α) :
    f t = f (builtState w (buildErr w s) s t.node t.nsym t.nnode t.root) := congrArg f h.ended

theorem BuildEnd.completed (h : BuildEnd w s t) : Completed w (buildErr w s) s t where
  idle := h.field State.phase
  done := h.field State.done
  err := h.field State.err
  strict := h.field State.sLatch
  host := h.field State.host
  queue := h.field State.pq
  stack := h.field State.stk

/-- The tree apart, BUILD leaves every space as it was. -/
theorem BuildEnd.otherSpaces (h : BuildEnd w s t) :
    t.freq = s.freq ∧ t.code = s.code ∧ SameIn s t ∧ SameBits s t ∧ SameOut s t :=
  ⟨h.field State.freq, h.field State.code, ⟨h.field State.input, h.field State.ilen⟩,
    ⟨h.field State.bits, h.field State.blen⟩, ⟨h.field State.out, h.field State.olen⟩⟩

/-- R20: `NSYM` = 0 is the null tree. -/
theorem TreeInv.null_of_nsym (hs : TreeInv s) (h : s.nsym = 0#9) : s.nnode = 0#9 ∧ s.root = nullIdx := by
  obtain ⟨-, hnnode, hroot⟩ | ⟨h1, -⟩ | ⟨h2, -⟩ := hs.regs
  · exact ⟨hnnode, hroot⟩
  · simp [h] at h1
  · simp [h] at h2

/-- R20: `NSYM` = 1 is one leaf under the synthesized root. -/
theorem TreeInv.single_of_nsym (hs : TreeInv s) (h : s.nsym = 1#9) : s.nnode = 2#9 ∧ s.root = 1#9 := by
  obtain ⟨h0, -⟩ | ⟨-, hnnode, hroot⟩ | ⟨h2, -⟩ := hs.regs
  · simp [h] at h0
  · exact ⟨hnnode, hroot⟩
  · simp [h] at h2

/-- R20: the number of records determines the other tree registers. -/
theorem TreeInv.regs_eq (hs : TreeInv s) : s.nsym.toNat = (s.nnode.toNat + 1) / 2 ∧ s.root = s.nnode - 1#9 := by
  obtain ⟨hnsym, hnnode, hroot⟩ | ⟨hnsym, hnnode, hroot⟩ | ⟨htwo, hmost, hnnode, hroot⟩ := hs.regs
  · simp [hnsym, hnnode, hroot]
  · simp [hnsym, hnnode, hroot]
  · exact ⟨by omega, by bv_omega⟩

theorem TreeInv.regs_of_nnode (hs : TreeInv s) (ht : TreeInv t) (h : s.nnode = t.nnode) :
    s.nsym = t.nsym ∧ s.root = t.root := by
  obtain ⟨hsn, hsr⟩ := hs.regs_eq
  obtain ⟨htn, htr⟩ := ht.regs_eq
  exact ⟨BitVec.eq_of_toNat_eq (by rw [hsn, htn, h]), by rw [hsr, htr, h]⟩

theorem BuildEnd.null (h : BuildEnd w s t) (htree : TreeInv t) (hempty : countedSyms s = []) :
    t.nsym = 0#9 ∧ t.nnode = 0#9 ∧ t.root = nullIdx ∧ t.node = s.node := by
  have hnsym : t.nsym = 0#9 := BitVec.eq_of_toNat_eq (by simp [h.count, hempty])
  obtain ⟨hnnode, hroot⟩ := htree.null_of_nsym hnsym
  have hwritten := h.written
  rw [Written, hnnode] at hwritten
  exact ⟨hnsym, hnnode, hroot, hwritten⟩

end

theorem exec_build {i : Instr} (hi : i = .build ∨ i = .buildS) {s : State} (hs : s.phase = .idle) :
    ∃ t, exec i s = .next t ∧ BuildEnd (encode i) s t ∧ TreeInv t := by
  rw [← execAt_eq_exec]
  exact buildEnd_execAt hi hs

/-- Settles O27: no leaf is made, so no record is written, and with no node the tree is the null tree; only the status is
`BUILD.S`'s own. -/
theorem buildOfEmptyTableIsTheNullTree : Obligations.BuildOfEmptyTableIsTheNullTree := by
  intro s hs hfreq
  have hempty := countedSyms_eq_nil.mpr hfreq
  refine ⟨?_, ?_⟩
  · obtain ⟨t, ht, hend, htree⟩ := exec_build (.inl rfl) hs
    obtain ⟨hnsym, hnnode, hroot, hnode⟩ := hend.null htree hempty
    have hcomp := hend.completed
    rw [buildErr_of_empty hempty] at hcomp
    exact ⟨t, ht, hcomp, hnsym, hnnode, hroot, hnode, hend.otherSpaces⟩
  · obtain ⟨t, ht, hend, htree⟩ := exec_build (.inr rfl) hs
    obtain ⟨hnsym, hnnode, hroot, hnode⟩ := hend.null htree hempty
    have hcomp := hend.completed
    rw [buildErr_of_empty hempty] at hcomp
    exact ⟨t, ht, hcomp, hnsym, hnnode, hroot, hnode, hend.otherSpaces⟩

/-- Settles O28: the one leaf is the first record, and R21 gives the synthesized root. -/
theorem buildOfOneSymbolSynthesizesARoot : Obligations.BuildOfOneSymbolSynthesizesARoot := by
  intro s b i hs hi hb hothers
  have hsingle := countedSyms_eq_singleton hb hothers
  obtain ⟨t, ht, hend, htree⟩ := exec_build hi hs
  have hcomp := hend.completed
  rw [buildErr_of_counted (by simp [hsingle])] at hcomp
  have hnsym : t.nsym = 1#9 := BitVec.eq_of_toNat_eq (by simp [hend.count, hsingle])
  obtain ⟨hnnode, hroot⟩ := htree.single_of_nsym hnsym
  have hleaf : nodeNo t 0 = leafRec b (freqAt s b) := hend.leaves 0 b (by simp [hsingle])
  have hrec := htree.single hnsym
  rw [hleaf] at hrec
  exact ⟨t, ht, hcomp, hnsym, hnnode, hroot, hleaf, hrec, hend.otherSpaces⟩

/-- Settles O29: the scan makes a leaf of each counted symbol in turn, and the merges write behind the leaves. -/
theorem buildMakesALeafPerSymbolInOrder : Obligations.BuildMakesALeafPerSymbolInOrder := by
  intro s t i hs hi h
  obtain ⟨u, hu, hend, -⟩ := exec_build hi hs
  cases hu.symm.trans h
  exact ⟨hend.count, fun k hk => hend.leaves k _ (List.getElem?_eq_getElem hk)⟩

/-- Settles O30: BUILD completes, its tree meets R21, and without the strict flag no error is raised. -/
theorem buildCompletesWithATree : Obligations.BuildCompletesWithATree := by
  intro s hs
  obtain ⟨t, ht, hend, htree⟩ := exec_build (.inl rfl) hs
  exact ⟨t, ht, hend.completed, htree, hend.otherSpaces⟩

/-- Settles O35: the nodes of `PQ` share out the sum of the counts until one is left, and no merge is lighter than the one before
it. -/
theorem rootWeighsTheWholeTable : Obligations.RootWeighsTheWholeTable := by
  intro W s t i hs hi hfit hcounted h
  obtain ⟨u, hu, hend, -⟩ := buildEnd_execAt hi hs
  cases hu.symm.trans h
  obtain ⟨b, hb⟩ := hcounted
  obtain ⟨hroot, hrise⟩ := hend.weight hfit fun hempty => hb (countedSyms_eq_nil.mp hempty b)
  exact ⟨hroot, hrise⟩

end Sys2Proof.Machine
end

section

namespace Sys2Proof.Machine

variable {W : Nat}

/-! ### R85, R87: two runs of BUILD side by side -/

/-- The same counts, and the same records in use. -/
structure SameRecords (u u' : State W) : Prop where
  counts : ∀ b, freqAt u b = freqAt u' b
  nnode : u.nnode = u'.nnode
  records : ∀ k, k < u.nnode.toNat → nodeNo u k = nodeNo u' k

/-- BUILD is at the same place in `u` and `u'`, with the same counts and the same records in use, whatever else they hold. -/
structure BuildTwins (u u' : State W) : Prop extends SameRecords u u' where
  phase : u.phase = u'.phase
  scan : u.phase = .build → u.scan = u'.scan
  queue : u.phase = .build → ¬ u.scan < 256#9 → u.mleft = u'.mleft ∧ u.pq = u'.pq

/-- Two runs of one unit, each of which completes, keep what every micro-step of both keeps. -/
theorem runUnit_related {micro : State W → Result W} (R : State W → State W → Prop)
    (phase : ∀ u u', R u u' → u.phase = u'.phase)
    (keep : ∀ u u' t t', R u u' → u.phase ≠ .idle → micro u = .next t → micro u' = .next t' → R t t') :
    ∀ (n : Nat) (u u' t t' : State W), R u u' → runUnit micro n u = .next t → runUnit micro n u' = .next t' → R t t' := by
  intro n
  induction n with
  | zero =>
    intro u u' t t' hR h h'
    by_cases hp : u.phase = .idle
    · rw [runUnit_idle micro 0 hp] at h
      rw [runUnit_idle micro 0 (phase u u' hR ▸ hp)] at h'
      cases h
      cases h'
      exact hR
    · simp [runUnit, hp] at h
  | succ n ih =>
    intro u u' t t' hR h h'
    by_cases hp : u.phase = .idle
    · rw [runUnit_idle micro _ hp] at h
      rw [runUnit_idle micro _ (phase u u' hR ▸ hp)] at h'
      cases h
      cases h'
      exact hR
    · rw [runUnit_succ micro n hp] at h
      rw [runUnit_succ micro n (phase u u' hR ▸ hp)] at h'
      obtain ⟨v, hv, ht⟩ := andThen_eq_next.mp h
      obtain ⟨v', hv', ht'⟩ := andThen_eq_next.mp h'
      exact ih v v' t t' (keep u u' v v' hR hp hv hv') ht ht'

section

variable {u u' t t' : State W}

/-- The same record written behind the same records. -/
theorem SameRecords.pushRec (h : SameRecords u u') (r : NodeRec W) (hmax : u.nnode.toNat < 511) :
    SameRecords (pushRec r u) (pushRec r u') where
  counts := h.counts
  nnode := congrArg (· + 1#9) h.nnode
  records k hk := by
    have hn : (Machine.pushRec r u).nnode.toNat = u.nnode.toNat + 1 := toNat_add_one_of_lt (by omega)
    rw [hn] at hk
    have hnode := pushRec_node r u
    have hnode' := pushRec_node r u'
    rw [← h.nnode] at hnode'
    obtain hk | rfl := Nat.lt_succ_iff_lt_or_eq.mp hk
    · rw [nodeNo_of_write_below hnode hk, nodeNo_of_write_below hnode' hk, h.records k hk]
    · rw [nodeNo_of_write_same hnode, nodeNo_of_write_same hnode']

theorem SameRecords.joined (h : SameRecords u u') {a b : Idx} (q : List Idx) (hmax : u.nnode.toNat < 511)
    (ha : nodeAt u a = nodeAt u' a) (hb : nodeAt u b = nodeAt u' b) : SameRecords (joined a b q u) (joined a b q u') := by
  obtain ⟨hcounts, hnnode, hrecords⟩ := h.pushRec (internalRec ((nodeAt u a).weight + (nodeAt u b).weight) a b) hmax
  rw [Machine.joined, Machine.joined, ← ha, ← hb]
  exact ⟨hcounts, hnnode, hrecords⟩

theorem SameRecords.twins_of_idle (h : SameRecords t t') (hp : t.phase = .idle) (hp' : t'.phase = .idle) : BuildTwins t t' :=
  ⟨h, hp.trans hp'.symm, fun hb => by simp [hp] at hb, fun hb => by simp [hp] at hb⟩

/-- R76: the end of the scan; the strict flag decides the status only. -/
theorem twins_buildRoots (h : SameRecords u u') (hp : u.phase = .build) (hp' : u'.phase = .build) (hs : u.scan = u'.scan)
    (ht : buildRoots u = .next t) (ht' : buildRoots u' = .next t') : BuildTwins t t' := by
  obtain hn | hn | hn := idx_cases u.nnode
  · rw [buildRoots_of_none hp hn] at ht
    rw [buildRoots_of_none hp' (h.nnode ▸ hn)] at ht'
    cases ht
    cases ht'
    exact SameRecords.twins_of_idle ⟨h.counts, h.nnode, h.records⟩ rfl rfl
  · rw [buildRoots_of_one hn] at ht
    rw [buildRoots_of_one (h.nnode ▸ hn)] at ht'
    cases ht
    cases ht'
    have hleaf : nodeAt u' 0#9 = nodeAt u 0#9 := (h.records 0 (by simp [hn])).symm
    obtain ⟨hcounts, hnnode, hrecords⟩ := h.pushRec (internalRec (nodeAt u 0#9).weight 0#9 nullIdx) (by simp [hn])
    rw [singleRoot, singleRoot, hleaf]
    exact SameRecords.twins_of_idle ⟨hcounts, hnnode, hrecords⟩ rfl rfl
  · rw [buildRoots_of_more hn] at ht
    rw [buildRoots_of_more (h.nnode ▸ hn)] at ht'
    cases ht
    cases ht'
    have hqueue : (forestStart u).mleft = (forestStart u').mleft ∧ (forestStart u).pq = (forestStart u').pq := by
      simp only [forestStart, h.nnode, and_self]
    exact ⟨⟨h.counts, h.nnode, h.records⟩, hp.trans hp'.symm, fun _ => hs, fun _ _ => hqueue⟩

theorem twins_scanNext (h : SameRecords u u') (hp : u.phase = .build) (hp' : u'.phase = .build) (hs : u.scan = u'.scan)
    (hlt : u.scan < 256#9) (ht : scanNext u = .next t) (ht' : scanNext u' = .next t') : BuildTwins t t' := by
  obtain ⟨hlast, ht⟩ | ⟨hmore, rfl⟩ := scanNext_cases ht <;> obtain ⟨hlast', ht'⟩ | ⟨hmore', rfl⟩ := scanNext_cases ht'
  · have hend : SameRecords { u with scan := 256#9 } { u' with scan := 256#9 } := ⟨h.counts, h.nnode, h.records⟩
    exact twins_buildRoots hend hp hp' rfl ht ht'
  · exact absurd (hs ▸ hlast) hmore'
  · exact absurd (hs ▸ hlast') hmore
  · exact ⟨⟨h.counts, h.nnode, h.records⟩, hp.trans hp'.symm, fun _ => congrArg (· + 1#9) hs,
      fun _ hge => absurd (by simp only; bv_omega) hge⟩

/-- R77: one symbol. -/
theorem twins_buildScan (h : SameRecords u u') (hp : u.phase = .build) (hp' : u'.phase = .build) (hs : u.scan = u'.scan)
    (hlt : u.scan < 256#9) (ht : buildScan u = .next t) (ht' : buildScan u' = .next t') : BuildTwins t t' := by
  obtain ⟨h0, ht⟩ | ⟨h0, hmax, ht⟩ := buildScan_cases ht <;> obtain ⟨h0', ht'⟩ | ⟨h0', -, ht'⟩ := buildScan_cases ht' <;>
    rw [← h.counts, ← hs] at h0'
  · exact twins_scanNext h hp hp' hs hlt ht ht'
  · exact absurd h0 h0'
  · exact absurd h0' h0
  · rw [← h.counts, ← hs] at ht'
    exact twins_scanNext (u := pushRec _ u) (u' := pushRec _ u') (h.pushRec _ hmax) hp hp' hs hlt ht ht'

/-- The two least nodes are found from the records of the nodes in `PQ`. -/
theorem extractMin_congr {node node' : Memory (NodeRec W)} {q : List Idx}
    (h : ∀ x ∈ q, Memory.read NodeRec.blank node x.toNat = Memory.read NodeRec.blank node' x.toNat) :
    extractMin node q = extractMin node' q := by
  have hleast : ∀ (q : List Idx) (y : Idx),
      (∀ x ∈ y :: q, Memory.read NodeRec.blank node x.toNat = Memory.read NodeRec.blank node' x.toNat) →
      leastOf node y q = leastOf node' y q := by
    intro q
    induction q with
    | nil => exact fun _ _ => rfl
    | cons z q ih =>
      intro y hq
      have hbefore : before node z y = before node' z y := by simp only [before, hq z (by simp), hq y (by simp)]
      simp only [leastOf, List.foldl_cons, hbefore]
      refine ih _ fun x hx => hq x ?_
      obtain rfl | hx := List.mem_cons.mp hx
      · split <;> simp
      · simp [hx]
  cases q with
  | nil => rfl
  | cons y q => simp only [extractMin, hleast q y h]

theorem twins_mergeHead (h : BuildTwins u u') (hp : u.phase = .build) (hge : ¬ u.scan < 256#9)
    (ht : mergeHead u = .next t) (ht' : mergeHead u' = .next t') : BuildTwins t t' := by
  obtain ⟨hmleft, -⟩ := h.queue hp hge
  obtain ⟨h0, rfl⟩ | ⟨h0, rfl⟩ := mergeHead_cases ht <;> obtain ⟨h0', rfl⟩ | ⟨h0', rfl⟩ := mergeHead_cases ht'
  · exact SameRecords.twins_of_idle ⟨h.counts, h.nnode, h.records⟩ rfl rfl
  · exact absurd (hmleft ▸ h0) h0'
  · exact absurd (hmleft ▸ h0') h0
  · exact h

/-- R80: one merge. -/
theorem twins_buildMerge (h : BuildTwins u u') (hp : u.phase = .build) (hge : ¬ u.scan < 256#9) (hm : MergeInv u)
    (ht : buildMerge u = .next t) (ht' : buildMerge u' = .next t') : BuildTwins t t' := by
  obtain ⟨hmleft, hpq⟩ := h.queue hp hge
  have hsame : ∀ x ∈ u.pq, nodeAt u x = nodeAt u' x := fun x hx => h.records _ (hm.queueInUse x hx)
  obtain ⟨a, q, b, q', ha, hb, hmax, ht⟩ := buildMerge_cases ht
  obtain ⟨a', r, b', r', ha', hb', -, ht'⟩ := buildMerge_cases ht'
  obtain ⟨hapq, rfl⟩ := extractMin_some ha
  rw [← hpq, ← extractMin_congr hsame, ha] at ha'
  cases ha'
  obtain ⟨hbpq, rfl⟩ := extractMin_some hb
  rw [← extractMin_congr fun x hx => hsame x (List.mem_of_mem_erase hx), hb] at hb'
  cases hb'
  have hrecs := h.joined ((u.pq.erase a).erase b) hmax (hsame a hapq) (hsame b (List.mem_of_mem_erase hbpq))
  have hjoin : BuildTwins (joined a b ((u.pq.erase a).erase b) u) (joined a b ((u.pq.erase a).erase b) u') :=
    ⟨hrecs, h.phase, h.scan, fun _ _ => ⟨congrArg (· - 1#9) hmleft, by rw [joined_pq, joined_pq, h.nnode]⟩⟩
  exact twins_mergeHead hjoin hp hge ht ht'

theorem twins_buildMicro (h : BuildTwins u u') (hp : u.phase = .build) (hs : TreeStepInv u)
    (ht : buildMicro u = .next t) (ht' : buildMicro u' = .next t') : BuildTwins t t' := by
  have hscan := h.scan hp
  obtain ⟨hlt, ht⟩ | ⟨hge, ht⟩ := buildMicro_cases ht <;> obtain ⟨hlt', ht'⟩ | ⟨hge', ht'⟩ := buildMicro_cases ht'
  · exact twins_buildScan h.toSameRecords hp (h.phase ▸ hp) hscan hlt ht ht'
  · exact absurd (hscan ▸ hlt) hge'
  · exact absurd (hscan ▸ hlt') hge
  · exact twins_buildMerge h hp hge (hs.merging hp hge) ht ht'

end

/-- R87: what two runs of BUILD leave agrees in the number of records and the records in use, if the counts agreed. -/
theorem sameRecords_execAt {i j : Instr} (hi : i = .build ∨ i = .buildS) (hj : j = .build ∨ j = .buildS) {s s' t t' : State W}
    (hs : s.phase = .idle) (hs' : s'.phase = .idle) (hcounts : ∀ b, freqAt s b = freqAt s' b) (ht : execAt i s = .next t)
    (ht' : execAt j s' = .next t') : SameRecords t t' := by
  rw [execAt_build hi hs] at ht
  rw [execAt_build hj hs'] at ht'
  have htwins : BuildTwins (buildStart (encode i) s) (buildStart (encode j) s') :=
    ⟨⟨hcounts, rfl, nofun⟩, rfl, fun _ => rfl, fun _ hge => absurd (show 0#9 < 256#9 by decide) hge⟩
  refine (runUnit_related (fun u u' => BuildTwins u u' ∧ TreeStepInv u ∧ RunsOrIdle .build u) (fun _ _ h => h.1.phase)
    (fun u u' t t' ⟨h, htree, hrun⟩ hp ht ht' => ?_) buildSteps _ _ t t' ⟨htwins, treeStepInv_buildStart .., .inl rfl⟩
    ht ht').1.toSameRecords
  have hb := hrun.resolve_right hp
  exact ⟨twins_buildMicro h hb htree ht ht', treeStepInv_buildMicro ht hb htree, hb ▸ buildMicro_phase ht⟩

/-- Settles O34: the two runs make the same records, and their number determines the other tree registers. -/
theorem treeDependsOnlyOnTheTable : Obligations.TreeDependsOnlyOnTheTable := by
  intro s s' i hs hs' hi hcounts
  obtain ⟨t, ht, -, htree⟩ := exec_build hi hs
  obtain ⟨t', ht', -, htree'⟩ := exec_build hi hs'
  obtain ⟨-, hnnode, hrecords⟩ := sameRecords_execAt hi hi hs hs' hcounts (execAt_eq_exec ▸ ht) (execAt_eq_exec ▸ ht')
  obtain ⟨hnsym, hroot⟩ := htree.regs_of_nnode htree' hnnode
  exact ⟨t, t', ht, ht', hnsym, hnnode, hroot, hrecords⟩

/-- Two runs of BUILD on one block that leave the same tree differ in `S_LATCH`, the status and the events only. -/
theorem BuildEnd.eq_of_sameTree {w w' : Cmd} {s t u : State W} (ht : BuildEnd w s t) (hu : BuildEnd w' s u)
    (htree : SameTree t u) : u = { t with sLatch := w'.getLsbD 3, err := u.err, events := u.events } := by
  obtain ⟨hnode, hnsym, hnnode, hroot⟩ := htree
  have hstate := hu.ended
  rw [hnode, hnsym, hnnode, hroot] at hstate
  calc u = { builtState w (buildErr w s) s t.node t.nsym t.nnode t.root with
      sLatch := w'.getLsbD 3, err := u.err, events := u.events } := by
        rw [hu.field State.err, hu.field State.events]
        exact hstate
    _ = { t with sLatch := w'.getLsbD 3, err := u.err, events := u.events } := by rw [← ht.ended]

/-- R85: `BUILD` and `BUILD.S` leave the same tree. -/
theorem exec_build_buildS {s : State} (hs : s.phase = .idle) :
    ∃ t u, exec .build s = .next t ∧ exec .buildS s = .next u ∧ BuildEnd 0x2#4 s t ∧ BuildEnd 0xA#4 s u ∧ TreeInv t ∧
      SameTree t u := by
  obtain ⟨t, ht, hend, htree⟩ := exec_build (.inl rfl) hs
  obtain ⟨u, hu, hend', htree'⟩ := exec_build (.inr rfl) hs
  obtain ⟨-, hnnode, hrecords⟩ := sameRecords_execAt (.inl rfl) (.inr rfl) hs hs (fun _ => rfl) (execAt_eq_exec ▸ ht)
    (execAt_eq_exec ▸ hu)
  obtain ⟨hnsym, hroot⟩ := htree.regs_of_nnode htree' hnnode
  have hnode : t.node = u.node := by
    rw [hend.written, hend'.written, ← hnnode]
    exact recordsOver_congr _ hrecords
  exact ⟨t, u, ht, hu, hend, hend', htree, hnode.symm, hnsym.symm, hnnode.symm, hroot.symm⟩

/-- Settles O31: the two runs make the same tree; they differ in the latched flag, and so, where no symbol was counted, in the
status. -/
theorem strictBuildDiffersOnlyOnTheEmptyTable : Obligations.StrictBuildDiffersOnlyOnTheEmptyTable := by
  intro s hs
  obtain ⟨t, u, ht, hu, hend, hend', htree, hsame⟩ := exec_build_buildS hs
  have herr : t.err = .ok := hend.completed.err
  have herr' := hend'.completed.err
  have hdiff : u = { t with sLatch := true, err := u.err, events := u.events } := hend.eq_of_sameTree hend' hsame
  refine ⟨fun ⟨b, hb⟩ => ⟨t, ht, herr, ?_⟩, fun hempty => ⟨t, u, ht, hu, ?_⟩⟩
  · have hne : countedSyms s ≠ [] := fun h => hb (countedSyms_eq_nil.mp h b)
    have hevents : u.events = .completed .ok :: .accepted 0xA#4 :: s.events :=
      buildErr_of_counted (w := 0xA#4) hne ▸ hend'.field State.events
    have herrs : u.err = t.err := (herr'.trans (buildErr_of_counted hne)).trans herr.symm
    rw [hu, hdiff, herrs, hevents]
  · have hnil := countedSyms_eq_nil.mpr hempty
    rw [buildErr_of_empty hnil] at herr'
    obtain ⟨-, -, hroot, -⟩ := hend.null htree hnil
    obtain ⟨-, -, -, hroots⟩ := hsame
    refine ⟨by rwa [herr'] at hdiff, ?_, ?_, hroots.trans hroot, hroot⟩
    · rw [statusWord_of_completed hend.completed.idle hend.completed.done, herr]
      rfl
    · rw [statusWord_of_completed hend'.completed.idle hend'.completed.done, herr']
      rfl

end Sys2Proof.Machine
end

/-! PROOFS of the family `42_codegen.md`: in a tree there is one walk to each node (R90), so GEN pops each node once (R91) and
records the path of each leaf (R89); no code begins another, and together they are complete (R93). -/

section

namespace Sys2Proof.Machine

variable {W : Nat}

/-! ### R21, R90: the edges of a tree -/

theorem useNode_of_lt {s : State W} {i : Idx} (h : i < s.nnode) : useNode s i = some (nodeAt s i) :=
  useNode_eq_some.mpr ⟨h, rfl⟩

section

variable {s : State W}

/-- The left child of an internal record comes before it; the right one too, or it is missing (R21 (c), (f)). -/
theorem TreeInv.children (hs : TreeInv s) {n : Idx} (hn : n < s.nnode) (hk : (nodeAt s n).kind = .internal) :
    (nodeAt s n).left < n ∧ (nodeAt s n).left ≠ (nodeAt s n).right ∧
      ((nodeAt s n).right = nullIdx ∨ (nodeAt s n).right < n) := by
  have hge : ¬ n.toNat < s.nsym.toNat := fun hlt => by
    rw [nodeAt_eq_nodeNo, (hs.leaves.isLeaf _ hlt).1] at hk
    cases hk
  obtain ⟨-, hnnode, -⟩ | ⟨hnsym, hnnode, -⟩ | ⟨h2, -⟩ := hs.regs
  · exact absurd hn (by simp [hnnode])
  · obtain rfl : n = 1#9 := by
      rw [hnsym] at hge
      bv_omega
    rw [nodeAt_eq_nodeNo, show (1#9).toNat = 1 from rfl, hs.single hnsym]
    exact ⟨(by decide : 0#9 < 1#9), (by decide : 0#9 ≠ nullIdx), .inl rfl⟩
  · obtain ⟨-, -, hne, hleft, hright, -⟩ := hs.internals h2 n.toNat (by omega) hn
    exact ⟨hleft, hne, .inr hright⟩

/-- Every edge goes to an earlier record. -/
theorem TreeInv.child_lt (hs : TreeInv s) {n : Idx} (hn : n < s.nnode) (hk : (nodeAt s n).kind = .internal) {b : Bool}
    (hc : (nodeAt s n).child b ≠ nullIdx) : (nodeAt s n).child b < n := by
  obtain ⟨hleft, -, hright⟩ := hs.children hn hk
  cases b with
  | false => exact hleft
  | true => exact hright.resolve_left hc

/-- The two edges of a record go to different nodes. -/
theorem TreeInv.child_injective (hs : TreeInv s) {n : Idx} (hn : n < s.nnode) (hk : (nodeAt s n).kind = .internal)
    {a b : Bool} (h : (nodeAt s n).child a = (nodeAt s n).child b) : a = b := by
  obtain ⟨-, hne, -⟩ := hs.children hn hk
  cases a <;> cases b
  · rfl
  · exact absurd h hne
  · exact absurd h.symm hne
  · rfl

/-- R21 (g): a root that is there is an internal record in use. -/
theorem TreeInv.root_internal (hs : TreeInv s) (h : s.root ≠ nullIdx) :
    s.root < s.nnode ∧ (nodeAt s s.root).kind = .internal := by
  obtain ⟨-, -, hroot⟩ | ⟨hnsym, hnnode, hroot⟩ | ⟨h2, -, hnnode, hroot⟩ := hs.regs
  · exact absurd hroot h
  · rw [hroot, hnnode, nodeAt_eq_nodeNo, show (1#9).toNat = 1 from rfl, hs.single hnsym]
    exact ⟨by decide, rfl⟩
  · exact ⟨by rw [BitVec.lt_def]; omega, (hs.internals h2 _ (by omega) (by omega)).1⟩

/-- A tree with a record in use has a root. -/
theorem TreeInv.root_ne_null (hs : TreeInv s) {i : Idx} (hi : i < s.nnode) : s.root ≠ nullIdx := by
  obtain ⟨-, hnnode, -⟩ | ⟨-, -, hroot⟩ | ⟨-, hmost, -, hroot⟩ := hs.regs
  · exact absurd hi (by simp [hnnode])
  · rw [hroot]
    decide
  · intro h
    simp [h] at hroot
    omega

/-- The first `NSYM` records are leaves in use (R21 (b)). -/
theorem TreeInv.leaf_of_lt (hs : TreeInv s) {i : Idx} (hi : i < s.nsym) : i < s.nnode ∧ (nodeAt s i).kind = .leaf := by
  refine ⟨?_, (hs.leaves.isLeaf _ hi).1⟩
  obtain ⟨hnsym, -⟩ | ⟨hnsym, hnnode, -⟩ | ⟨-, -, hnnode, -⟩ := hs.regs
  · exact absurd hi (by simp [hnsym])
  · rw [hnsym] at hi
    rw [hnnode]
    bv_omega
  · rw [BitVec.lt_def] at hi ⊢
    omega

/-- With two or more symbols an internal record has both its children (R21 (c)). -/
theorem TreeInv.right_ne_null (hs : TreeInv s) (h2 : 2 ≤ s.nsym.toNat) {n : Idx} (hn : n < s.nnode)
    (hk : (nodeAt s n).kind = .internal) : (nodeAt s n).right ≠ nullIdx := by
  have hge : ¬ n < s.nsym := fun hlt => by
    rw [(hs.leaf_of_lt hlt).2] at hk
    cases hk
  rw [BitVec.lt_def] at hge
  obtain ⟨-, -, -, -, hright, -⟩ := hs.internals h2 n.toNat (by omega) hn
  exact ne_nullIdx_of_lt hright

/-- The other records in use are no leaves (R21 (c), (g)). -/
theorem TreeInv.lt_of_leaf (hs : TreeInv s) {i : Idx} (hi : i < s.nnode) (hk : (nodeAt s i).kind = .leaf) : i < s.nsym := by
  obtain ⟨-, hnnode, -⟩ | ⟨hnsym, hnnode, hroot⟩ | ⟨h2, -⟩ := hs.regs
  · exact absurd hi (by simp [hnnode])
  · have hne : i ≠ s.root := by
      rintro rfl
      rw [(hs.root_internal (hs.root_ne_null hi)).2] at hk
      cases hk
    rw [hnsym]
    bv_omega
  · by_contra hge
    rw [BitVec.lt_def] at hge
    rw [nodeAt_eq_nodeNo, (hs.internals h2 _ (by omega) hi).1] at hk
    cases hk

/-- Different leaves have different symbols (R21 (b)). -/
theorem TreeInv.sym_injective (hs : TreeInv s) {i j : Idx} (hi : i < s.nsym) (hj : j < s.nsym)
    (h : (nodeAt s i).sym = (nodeAt s j).sym) : i = j := by
  have heq : (nodeNo s i.toNat).sym.toNat = (nodeNo s j.toNat).sym.toNat := congrArg BitVec.toNat h
  obtain hlt | heqn | hgt := Nat.lt_trichotomy i.toNat j.toNat
  · have := hs.leaves.rising _ _ hlt hj
    omega
  · exact BitVec.eq_of_toNat_eq heqn
  · have := hs.leaves.rising _ _ hgt hi
    omega

theorem isChild_iff {j i : Idx} :
    isChild s j.toNat i.toNat = true ↔ (nodeAt s j).kind = .internal ∧ ∃ b, (nodeAt s j).child b = i := by
  simp [isChild, nodeAt_eq_nodeNo, NodeRec.child, BitVec.toNat_inj]

/-- R21 (d): a node other than the root has a parent. -/
theorem TreeInv.exists_parent (hs : TreeInv s) {i : Idx} (hi : i < s.nnode) (hr : i ≠ s.root) :
    ∃ j b, j < s.nnode ∧ (nodeAt s j).kind = .internal ∧ (nodeAt s j).child b = i := by
  obtain ⟨j, hj⟩ := List.length_eq_one_iff.mp (hs.owned i.toNat hi (by rwa [ne_eq, BitVec.toNat_inj]))
  obtain ⟨hlt, hchild⟩ := List.mem_filter.mp (hj ▸ List.mem_singleton_self j)
  rw [List.mem_range] at hlt
  have hnat : (BitVec.ofNat 9 j).toNat = j := by
    rw [BitVec.toNat_ofNat]
    omega
  rw [← hnat] at hlt hchild
  obtain ⟨hk, b, hb⟩ := isChild_iff.mp hchild
  exact ⟨BitVec.ofNat 9 j, b, hlt, hk, hb⟩

/-- R21 (d): it has only one. -/
theorem TreeInv.parent_unique (hs : TreeInv s) {i j k : Idx} (hi : i < s.nnode) (hr : i ≠ s.root) (hj : j < s.nnode)
    (hk : k < s.nnode) (hij : isChild s j.toNat i.toNat = true) (hik : isChild s k.toNat i.toNat = true) : j = k := by
  obtain ⟨m, hm⟩ := List.length_eq_one_iff.mp (hs.owned i.toNat hi (by rwa [ne_eq, BitVec.toNat_inj]))
  have honly : ∀ x : Idx, x < s.nnode → isChild s x.toNat i.toNat = true → x.toNat = m := fun x hx hix =>
    List.mem_singleton.mp (hm ▸ List.mem_filter.mpr ⟨List.mem_range.mpr hx, hix⟩)
  exact BitVec.eq_of_toNat_eq ((honly j hj hij).trans (honly k hk hik).symm)

/-! ### R90: one walk to each node -/

theorem walk_nil {n m : Idx} : walk s n [] = some m ↔ n = m := by
  rw [walk, Option.some.injEq]

theorem walk_append {n m : Idx} {p q : Bits} :
    walk s n (p ++ q) = some m ↔ ∃ k, walk s n p = some k ∧ walk s k q = some m := by
  induction p generalizing n with
  | nil => simp only [List.nil_append, walk_nil, exists_eq_left']
  | cons b p ih =>
    rw [List.cons_append, walk_cons, ih]
    simp only [walk_cons]
    tauto

/-- The last edge of a walk. -/
theorem walk_concat {n m : Idx} {p : Bits} {b : Bool} : walk s n (p ++ [b]) = some m ↔
    ∃ k, walk s n p = some k ∧ k < s.nnode ∧ (nodeAt s k).kind = .internal ∧ (nodeAt s k).child b ≠ nullIdx ∧
      (nodeAt s k).child b = m := by
  simp only [walk_append, walk_cons, walk_nil]

theorem walk_congr {t : State W} (h : SameTree s t) (n : Idx) (p : Bits) : walk t n p = walk s n p := by
  obtain ⟨hnode, -, hnnode, -⟩ := h
  have huse : ∀ i, useNode t i = useNode s i := fun i => by
    simp only [useNode, hnnode, nodeAt_eq_nodeNo, nodeNo_congr hnode]
  induction p generalizing n with
  | nil => rfl
  | cons b p ih => simp only [walk, huse, ih]

/-- A walk goes down to earlier records. -/
theorem TreeInv.walk_le (hs : TreeInv s) {n m : Idx} {p : Bits} (h : walk s n p = some m) : m ≤ n := by
  induction p generalizing n with
  | nil =>
    obtain rfl : n = m := walk_nil.mp h
    exact BitVec.le_refl n
  | cons b p ih =>
    obtain ⟨hn, hk, hc, h⟩ := walk_cons.mp h
    exact BitVec.le_trans (ih h) (BitVec.le_of_lt (hs.child_lt hn hk hc))

theorem TreeInv.walk_concat_lt (hs : TreeInv s) {n m : Idx} {p : Bits} {b : Bool} (h : walk s n (p ++ [b]) = some m) :
    m < n := by
  obtain ⟨k, hwalk, hk, hint, hc, rfl⟩ := walk_concat.mp h
  exact Nat.lt_of_lt_of_le (hs.child_lt hk hint hc) (hs.walk_le hwalk)

/-- Two walks to one node end with the edge from its one parent; going back, they are the same to the root. -/
theorem TreeInv.walk_unique (hs : TreeInv s) {p q : Bits} {i : Idx} (hp : walk s s.root p = some i)
    (hq : walk s s.root q = some i) : p = q := by
  induction p using List.reverseRecOn generalizing q i with
  | nil =>
    obtain rfl : s.root = i := walk_nil.mp hp
    obtain rfl | ⟨q, c, rfl⟩ := List.eq_nil_or_concat' q
    · rfl
    · exact absurd (hs.walk_concat_lt hq) (BitVec.lt_irrefl _)
  | append_singleton p b ih =>
    have hlt := hs.walk_concat_lt hp
    obtain rfl | ⟨q, c, rfl⟩ := List.eq_nil_or_concat' q
    · obtain rfl : s.root = i := walk_nil.mp hq
      exact absurd hlt (BitVec.lt_irrefl _)
    · obtain ⟨j, hpj, hj, hjk, hjc, rfl⟩ := walk_concat.mp hp
      obtain ⟨k, hqk, hk, hkk, -, hkc⟩ := walk_concat.mp hq
      have hi := BitVec.lt_trans (hs.child_lt hj hjk hjc) hj
      obtain rfl := hs.parent_unique hi (BitVec.ne_of_lt hlt) hj hk (isChild_iff.mpr ⟨hjk, b, rfl⟩)
        (isChild_iff.mpr ⟨hkk, c, hkc⟩)
      rw [ih hpj hqk, hs.child_injective hj hjk hkc]

/-- A node in use is reached from the root: from its parent, which comes after it. -/
theorem TreeInv.exists_walk (hs : TreeInv s) {i : Idx} (hi : i < s.nnode) : ∃ p, walk s s.root p = some i := by
  by_cases hr : i = s.root
  · exact ⟨[], walk_nil.mpr hr.symm⟩
  · obtain ⟨j, b, hj, hk, rfl⟩ := hs.exists_parent hi hr
    have hc := ne_nullIdx_of_lt hi
    have hlt := hs.child_lt hj hk hc
    obtain ⟨p, hp⟩ := hs.exists_walk hj
    exact ⟨p ++ [b], walk_snoc hp hj hk hc⟩
termination_by s.nnode.toNat - i.toNat
decreasing_by
  subst_vars
  bv_omega

/-- R65: no walk from the root has more than 255 edges. -/
theorem TreeInv.walk_root_le (hs : TreeInv s) {m : Idx} {p : Bits} (h : walk s s.root p = some m) : p.length ≤ 255 := by
  obtain ⟨-, hnnode, -⟩ | ⟨h1, -⟩ | ⟨h2, hmost, -⟩ := hs.regs
  · cases p with
    | nil => simp
    | cons b p => simp [walk_cons, hnnode] at h
  · cases p with
    | nil => simp
    | cons b p =>
      obtain ⟨-, rfl⟩ := hs.walk_of_single h1 h
      simp
  · have := hs.walk_root_length_le h2 h
    omega

/-- Only the root has the empty path, and it is no leaf (R93 (b)). -/
theorem TreeInv.walk_leaf_ne_nil (hs : TreeInv s) {i : Idx} {p : Bits} (h : walk s s.root p = some i) (hi : i < s.nsym) :
    p ≠ [] := by
  rintro rfl
  obtain rfl : s.root = i := walk_nil.mp h
  obtain ⟨hlt, hleaf⟩ := hs.leaf_of_lt hi
  rw [(hs.root_internal (hs.root_ne_null hlt)).2] at hleaf
  cases hleaf

/-- R93 (d): a path that goes on from a leaf's path ends there. -/
theorem eq_of_prefix_of_leaf {i j : Idx} {p q : Bits} (hp : walk s s.root p = some i) (hk : (nodeAt s i).kind = .leaf)
    (hq : walk s s.root q = some j) (h : p <+: q) : q = p ∧ j = i := by
  obtain ⟨r, rfl⟩ := h
  obtain ⟨k, hpk, hr⟩ := walk_append.mp hq
  obtain rfl : i = k := Option.some.inj (hp.symm.trans hpk)
  obtain rfl := eq_nil_of_walk_leaf hk hr
  exact ⟨List.append_nil p, Option.some.inj hr.symm⟩

end

/-- Settles O38: the walks end with the same edge, that from the node's one parent, and so on up to the root. -/
theorem walksToANodeAreUnique : Obligations.WalksToANodeAreUnique :=
  fun _ _ _ _ hs hp hq => hs.walk_unique hp hq

/-- Settles O42: acceptance tests the kind of the root, and a tree's root is its last record, an internal one. -/
theorem genRefusesALeafRoot : Obligations.GenRefusesALeafRoot := by
  refine ⟨fun s hs hnull hlt hk => ?_, fun s hs hnull => (hs.root_internal hnull).2⟩
  simp [exec, execGen, whenIdle_idle _ hs, startGen, hnull, useNode_of_lt hlt, hk]

end Sys2Proof.Machine
end

section

namespace Sys2Proof.Machine

variable {W : Nat}

/-! ### R29, R91: the paths on `STK` -/

/-- No path goes through both pairs of `STK`. -/
def Apart (a b : Idx × Bits) : Prop := ¬ a.2 <+: b.2 ∧ ¬ b.2 <+: a.2

/-- The path `r` is still ahead of GEN: it goes through a pair on `STK`. -/
def Ahead (k : List (Idx × Bits)) (r : Bits) : Prop := ∃ a ∈ k, a.2 <+: r

/-- What a micro-step that pops a node with the path `p` may push: paths that are longer by an edge, each by another one. -/
structure Pushed (p : Bits) (k : List (Idx × Bits)) : Prop where
  longer : ∀ a ∈ k, ∃ b, a.2 = p ++ [b]
  apart : k.Pairwise Apart

section

variable {n : Idx} {p r : Bits} {k rest : List (Idx × Bits)}

theorem pushed_nil (p : Bits) : Pushed p [] := ⟨nofun, .nil⟩

theorem pushed_genChildren (r : NodeRec W) (p : Bits) : Pushed p (genChildren r p) where
  longer a ha := by
    obtain ⟨b, -, hb⟩ := mem_genChildren ha
    exact ⟨b, hb⟩
  apart := by
    unfold genChildren
    split <;> simp [Apart, List.prefix_append_right_inj]

theorem Pushed.apart_append (hk : Pushed p k) (h : ((n, p) :: rest).Pairwise Apart) : (k ++ rest).Pairwise Apart := by
  obtain ⟨htop, hrest⟩ := List.pairwise_cons.mp h
  refine List.pairwise_append.mpr ⟨hk.apart, hrest, fun a ha c hc => ?_⟩
  obtain ⟨b, hb⟩ := hk.longer a ha
  obtain ⟨hpc, hcp⟩ := htop c hc
  have hpa : p <+: a.2 := ⟨[b], hb.symm⟩
  refine ⟨fun h => hpc (hpa.trans h), fun h => ?_⟩
  rw [hb, List.prefix_concat_iff] at h
  exact h.elim (fun heq => hpc (heq ▸ List.prefix_append p [b])) hcp

/-- A micro-step brings no path ahead that was not. -/
theorem Pushed.ahead (hk : Pushed p k) (h : Ahead (k ++ rest) r) : Ahead ((n, p) :: rest) r := by
  obtain ⟨a, ha, har⟩ := h
  obtain ha | ha := List.mem_append.mp ha
  · obtain ⟨b, hb⟩ := hk.longer a ha
    exact ⟨(n, p), List.mem_cons_self, List.IsPrefix.trans ⟨[b], hb.symm⟩ har⟩
  · exact ⟨a, List.mem_cons_of_mem _ ha, har⟩

/-- The path popped is no longer ahead. -/
theorem Pushed.not_ahead (hk : Pushed p k) (h : ((n, p) :: rest).Pairwise Apart) : ¬ Ahead (k ++ rest) p := by
  rintro ⟨a, ha, hap⟩
  obtain ha | ha := List.mem_append.mp ha
  · obtain ⟨b, hb⟩ := hk.longer a ha
    have := hap.length_le
    rw [hb, List.length_append, List.length_singleton] at this
    omega
  · exact ((List.pairwise_cons.mp h).1 a ha).2 hap

end

/-- Both children that are there are pushed. -/
theorem child_mem_genChildren {r : NodeRec W} (p : Bits) {b : Bool} (h : r.child b ≠ nullIdx) :
    (r.child b, p ++ [b]) ∈ genChildren r p := by
  unfold genChildren
  cases b with
  | false => split <;> simp [NodeRec.child]
  | true =>
    rw [if_neg (show r.right ≠ nullIdx from h)]
    simp [NodeRec.child]

/-! ### R91: the nodes GEN has still to pop -/

/-- The nodes whose path is ahead of GEN. -/
noncomputable def pending (s : State W) (k : List (Idx × Bits)) : Finset Idx :=
  open scoped Classical in {i | ∃ r, walk s s.root r = some i ∧ Ahead k r}

section

variable {s : State W} {n : Idx} {p : Bits} {k rest : List (Idx × Bits)}

theorem mem_pending {i : Idx} : i ∈ pending s k ↔ ∃ r, walk s s.root r = some i ∧ Ahead k r := by
  simp [pending]

theorem mem_pending_top (h : walk s s.root p = some n) : n ∈ pending s ((n, p) :: rest) :=
  mem_pending.mpr ⟨p, h, (n, p), List.mem_cons_self, List.prefix_rfl⟩

/-- A pop takes the node popped, which has no second path, out of those pending. -/
theorem TreeInv.card_pending_lt (hs : TreeInv s) (h : walk s s.root p = some n) (hk : Pushed p k)
    (hapart : ((n, p) :: rest).Pairwise Apart) : (pending s (k ++ rest)).card < (pending s ((n, p) :: rest)).card := by
  have hsub : pending s (k ++ rest) ⊆ pending s ((n, p) :: rest) := fun i hi => by
    obtain ⟨r, hr, hahead⟩ := mem_pending.mp hi
    exact mem_pending.mpr ⟨r, hr, hk.ahead hahead⟩
  refine Finset.card_lt_card ((Finset.ssubset_iff_of_subset hsub).mpr ⟨n, mem_pending_top h, fun hmem => ?_⟩)
  obtain ⟨r, hr, hahead⟩ := mem_pending.mp hmem
  rw [← hs.walk_unique h hr] at hahead
  exact hk.not_ahead hapart hahead

theorem TreeInv.card_pending_le (hs : TreeInv s) (hroot : s.root ≠ nullIdx) : (pending s k).card ≤ s.nnode.toNat := by
  rw [← Finset.length_toList]
  refine length_le_of_inUse (Finset.nodup_toList _) fun i hi => ?_
  obtain ⟨r, hr, -⟩ := mem_pending.mp (Finset.mem_toList.mp hi)
  exact Nat.lt_of_le_of_lt (hs.walk_le hr) (hs.root_internal hroot).1

end

/-! ### R93 (f): the code space, in units of the longest codes -/

/-- The share of the code space that a code of length `n` takes; with length 0 there is no code. -/
def codeSpace (n : Nat) : Nat := if n = 0 then 0 else 2 ^ (255 - n)

/-- The share that the codes in the table take. -/
def usedSpace (s : State W) : Nat :=
  ∑ i ∈ Finset.range Config.nsymMax, codeSpace (codeAt s (BitVec.ofNat 8 i)).len.toNat

/-- The share left to the sub-trees on `STK`. -/
def stackSpace (k : List (Idx × Bits)) : Nat := (k.map fun a => 2 ^ (255 - a.2.length)).sum

theorem sum_byte_ite (b : Byte) (k : Nat) :
    ∑ i ∈ Finset.range Config.nsymMax, (if BitVec.ofNat 8 i = b then k else 0) = k := by
  rw [Finset.sum_eq_single_of_mem b.toNat (Finset.mem_range.mpr b.isLt)]
  · simp
  · intro i hi hne
    rw [Finset.mem_range] at hi
    exact if_neg fun h => hne (by rw [← h, BitVec.toNat_ofNat, Nat.mod_eq_of_lt hi])

theorem usedSpace_of_empty {s : State W} (h : s.code = []) : usedSpace s = 0 :=
  Finset.sum_eq_zero fun i _ => by simp [codeAt, h, codeSpace]

/-- A new entry takes its share. -/
theorem usedSpace_setCode {s : State W} {b : Byte} (v : CodeEnt) (h : codeAt s b = CodeEnt.absent) :
    usedSpace (setCode b v s) = usedSpace s + codeSpace v.len.toNat := by
  have hterm : ∀ c, codeSpace (codeAt (setCode b v s) c).len.toNat =
      codeSpace (codeAt s c).len.toNat + if c = b then codeSpace v.len.toNat else 0 := fun c => by
    rw [codeAt_setCode]
    split
    · rename_i hc
      simp [hc, h, codeSpace]
    · rfl
  simp only [usedSpace, hterm, Finset.sum_add_distrib, sum_byte_ite]

theorem stackSpace_append (k l : List (Idx × Bits)) : stackSpace (k ++ l) = stackSpace k + stackSpace l := by
  simp [stackSpace]

theorem stackSpace_cons (n : Idx) (p : Bits) (k : List (Idx × Bits)) :
    stackSpace ((n, p) :: k) = 2 ^ (255 - p.length) + stackSpace k := by
  simp [stackSpace]

/-- Two children share their parent's part. -/
theorem stackSpace_genChildren {r : NodeRec W} {p : Bits} (hr : r.right ≠ nullIdx) (hp : p.length < 255) :
    stackSpace (genChildren r p) = 2 ^ (255 - p.length) := by
  have hsucc : 255 - p.length = 255 - (p.length + 1) + 1 := by omega
  simp [genChildren, hr, stackSpace, hsucc, Nat.pow_succ, Nat.mul_two]

end Sys2Proof.Machine
end

section

namespace Sys2Proof.Machine

variable {W : Nat}

/-! ### R89, R91: the run of GEN on a tree -/

theorem genMicro_of_leaf {u : State W} {n : Idx} {p : Bits} {rest : List (Idx × Bits)} (hstk : u.stk = (n, p) :: rest)
    (hp : p.length ≤ 255) (hn : n < u.nnode) (hk : (nodeAt u n).kind = .leaf) :
    genMicro u = genHead { setCode (nodeAt u n).sym (CodeEnt.ofPath p) u with stk := rest } := by
  simp [genMicro, hstk, hp, useNode_of_lt hn, hk]

theorem genMicro_of_internal {u : State W} {n : Idx} {p : Bits} {rest : List (Idx × Bits)} (hstk : u.stk = (n, p) :: rest)
    (hp : p.length ≤ 255) (hn : n < u.nnode) (hk : (nodeAt u n).kind = .internal) :
    genMicro u = genHead { u with stk := genChildren (nodeAt u n) p ++ rest } := by
  simp [genMicro, hstk, hp, useNode_of_lt hn, hk]

/-- GEN, accepted in `s`, has come to `u`: no path goes through two pairs of `STK`, the leaves with an entry are those behind it,
and the code space is shared among the entries and `STK`. -/
structure GenAt (s u : State W) : Prop where
  inUse : ∀ a ∈ u.stk, a.1 < s.nnode
  apart : u.stk.Pairwise Apart
  ahead : ∀ i r, i < s.nsym → walk s s.root r = some i → Ahead u.stk r → codeAt u (nodeAt s i).sym = CodeEnt.absent
  behind : ∀ i r, i < s.nsym → walk s s.root r = some i → ¬ Ahead u.stk r → codeAt u (nodeAt s i).sym = CodeEnt.ofPath r
  space : 2 ≤ s.nsym.toNat → usedSpace u + stackSpace u.stk = 2 ^ 255

/-- GEN runs with nodes to pop, or it has completed. -/
def GenPhase (s u : State W) : Prop :=
  (u.stk ≠ [] ∧ u.phase = .gen ∧ u.sLatch = false ∧ u.host = s.host) ∨ Completed 0x3#4 .ok s u

/-- The run of GEN. -/
structure GenRun (s u : State W) : Prop where
  walks : GenWalks s u
  place : GenAt s u
  phase : GenPhase s u

section

variable {s u v t : State W} {n : Idx} {p : Bits} {rest : List (Idx × Bits)}

theorem GenAt.congr (hv : GenAt s v) (hstk : t.stk = v.stk) (hcode : t.code = v.code) : GenAt s t := by
  have hat : ∀ b, codeAt t b = codeAt v b := codeAt_congr hcode
  have hspace : usedSpace t = usedSpace v := by simp only [usedSpace, hat]
  refine ⟨?_, ?_, ?_, ?_, ?_⟩
  · rw [hstk]; exact hv.inUse
  · rw [hstk]; exact hv.apart
  · simp only [hstk, hat]; exact hv.ahead
  · simp only [hstk, hat]; exact hv.behind
  · rw [hspace, hstk]; exact hv.space

/-- The children pushed come before their parent. -/
theorem TreeInv.genChildren_lt (hs : TreeInv s) (hn : n < s.nnode) (hk : (nodeAt s n).kind = .internal) {a : Idx × Bits}
    (ha : a ∈ genChildren (nodeAt s n) p) : a.1 < n := by
  obtain ⟨hleft, -, hright⟩ := hs.children hn hk
  unfold genChildren at ha
  split at ha
  · rw [List.mem_singleton.mp ha]
    exact hleft
  · rename_i hne
    simp only [List.mem_cons, List.not_mem_nil, or_false] at ha
    obtain rfl | rfl := ha
    · exact hleft
    · exact hright.resolve_left hne

/-- The head of the loop keeps `STK` and `CODE`, and completes when nothing is left to pop. -/
theorem genHead_answers (hp : v.phase = .gen) (hl : v.sLatch = false) (hh : v.host = s.host) :
    ∃ t, genHead v = .next t ∧ t.stk = v.stk ∧ t.code = v.code ∧ GenPhase s t := by
  by_cases hstk : v.stk = []
  · refine ⟨finishOk v, if_pos hstk, hstk.symm, rfl, .inr ?_⟩
    exact { idle := rfl, done := rfl, err := rfl, strict := hl, host := hh, queue := rfl, stack := rfl }
  · exact ⟨v, if_neg hstk, rfl, rfl, .inl ⟨hstk, hp, hl, hh⟩⟩

/-- The state after acceptance and the first push of GEN (R89), before the test of the loop. -/
def genStart (k : List (Idx × Bits)) (s : State W) : State W :=
  { accept (encode .gen) .gen s with code := [], stk := k }

theorem startGen_of_null (h : s.root = nullIdx) : startGen s = genHead (genStart [] s) := if_pos h

theorem startGen_of_internal (h : s.root ≠ nullIdx) (hlt : s.root < s.nnode) (hk : (nodeAt s s.root).kind = .internal) :
    startGen s = genHead (genStart [(s.root, [])] s) := by
  simp [startGen, h, useNode_of_lt hlt, hk, genStart]

/-- Acceptance stands at the root of a tree that is there, with the whole code space before it. -/
theorem TreeInv.genAt_genStart (hs : TreeInv s) : ∃ k, startGen s = genHead (genStart k s) ∧ GenAt s (genStart k s) := by
  by_cases hroot : s.root = nullIdx
  · have hnone : ∀ i, ¬ i < s.nsym := fun i hi => hs.root_ne_null (hs.leaf_of_lt hi).1 hroot
    refine ⟨[], startGen_of_null hroot, nofun, .nil, fun i _ hi => absurd hi (hnone i), fun i _ hi => absurd hi (hnone i),
      fun h2 => ?_⟩
    exact absurd hroot (hs.root_right h2).1
  · obtain ⟨hlt, hk⟩ := hs.root_internal hroot
    refine ⟨[(s.root, [])], startGen_of_internal hroot hlt hk, fun a ha => ?_, List.pairwise_singleton _ _,
      fun _ _ _ _ _ => rfl, fun i r _ _ h => ?_, fun _ => ?_⟩
    · rw [List.mem_singleton.mp ha]
      exact hlt
    · exact absurd ⟨_, List.mem_singleton_self _, List.nil_prefix⟩ h
    · rw [usedSpace_of_empty rfl]
      simp [genStart, stackSpace]

theorem TreeInv.genRun_startGen (hs : TreeInv s) : ∃ u, startGen s = .next u ∧ GenRun s u := by
  obtain ⟨k, heq, hstart⟩ := hs.genAt_genStart
  obtain ⟨u, hu, hstk, hcode, hphase⟩ := genHead_answers (s := s) (v := genStart k s) rfl rfl rfl
  rw [← heq] at hu
  exact ⟨u, hu, genWalks_startGen hu, hstart.congr hstk hcode, hphase⟩

/-- A leaf popped takes no other leaf's path with it. -/
theorem ahead_pop_leaf_iff (hwalk : walk s s.root p = some n) (hk : (nodeAt s n).kind = .leaf) {i : Idx} {r : Bits}
    (hr : walk s s.root r = some i) (hne : i ≠ n) : Ahead rest r ↔ Ahead ((n, p) :: rest) r := by
  refine ⟨(pushed_nil p).ahead, fun ⟨a, ha, har⟩ => ?_⟩
  obtain rfl | ha := List.mem_cons.mp ha
  · exact absurd (eq_of_prefix_of_leaf hwalk hk hr har).2 hne
  · exact ⟨a, ha, har⟩

/-- A leaf's path through an internal node goes on through one of its children. -/
theorem TreeInv.ahead_pop_internal_iff (hs : TreeInv s) (hwalk : walk s s.root p = some n)
    (hk : (nodeAt s n).kind = .internal) {i : Idx} {r : Bits} (hi : i < s.nsym) (hr : walk s s.root r = some i) :
    Ahead (genChildren (nodeAt s n) p ++ rest) r ↔ Ahead ((n, p) :: rest) r := by
  refine ⟨(pushed_genChildren _ p).ahead, fun ⟨a, ha, har⟩ => ?_⟩
  obtain rfl | ha := List.mem_cons.mp ha
  · obtain ⟨q, rfl⟩ := har
    obtain ⟨m, hm, hq⟩ := walk_append.mp hr
    obtain rfl : n = m := Option.some.inj (hwalk.symm.trans hm)
    cases q with
    | nil =>
      obtain rfl := walk_nil.mp hq
      rw [(hs.leaf_of_lt hi).2] at hk
      cases hk
    | cons b q =>
      obtain ⟨-, -, hc, -⟩ := walk_cons.mp hq
      exact ⟨_, List.mem_append_left _ (child_mem_genChildren p hc), ⟨q, by simp⟩⟩
  · exact ⟨a, List.mem_append_right _ ha, har⟩

/-- A leaf popped: its entry is written, and takes the leaf's share of the code space. -/
theorem GenAt.pop_leaf (hu : GenAt s u) (hs : TreeInv s) (hstk : u.stk = (n, p) :: rest) (hwalk : walk s s.root p = some n)
    (hk : (nodeAt s n).kind = .leaf) :
    GenAt s { setCode (nodeAt s n).sym (CodeEnt.ofPath p) u with stk := rest } := by
  obtain ⟨hinUse, hapart, hahead, hbehind, hspace⟩ := hu
  rw [hstk] at hinUse hapart hspace
  have hn : n < s.nsym := hs.lt_of_leaf (hinUse (n, p) List.mem_cons_self) hk
  have hcode : ∀ i, i < s.nsym → codeAt (setCode (nodeAt s n).sym (CodeEnt.ofPath p) u) (nodeAt s i).sym =
      if i = n then CodeEnt.ofPath p else codeAt u (nodeAt s i).sym := fun i hi => by
    rw [codeAt_setCode]
    exact if_congr ⟨hs.sym_injective hi hn, fun h => by rw [h]⟩ rfl rfl
  refine ⟨fun a ha => hinUse a (List.mem_cons_of_mem _ ha), hapart.tail, fun i r hi hr h => (hcode i hi).trans ?_,
    fun i r hi hr h => (hcode i hi).trans ?_, fun h2 => ?_⟩
  · split
    · rename_i hin
      subst hin
      rw [hs.walk_unique hr hwalk] at h
      exact absurd h ((pushed_nil p).not_ahead hapart)
    · rename_i hne
      exact hahead i r hi hr (hstk ▸ (ahead_pop_leaf_iff hwalk hk hr hne).mp h)
  · split
    · rename_i hin
      subst hin
      rw [hs.walk_unique hr hwalk]
    · rename_i hne
      exact hbehind i r hi hr (hstk ▸ mt (ahead_pop_leaf_iff hwalk hk hr hne).mpr h)
  · have hnone := hahead n p hn hwalk (hstk ▸ ⟨(n, p), List.mem_cons_self, List.prefix_rfl⟩)
    have hused : usedSpace (setCode (nodeAt s n).sym (CodeEnt.ofPath p) u) = usedSpace u + 2 ^ (255 - p.length) := by
      rw [usedSpace_setCode _ hnone, ofPath_len (hs.walk_root_le hwalk), codeSpace,
        if_neg (by simpa using hs.walk_leaf_ne_nil hwalk hn)]
    calc usedSpace (setCode (nodeAt s n).sym (CodeEnt.ofPath p) u) + stackSpace rest
        = usedSpace u + stackSpace ((n, p) :: rest) := by rw [hused, stackSpace_cons, Nat.add_assoc]
      _ = 2 ^ 255 := hspace h2

/-- An internal node popped: its children are pushed, and share its part of the code space. -/
theorem GenAt.pop_internal (hu : GenAt s u) (hs : TreeInv s) (hstk : u.stk = (n, p) :: rest)
    (hwalk : walk s s.root p = some n) (hk : (nodeAt s n).kind = .internal) :
    GenAt s { u with stk := genChildren (nodeAt s n) p ++ rest } := by
  obtain ⟨hinUse, hapart, hahead, hbehind, hspace⟩ := hu
  rw [hstk] at hinUse hapart hspace
  have hn : n < s.nnode := hinUse (n, p) List.mem_cons_self
  refine ⟨fun a ha => ?_, (pushed_genChildren _ p).apart_append hapart, fun i r hi hr h => ?_, fun i r hi hr h => ?_,
    fun h2 => ?_⟩
  · obtain ha | ha := List.mem_append.mp ha
    · exact BitVec.lt_trans (hs.genChildren_lt hn hk ha) hn
    · exact hinUse a (List.mem_cons_of_mem _ ha)
  · exact hahead i r hi hr (hstk ▸ (hs.ahead_pop_internal_iff hwalk hk hi hr).mp h)
  · exact hbehind i r hi hr (hstk ▸ mt (hs.ahead_pop_internal_iff hwalk hk hi hr).mpr h)
  · have hright := hs.right_ne_null h2 hn hk
    have hlen := hs.walk_root_le (walk_snoc (b := true) hwalk hn hk hright)
    rw [List.length_append, List.length_singleton] at hlen
    rw [stackSpace_append, stackSpace_genChildren hright (by omega), ← stackSpace_cons n]
    exact hspace h2

/-- R91: a micro-step pops a node; what it pushes are longer paths. -/
theorem GenRun.genMicro_eq (hu : GenRun s u) (hs : TreeInv s) (hstk : u.stk = (n, p) :: rest) :
    ∃ k v, genMicro u = genHead v ∧ Pushed p k ∧ v.stk = k ++ rest ∧ GenAt s v ∧
      v.phase = u.phase ∧ v.sLatch = u.sLatch ∧ v.host = u.host := by
  obtain ⟨hnode, -, hnnode, -⟩ := hu.walks.tree
  have hno : nodeAt u n = nodeAt s n := nodeNo_congr hnode n.toNat
  have hn : n < s.nnode := hu.place.inUse (n, p) (hstk ▸ List.mem_cons_self)
  have hwalk : walk s s.root p = some n := hu.walks.stack n p (hstk ▸ List.mem_cons_self) (ne_nullIdx_of_lt hn)
  have hp := hs.walk_root_le hwalk
  cases hk : (nodeAt s n).kind with
  | leaf =>
    have heq := genMicro_of_leaf hstk hp (hnnode ▸ hn) (hno ▸ hk)
    rw [hno] at heq
    exact ⟨[], _, heq, pushed_nil p, rfl, hu.place.pop_leaf hs hstk hwalk hk, rfl, rfl, rfl⟩
  | internal =>
    have heq := genMicro_of_internal hstk hp (hnnode ▸ hn) (hno ▸ hk)
    rw [hno] at heq
    exact ⟨_, _, heq, pushed_genChildren _ p, rfl, hu.place.pop_internal hs hstk hwalk hk, rfl, rfl, rfl⟩

/-- While GEN runs there is a node to pop. -/
theorem GenRun.top (hu : GenRun s u) (hp : u.phase ≠ .idle) : ∃ n p rest, u.stk = (n, p) :: rest ∧
    walk s s.root p = some n ∧ u.phase = .gen ∧ u.sLatch = false ∧ u.host = s.host := by
  obtain ⟨hne, hrunning⟩ | hdone := hu.phase
  · obtain ⟨⟨n, p⟩, rest, hstk⟩ := List.exists_cons_of_ne_nil hne
    have hmem : (n, p) ∈ u.stk := hstk ▸ List.mem_cons_self
    exact ⟨n, p, rest, hstk, hu.walks.stack n p hmem (ne_nullIdx_of_lt (hu.place.inUse _ hmem)), hrunning⟩
  · exact absurd hdone.idle hp

/-- R91: a micro-step of GEN on a tree answers, and a node fewer is pending. -/
theorem GenRun.genMicro (hu : GenRun s u) (hs : TreeInv s) (hp : u.phase ≠ .idle) :
    ∃ t, genMicro u = .next t ∧ GenRun s t ∧ (pending s t.stk).card < (pending s u.stk).card := by
  obtain ⟨n, p, rest, hstk, hwalk, hphase, hlatch, hhost⟩ := hu.top hp
  obtain ⟨k, v, heq, hpush, hvstk, hv, hvphase, hvlatch, hvhost⟩ := hu.genMicro_eq hs hstk
  obtain ⟨t, ht, htstk, hcode, htphase⟩ :=
    genHead_answers (hvphase.trans hphase) (hvlatch.trans hlatch) (hvhost.trans hhost)
  rw [← heq] at ht
  refine ⟨t, ht, ⟨genWalks_genMicro hu.walks ht, hv.congr htstk hcode, htphase⟩, ?_⟩
  rw [htstk, hvstk, hstk]
  exact hs.card_pending_lt hwalk hpush (hstk ▸ hu.place.apart)

/-- R89, R94: GEN on a tree completes. -/
theorem TreeInv.genRun_execGen (hs : TreeInv s) (hp : s.phase = .idle) :
    ∃ t, execGen s = .next t ∧ GenRun s t ∧ t.phase = .idle := by
  obtain ⟨u, hstart, hu⟩ := hs.genRun_startGen
  rw [execGen, whenIdle_idle _ hp, hstart, andThen_next]
  refine runUnit_completes (GenRun s) (fun u => (pending s u.stk).card) (fun u hu hp => ?_) (fun u hu hp => ?_) _ u hu
    fun hp => ?_
  · obtain ⟨n, p, rest, hstk, hwalk, -⟩ := hu.top hp
    rw [hstk]
    exact Finset.card_pos.mpr ⟨n, mem_pending_top hwalk⟩
  · obtain ⟨t, ht, hrun, hlt⟩ := hu.genMicro hs hp
    exact ⟨t, ht, hrun, fun _ => hlt⟩
  · obtain ⟨n, p, rest, hstk, -⟩ := hu.top hp
    exact hs.card_pending_le (hs.root_ne_null (hu.place.inUse (n, p) (hstk ▸ List.mem_cons_self)))

end

/-! ### R92, R93: the table GEN leaves -/

section

variable {s t : State W} {b : Byte}

theorem GenRun.completed (ht : GenRun s t) (hp : t.phase = .idle) : Completed 0x3#4 .ok s t := by
  obtain ⟨-, hphase, -⟩ | hdone := ht.phase
  · rw [hphase] at hp
    cases hp
  · exact hdone

/-- At the end every leaf is behind GEN. -/
theorem GenRun.codesOfTree (ht : GenRun s t) (hs : TreeInv s) (hp : t.phase = .idle) : CodesOfTree t := by
  obtain ⟨hnode, hnsym, -, hroot⟩ := ht.walks.tree
  have hno : ∀ i, nodeAt t i = nodeAt s i := fun i => nodeNo_congr hnode i.toNat
  refine ⟨fun i hi => ?_, fun b hb => ?_⟩
  · rw [hnsym] at hi
    obtain ⟨r, hr⟩ := hs.exists_walk (hs.leaf_of_lt hi).1
    have hbehind : ¬ Ahead t.stk r := fun ⟨a, ha, _⟩ => by
      rw [(ht.completed hp).stack] at ha
      cases ha
    refine ⟨r, List.length_pos_of_ne_nil (hs.walk_leaf_ne_nil hr hi), hs.walk_root_le hr, ?_, ?_⟩
    · rw [walk_congr ht.walks.tree, hroot]
      exact hr
    · rw [hno]
      exact ht.place.behind i r hi hr hbehind
  · refine (ht.walks.codes b).resolve_right fun ⟨i, p, hi, hk, hsym, _⟩ => ?_
    rw [← hno] at hsym
    exact hb i (hnsym ▸ hs.lt_of_leaf hi hk) hsym

end

end Sys2Proof.Machine
end

section

namespace Sys2Proof.Machine

variable {W : Nat}

/-! ### R92, R93: the table of a tree -/

section

variable {s : State W} {a b : Byte}

/-- R93 (a), (b): the symbols of the leaves have an entry, and they alone. -/
theorem CodesOfTree.len_ne_zero_iff (h : CodesOfTree s) :
    (codeAt s b).len ≠ 0#8 ↔ ∃ i, i < s.nsym ∧ (nodeAt s i).sym = b := by
  constructor
  · intro hne
    by_contra hnone
    exact hne (by rw [h.absent b fun i hi hb => hnone ⟨i, hi, hb⟩])
  · rintro ⟨i, hi, rfl⟩ hzero
    obtain ⟨p, hpos, hp, -, hcode⟩ := h.leaf i hi
    have hlen := ofPath_len hp
    rw [← hcode, hzero] at hlen
    simp only [BitVec.toNat_ofNat, Nat.zero_mod] at hlen
    omega

/-- R93 (c), (d): a code that goes on from a leaf's path is that of the same leaf. -/
theorem CodesOfTree.eq_of_prefix (h : CodesOfTree s) (hs : TreeInv s) (ha : (codeAt s a).len ≠ 0#8)
    (hb : (codeAt s b).len ≠ 0#8) (hpre : (codeAt s a).string <+: (codeAt s b).string) : a = b := by
  obtain ⟨i, hi, rfl⟩ := h.len_ne_zero_iff.mp ha
  obtain ⟨j, hj, rfl⟩ := h.len_ne_zero_iff.mp hb
  obtain ⟨p, -, hp, hpi, hpcode⟩ := h.leaf i hi
  obtain ⟨q, -, hq, hqj, hqcode⟩ := h.leaf j hj
  rw [hpcode, hqcode, string_ofPath hp, string_ofPath hq] at hpre
  rw [(eq_of_prefix_of_leaf hpi (hs.leaf_of_lt hi).2 hqj hpre).2]

/-- R92: the one edge of the synthesized root is the one code. -/
theorem CodesOfTree.single (h : CodesOfTree s) (hs : TreeInv s) (h1 : s.nsym = 1#9) (b : Byte) :
    codeAt s b = if b = (nodeNo s 0).sym then CodeEnt.ofPath [false] else CodeEnt.absent := by
  split
  · rename_i hb
    obtain ⟨p, hpos, -, hwalk, hcode⟩ := h.leaf 0#9 (by simp [h1])
    obtain ⟨c, p, rfl⟩ := List.exists_cons_of_ne_nil (List.ne_nil_of_length_pos hpos)
    obtain ⟨rfl, rfl⟩ := hs.walk_of_single h1 hwalk
    rw [hb]
    exact hcode
  · rename_i hb
    refine h.absent b fun i hi hsym => hb ?_
    obtain rfl : i = 0#9 := by
      rw [h1] at hi
      bv_omega
    exact hsym.symm

/-- R93 (f): with one symbol half the code space is used. -/
theorem CodesOfTree.usedSpace_of_single (h : CodesOfTree s) (hs : TreeInv s) (h1 : s.nsym = 1#9) : usedSpace s = 2 ^ 254 := by
  have hterm : ∀ b, codeSpace (codeAt s b).len.toNat = if b = (nodeNo s 0).sym then 2 ^ 254 else 0 := fun b => by
    rw [h.single hs h1]
    split
    · rw [ofPath_len (by simp)]
      rfl
    · rfl
  simp only [usedSpace, hterm, sum_byte_ite]

end

/-! ### The obligations -/

/-- What GEN answers on a tree. -/
theorem exec_gen {s : State} (hs : TreeInv s) (hp : s.phase = .idle) :
    ∃ t, exec .gen s = .next t ∧ GenRun s t ∧ Completed 0x3#4 .ok s t ∧ TreeInv t ∧ CodesOfTree t := by
  obtain ⟨t, ht, hrun, hidle⟩ := hs.genRun_execGen hp
  exact ⟨t, ht, hrun, hrun.completed hidle, hs.congr hrun.walks.tree, hrun.codesOfTree hs hidle⟩

/-- Settles O37: each micro-step pops a node that has one path, so GEN comes to an end, with every leaf behind it. -/
theorem genRecordsEveryLeafsPath : Obligations.GenRecordsEveryLeafsPath := by
  intro s hp hs
  obtain ⟨t, ht, -, hdone, -, hcodes⟩ := exec_gen hs hp
  have hw : WritesOnly .gen s t := execAt_writesOnly (i := .gen) ht
  exact ⟨t, ht, hdone, hcodes, hw.freq nofun, hw.tree nofun, hw.input, hw.bits nofun, hw.out nofun⟩

/-- Settles O36: the null tree completes at acceptance, and in the one-symbol tree there is one edge to walk. -/
theorem genOfDegenerateTrees : Obligations.GenOfDegenerateTrees := by
  refine ⟨fun s hp hroot => ?_, fun s hp hs h1 => ?_⟩
  · obtain ⟨t, ht, hstk, hcode, ⟨hne, -⟩ | hdone⟩ := genHead_answers (s := s) (v := genStart [] s) rfl rfl rfl
    · exact absurd hstk hne
    · refine ⟨t, ?_, hdone, codeAt_congr hcode⟩
      rw [exec, execGen, whenIdle_idle _ hp, startGen_of_null hroot, ht, andThen_next, runUnit_idle _ _ hdone.idle]
  · obtain ⟨t, ht, hrun, hdone, htree, hcodes⟩ := exec_gen hs hp
    obtain ⟨hnode, hnsym, -⟩ := hrun.walks.tree
    have hcode := hcodes.single htree (hnsym.trans h1)
    rw [nodeNo_congr hnode] at hcode
    refine ⟨t, ht, hdone, ?_, fun b hb => (hcode b).trans (if_neg hb)⟩
    rw [hcode, if_pos rfl, string_ofPath (by simp)]

/-- Settles O39: the entries are the paths of the leaves, and no walk goes on from a leaf. -/
theorem genCodesArePrefixFree : Obligations.GenCodesArePrefixFree := by
  intro s t hp hs h
  obtain ⟨u, hu, hrun, -, htree, hcodes⟩ := exec_gen hs hp
  cases hu.symm.trans h
  obtain ⟨hnode, hnsym, -⟩ := hrun.walks.tree
  refine ⟨fun b => ?_, fun a b hab ha hb hpre => hab (hcodes.eq_of_prefix htree ha hb hpre)⟩
  rw [hcodes.len_ne_zero_iff, hnsym]
  simp only [nodeAt_eq_nodeNo, nodeNo_congr hnode]
  refine ⟨fun ⟨i, hi, hb⟩ => ⟨i.toNat, hi, hb⟩, fun ⟨i, hi, hb⟩ => ⟨BitVec.ofNat 9 i, ?_⟩⟩
  have hnat : (BitVec.ofNat 9 i).toNat = i := by
    rw [BitVec.toNat_ofNat]
    omega
  rw [BitVec.lt_def, hnat]
  exact ⟨hi, hb⟩

/-- Settles O41: each pop shares the space of a node among its children or gives it to its entry, and at the end none is left on
`STK`. -/
theorem genCodeIsComplete : Obligations.GenCodeIsComplete := by
  intro s t hp hs h total
  obtain ⟨u, hu, hrun, hdone, htree, hcodes⟩ := exec_gen hs hp
  cases hu.symm.trans h
  have htotal : total = usedSpace t := rfl
  refine ⟨fun h2 => ?_, fun h1 => ?_⟩
  · have hnone : stackSpace t.stk = 0 := by
      rw [hdone.stack]
      rfl
    rw [htotal, ← hrun.place.space h2, hnone, Nat.add_zero]
  · obtain ⟨-, hnsym, -⟩ := hrun.walks.tree
    rw [htotal, hcodes.usedSpace_of_single htree (hnsym.trans h1), ← Nat.pow_succ']

end Sys2Proof.Machine
end

/-! PROOFS of the family `43_encoder.md`: one run of ENCODE, symbol by symbol and beat by beat (R96 to R99), which says what it answers
(R100, R101), what it puts on the serial port (R97, R154) and how long the result is (R102). -/

section

namespace Sys2Proof.Machine

variable {W : Nat}

/-! ### R23, R96: codes one after the other -/

/-- `CODE` has an entry for the symbol (R23). -/
def hasCode (s : State W) (b : Byte) : Bool := decide ((codeAt s b).len ≠ 0#8)

theorem hasCode_iff {s : State W} {b : Byte} : hasCode s b = true ↔ (codeAt s b).len ≠ 0#8 := decide_eq_true_iff

theorem length_string (c : CodeEnt) : c.string.length = c.len.toNat := by simp [CodeEnt.string]

theorem take_succ_string (c : CodeEnt) {j : Nat} (h : j < c.len.toNat) :
    c.string.take (j + 1) = c.string.take j ++ [c.bits.getLsbD j] := by
  have hget : c.string[j]? = some (c.bits.getLsbD j) := by simp [CodeEnt.string, h]
  rw [List.take_add_one, hget, Option.toList_some]

theorem codesOf_concat (s : State W) (l : List Byte) (b : Byte) :
    codesOf s (l ++ [b]) = codesOf s l ++ (codeAt s b).string := by
  simp [codesOf]

theorem codesOf_congr {s t : State W} (h : ∀ b, codeAt t b = codeAt s b) (l : List Byte) : codesOf t l = codesOf s l := by
  simp only [codesOf, h]

theorem length_codesOf (s : State W) (l : List Byte) :
    (codesOf s l).length = (l.map fun b => (codeAt s b).len.toNat).sum := by
  simp only [codesOf, List.length_flatten, List.map_map, Function.comp_def, length_string]

theorem length_codesOf_le (s : State W) (l : List Byte) : (codesOf s l).length ≤ 255 * l.length := by
  rw [length_codesOf, Nat.mul_comm]
  refine (List.sum_le_card_nsmul _ 255 fun n hn => ?_).trans_eq (by simp)
  obtain ⟨b, -, rfl⟩ := List.mem_map.mp hn
  exact Nat.le_of_lt_succ (codeAt s b).len.isLt

theorem le_length_codesOf {s : State W} {l : List Byte} (h : ∀ b ∈ l, hasCode s b = true) :
    l.length ≤ (codesOf s l).length := by
  rw [length_codesOf, ← List.length_map (fun b => (codeAt s b).len.toNat)]
  refine List.length_le_sum_of_one_le _ fun n hn => ?_
  obtain ⟨b, hb, rfl⟩ := List.mem_map.mp hn
  have hne := hasCode_iff.mp (h b hb)
  bv_omega

/-- A sum over a byte string is a sum over the symbols, each as often as it occurs. -/
theorem sum_map_eq_sum_count (f : Byte → Nat) (l : List Byte) : (l.map f).sum =
    ∑ i ∈ Finset.range Config.nsymMax, l.count (BitVec.ofNat 8 i) * f (BitVec.ofNat 8 i) := by
  induction l with
  | nil => simp
  | cons a l ih =>
    have hterm : ∀ c, (a :: l).count c * f c = l.count c * f c + if c = a then f a else 0 := fun c => by
      rw [List.count_cons]
      by_cases hc : c = a
      · simp [hc, Nat.add_mul]
      · simp [hc, Ne.symm hc]
    rw [List.map_cons, List.sum_cons, ih, Nat.add_comm]
    simp only [hterm, Finset.sum_add_distrib, sum_byte_ite]

/-! ### R96: what ENCODE reads -/

/-- The symbols ENCODE is to read: the first `ILEN` of `IN` (R96). -/
def encodeInput (s : State W) : List Byte := s.input.take s.ilen.toNat

/-- Every symbol that ENCODE is to read has an entry. -/
def encodable (s : State W) : Bool := (encodeInput s).all (hasCode s)

section

variable {s : State W} {k : Nat} {b : Byte}

theorem encodable_iff : encodable s = true ↔ ∀ b ∈ encodeInput s, hasCode s b = true := List.all_eq_true

theorem encodeInput_of_length (h : s.input.length = s.ilen.toNat) : encodeInput s = s.input :=
  List.take_of_length_le h.le

/-- Symbol `k` stands behind the first `k`. -/
theorem exists_encodeInput_eq (hk : k < s.ilen.toNat) (hb : s.input[k]? = some b) :
    ∃ rest, encodeInput s = s.input.take k ++ b :: rest := by
  obtain ⟨n, hn⟩ := Nat.exists_eq_add_of_lt hk
  obtain ⟨hlt, rfl⟩ := List.getElem?_eq_some_iff.mp hb
  refine ⟨(s.input.drop (k + 1)).take n, ?_⟩
  rw [encodeInput, hn, Nat.add_assoc, List.take_add, List.drop_eq_getElem_cons hlt, List.take_succ_cons]

/-- R101: what ENCODE reads, and whether all of it has entries, is told by `IN`, `ILEN` and `CODE`. -/
theorem encodeInput_congr {t : State W} (hin : t.input = s.input) (hilen : t.ilen = s.ilen) :
    encodeInput t = encodeInput s := by
  simp only [encodeInput, hin, hilen]

theorem encodable_congr {t : State W} (hinput : encodeInput t = encodeInput s) (hcode : ∀ b, codeAt t b = codeAt s b) :
    encodable t = encodable s := by
  simp only [encodable, hinput, funext fun b => show hasCode t b = hasCode s b by simp only [hasCode, hcode]]

end

/-! ### R96 to R99: the run of ENCODE -/

/-- ENCODE, accepted in `s`, has come to `u`: it has appended the codes of the first `k` symbols and then `part`. -/
structure EncodeAt (s : State W) (k : Nat) (part : Bits) (u : State W) : Prop where
  phase : u.phase = .encode
  strict : u.sLatch = false
  frame : WritesOnly .encode s u
  cursor : u.ipos.toNat = k
  inside : k ≤ s.input.length
  coded : ∀ b ∈ s.input.take k, hasCode s b = true
  bits : u.bits = codesOf s (s.input.take k) ++ part
  blen : u.blen = BitVec.ofNat _ u.bits.length
  events : u.events = (u.bits.map Event.bit).reverse ++ .accepted 0x4#4 :: s.events

/-- ENCODE, accepted in `s`, has completed in `t`. -/
structure EncodeEnd (s t : State W) : Prop where
  completed : Completed 0x4#4 (if encodable s then .ok else .encoding) s t
  frame : WritesOnly .encode s t
  readable : encodable s = true → s.ilen.toNat ≤ s.input.length
  bits : t.bits = if encodable s then codesOf s (encodeInput s) else []
  blen : t.blen = BitVec.ofNat _ t.bits.length
  events : t.events = .completed t.err ::
    ((codesOf s ((encodeInput s).takeWhile (hasCode s))).map Event.bit).reverse ++ .accepted 0x4#4 :: s.events

/-- ENCODE, accepted in `s`, is about to look up symbol `k`, is sending its code (R98), or has ended. -/
inductive EncodeRun (s u : State W) : Prop
  | lookup {k : Nat} (place : EncodeAt s k [] u) (more : k < s.ilen.toNat) (beat : u.beat = false)
  | sending {k : Nat} {b : Byte} (place : EncodeAt s k ((codeAt s b).string.take u.cpos.toNat) u)
      (more : k < s.ilen.toNat) (beat : u.beat = true) (read : s.input[k]? = some b)
      (inCode : u.cpos.toNat < (codeAt s b).len.toNat)
  | ended (done : EncodeEnd s u)

/-- A bound on the micro-steps left: a lookup and at most 255 beats for each symbol (R98, R155). -/
def encodeLeft (u : State W) : Nat :=
  256 * (u.ilen.toNat - u.ipos.toNat) - if u.beat then u.cpos.toNat + 1 else 0

section

variable {s u t : State W} {k : Nat} {b : Byte} {part : Bits}

theorem EncodeAt.codeAt_eq (hu : EncodeAt s k part u) (b : Byte) : codeAt u b = codeAt s b :=
  codeAt_congr (hu.frame.code nofun) b

theorem EncodeAt.ilen_eq (hu : EncodeAt s k part u) : u.ilen = s.ilen := hu.frame.input.2

theorem EncodeAt.inputByte_eq (hu : EncodeAt s k part u) : inputByte u = s.input[k]? := by
  rw [inputByte, hu.frame.input.1, hu.cursor]

theorem EncodeAt.left_of_lookup (hu : EncodeAt s k part u) (h : u.beat = false) :
    encodeLeft u = 256 * (s.ilen.toNat - k) := by
  simp [encodeLeft, h, hu.ilen_eq, hu.cursor]

theorem EncodeAt.left_of_beat (hu : EncodeAt s k part u) (h : u.beat = true) :
    encodeLeft u = 256 * (s.ilen.toNat - k) - (u.cpos.toNat + 1) := by
  simp [encodeLeft, h, hu.ilen_eq, hu.cursor]

/-- Past the last symbol (R96). -/
theorem EncodeAt.finished (hu : EncodeAt s k [] u) (hk : k = s.ilen.toNat) : EncodeEnd s (finishOk u) := by
  subst hk
  have hall : encodable s = true := encodable_iff.mpr hu.coded
  have hbits : u.bits = codesOf s (encodeInput s) := hu.bits.trans (List.append_nil _)
  have hwhile : (encodeInput s).takeWhile (hasCode s) = encodeInput s := List.takeWhile_eq_self_iff.mpr hu.coded
  exact {
    completed := by
      rw [if_pos hall]
      exact { idle := rfl, done := rfl, err := rfl, strict := hu.strict, host := hu.frame.host, queue := rfl, stack := rfl }
    frame := hu.frame.trans finishOk_writesOnly
    readable := fun _ => hu.inside
    bits := by rw [if_pos hall]; exact hbits
    blen := hu.blen
    events := by simp [hu.events, hbits, hwhile] }

/-- R99: at a symbol without an entry `BITS` is emptied; the beats stay recorded (R154). -/
theorem EncodeAt.raised (hu : EncodeAt s k [] u) (hk : k < s.ilen.toNat) (hb : s.input[k]? = some b)
    (hnone : hasCode s b = false) : EncodeEnd s (raise .encoding u) := by
  obtain ⟨rest, hsplit⟩ := exists_encodeInput_eq hk hb
  have hall : encodable s = false := by simp [encodable, hsplit, hnone]
  have hwhile : (encodeInput s).takeWhile (hasCode s) = s.input.take k := by
    rw [hsplit, List.takeWhile_append_of_pos hu.coded, List.takeWhile_cons_of_neg (by simp [hnone]), List.append_nil]
  have hbits : u.bits = codesOf s (s.input.take k) := hu.bits.trans (List.append_nil _)
  exact {
    completed := by
      simp only [hall, Bool.false_eq_true, if_false]
      exact { idle := rfl, done := rfl, err := rfl, strict := by simp [hu.strict], host := by simp [hu.frame.host],
              queue := rfl, stack := rfl }
    frame := hu.frame.trans (raise_writesOnly _ hu.phase)
    readable := by simp [hall]
    bits := by simp [hall, hu.phase]
    blen := by simp [hu.phase]
    events := by simp [hu.events, hbits, hwhile] }

/-- The head of the loop goes on while symbols are left and ends the operation after them. -/
theorem encodeRun_encodeHead (hu : EncodeAt s k [] u) (hbeat : u.beat = false) (hk : k ≤ s.ilen.toNat)
    (h : encodeHead u = .next t) : EncodeRun s t ∧ (t.phase ≠ .idle → t = u) := by
  have hilen := hu.ilen_eq
  have hcursor := hu.cursor
  obtain ⟨hlt, rfl⟩ | ⟨hend, rfl⟩ := encodeHead_cases h
  · rw [BitVec.lt_def, hilen, hcursor] at hlt
    exact ⟨.lookup hu hlt hbeat, fun _ => rfl⟩
  · rw [BitVec.lt_def, hilen, hcursor] at hend
    exact ⟨.ended (hu.finished (by omega)), fun hp => absurd rfl hp⟩

theorem encodeAt_encodeStart (s : State W) : EncodeAt s 0 [] (encodeStart s) where
  phase := rfl
  strict := rfl
  frame := encodeStart_writesOnly
  cursor := by simp [encodeStart]
  inside := Nat.zero_le _
  coded := nofun
  bits := rfl
  blen := rfl
  events := rfl

theorem encodeRun_startEncode (h : startEncode s = .next u) : EncodeRun s u :=
  (encodeRun_encodeHead (encodeAt_encodeStart s) rfl (Nat.zero_le _) h).1

/-- R97: one bit more on the serial output. -/
theorem EncodeAt.append (hu : EncodeAt s k part u) (x : Bool) (c : BitVec 8) :
    EncodeAt s k (part ++ [x]) { appendBit x u with cpos := c } where
  phase := hu.phase
  strict := hu.strict
  frame := hu.frame.trans (writesOnly_encode ..)
  cursor := hu.cursor
  inside := hu.inside
  coded := hu.coded
  bits := by simp [hu.bits]
  blen := by simp [hu.blen, BitVec.ofNat_add]
  events := by simp [hu.events]

/-- R96: with its whole code sent a symbol has been passed. -/
theorem EncodeAt.pass (hu : EncodeAt s k (codeAt s b).string u) (hk : k < s.ilen.toNat) (hb : s.input[k]? = some b)
    (hcode : hasCode s b = true) : EncodeAt s (k + 1) [] { u with ipos := u.ipos + 1#_, beat := false } := by
  have htake : s.input.take (k + 1) = s.input.take k ++ [b] := by rw [List.take_add_one, hb, Option.toList_some]
  have hcursor := hu.cursor
  exact {
    phase := hu.phase
    strict := hu.strict
    frame := hu.frame.trans (writesOnly_encode ..)
    cursor := (toNat_add_one_of_lt (by have := s.ilen.isLt; omega)).trans (by rw [hcursor])
    inside := (List.getElem?_eq_some_iff.mp hb).1
    coded := by
      rw [htake]
      exact List.forall_mem_append.mpr ⟨hu.coded, List.forall_mem_singleton.mpr hcode⟩
    bits := by rw [htake, codesOf_concat, List.append_nil]; exact hu.bits
    blen := hu.blen
    events := hu.events }

/-- The lookup of a symbol (R98): its entry is sent next, or there is none. -/
theorem encodeRun_lookup (hu : EncodeAt s k [] u) (hk : k < s.ilen.toNat) (hbeat : u.beat = false)
    (h : encodeMicro u = .next t) : EncodeRun s t ∧ (t.phase ≠ .idle → encodeLeft t < encodeLeft u) := by
  obtain ⟨b, hb, hcases⟩ := encodeMicro_cases h
  rw [hu.inputByte_eq] at hb
  simp only [hu.codeAt_eq, hbeat, true_and, Bool.false_eq_true, false_and, or_false] at hcases
  obtain ⟨hlen, rfl⟩ | ⟨hlen, rfl⟩ := hcases
  · exact ⟨.ended (hu.raised hk hb (by simp [hasCode, hlen])), fun hp => absurd (raise_phase ..) hp⟩
  · have hfound : EncodeAt s k [] { u with cpos := 0#8, beat := true } :=
      { hu with frame := hu.frame.trans (writesOnly_encode ..) }
    have hpos : (0#8).toNat < (codeAt s b).len.toNat := by bv_omega
    refine ⟨.sending hfound hk rfl hb hpos, fun _ => ?_⟩
    rw [hfound.left_of_beat rfl, hu.left_of_lookup hbeat]
    omega

/-- A beat (R97): the next bit of the code, and with its last bit the next symbol. -/
theorem encodeRun_beat (hu : EncodeAt s k ((codeAt s b).string.take u.cpos.toNat) u) (hk : k < s.ilen.toNat)
    (hbeat : u.beat = true) (hb : s.input[k]? = some b) (hin : u.cpos.toNat < (codeAt s b).len.toNat)
    (h : encodeMicro u = .next t) : EncodeRun s t ∧ (t.phase ≠ .idle → encodeLeft t < encodeLeft u) := by
  have hmax := (codeAt s b).len.isLt
  have hnext : (u.cpos + 1#8).toNat = u.cpos.toNat + 1 := toNat_add_one_of_lt (by omega)
  have hsent := hu.append ((codeAt s b).bits.getLsbD u.cpos.toNat) (u.cpos + 1#8)
  rw [← take_succ_string _ hin] at hsent
  obtain ⟨c, hc, hcases⟩ := encodeMicro_cases h
  obtain rfl : b = c := Option.some.inj (hb.symm.trans (hu.inputByte_eq.symm.trans hc))
  simp only [hu.codeAt_eq, hbeat, true_and, Bool.true_eq_false, false_and, false_or] at hcases
  rw [hu.left_of_beat hbeat]
  obtain ⟨hlt, rfl⟩ | ⟨hlast, h⟩ := hcases
  · refine ⟨.sending (by rwa [hnext]) hk hbeat hb (by rwa [hnext]), fun _ => ?_⟩
    rw [hsent.left_of_beat hbeat, hnext]
    omega
  · rw [List.take_of_length_le (by rw [length_string]; omega)] at hsent
    have hpass := hsent.pass hk hb (hasCode_iff.mpr (by bv_omega))
    obtain ⟨hrun, hsame⟩ := encodeRun_encodeHead hpass rfl hk h
    refine ⟨hrun, fun hp => ?_⟩
    rw [hsame hp, hpass.left_of_lookup rfl]
    omega

/-- What a micro-step of ENCODE keeps, and the micro-steps left after it. -/
theorem encodeRun_encodeMicro (hu : EncodeRun s u) (hp : u.phase ≠ .idle) (h : encodeMicro u = .next t) :
    EncodeRun s t ∧ (t.phase ≠ .idle → encodeLeft t < encodeLeft u) := by
  cases hu with
  | lookup place more beat => exact encodeRun_lookup place more beat h
  | sending place more beat read inCode => exact encodeRun_beat place more beat read inCode h
  | ended done => exact absurd done.completed.idle hp

theorem EncodeRun.encodeEnd (hu : EncodeRun s u) (hp : u.phase = .idle) : EncodeEnd s u := by
  cases hu with
  | lookup place => cases place.phase.symm.trans hp
  | sending place => cases place.phase.symm.trans hp
  | ended done => exact done

theorem encodeEnd_of_execEncode (hs : s.phase = .idle) (h : execEncode s = .next t) : EncodeEnd s t := by
  rw [execEncode, whenIdle_idle _ hs] at h
  obtain ⟨hrun, hidle⟩ := start_then_run (EncodeRun s) (fun _ => encodeRun_startEncode)
    (fun _ _ hu hp hv => (encodeRun_encodeMicro hu hp hv).1) h
  exact hrun.encodeEnd hidle

/-! ### R96, R118: ENCODE completes -/

theorem encodeHead_answers (u : State W) : ∃ t, encodeHead u = .next t := by
  unfold encodeHead
  split <;> exact ⟨_, rfl⟩

/-- A micro-step of ENCODE answers wherever there is a symbol to read. -/
theorem encodeMicro_answers (hb : inputByte u = some b) : ∃ t, encodeMicro u = .next t := by
  simp only [encodeMicro, hb]
  split
  · split <;> exact ⟨_, rfl⟩
  · split
    · exact ⟨_, rfl⟩
    · exact encodeHead_answers _

/-- Before a symbol that is not in `IN` one without an entry is met, so ENCODE does not come to it. -/
theorem EncodeAt.inputByte_isSome (hu : EncodeAt s k part u) (hk : k < s.ilen.toNat)
    (hread : encodable s = true → s.ilen.toNat ≤ s.input.length) : ∃ b, inputByte u = some b := by
  rw [hu.inputByte_eq, ← Option.isSome_iff_exists, Option.isSome_iff_ne_none, ne_eq, List.getElem?_eq_none_iff]
  intro hout
  have hall : encodable s = true := encodable_iff.mpr fun b hb => hu.coded b (by
    rw [List.take_of_length_le hout]
    exact List.mem_of_mem_take hb)
  have := hread hall
  omega

theorem EncodeRun.running (hu : EncodeRun s u) (hp : u.phase ≠ .idle)
    (hread : encodable s = true → s.ilen.toNat ≤ s.input.length) :
    (∃ b, inputByte u = some b) ∧ 0 < encodeLeft u ∧ encodeLeft u ≤ 256 * s.ilen.toNat := by
  cases hu with
  | lookup place more beat =>
    refine ⟨place.inputByte_isSome more hread, ?_⟩
    rw [place.left_of_lookup beat]
    omega
  | @sending k b place more beat read inCode =>
    have hmax := (codeAt s b).len.isLt
    refine ⟨place.inputByte_isSome more hread, ?_⟩
    rw [place.left_of_beat beat]
    omega
  | ended done => exact absurd done.completed.idle hp

/-- ENCODE in an idle block completes when `IN` is as long as `ILEN` says, or ends earlier with a symbol without an entry. -/
theorem execEncode_completes (hs : s.phase = .idle) (hread : encodable s = true → s.ilen.toNat ≤ s.input.length) :
    ∃ t, execEncode s = .next t ∧ EncodeEnd s t := by
  obtain ⟨u, hstart⟩ := encodeHead_answers (encodeStart s)
  rw [← startEncode_eq] at hstart
  obtain ⟨t, ht, -⟩ := runUnit_completes (micro := encodeMicro) (EncodeRun s) encodeLeft
    (fun u hu hp => (hu.running hp hread).2.1)
    (fun u hu hp => by
      obtain ⟨⟨b, hb⟩, -⟩ := hu.running hp hread
      obtain ⟨t, ht⟩ := encodeMicro_answers hb
      exact ⟨t, ht, encodeRun_encodeMicro hu hp ht⟩)
    (256 * s.ilen.toNat) u (encodeRun_startEncode hstart)
    (fun hp => ((encodeRun_startEncode hstart).running hp hread).2.2)
  have hexec : execEncode s = .next t := by rw [execEncode, whenIdle_idle _ hs, hstart, andThen_next, ht]
  exact ⟨t, hexec, encodeEnd_of_execEncode hs hexec⟩

/-! ### R96, R102: the result -/

/-- R102: `BLEN` does not wrap. -/
theorem EncodeEnd.blen_toNat (h : EncodeEnd s t) : t.blen.toNat = t.bits.length := by
  have hle : t.bits.length ≤ 255 * s.ilen.toNat := by
    rw [h.bits]
    split
    · exact (length_codesOf_le s _).trans (Nat.mul_le_mul_left 255 (List.length_take_le ..))
    · exact Nat.zero_le _
  have hilen := s.ilen.isLt
  rw [h.blen, BitVec.toNat_ofNat, Nat.mod_eq_of_lt]
  simp only [Config.wBlen, pow_add]
  omega

theorem EncodeEnd.encodable_of_ok (h : EncodeEnd s t) (hok : t.err = .ok) : encodable s = true := by
  by_contra hnot
  have herr := h.completed.err
  rw [if_neg hnot, hok] at herr
  cases herr

end

/-! ### The obligations -/

/-- Settles O43: one run of ENCODE, which completes by its count of micro-steps and stands at the end of `IN` or at the first symbol
without an entry. -/
theorem encodeConcatenatesTheCodes : Obligations.EncodeConcatenatesTheCodes := by
  refine ⟨fun s hp hlen => ?_, fun s hp hzero => ?_⟩
  · obtain ⟨t, ht, hend⟩ := execEncode_completes hp fun _ => hlen.ge
    have hinput := encodeInput_of_length hlen
    have hdone := hend.completed
    have hbits := hend.bits
    have hblen := hend.blen_toNat
    obtain ⟨hin, -, hfreq, htree, hcode, -, hout⟩ := hend.frame
    have hframe : t.freq = s.freq ∧ SameTree s t ∧ t.code = s.code ∧ SameIn s t ∧ SameOut s t :=
      ⟨hfreq nofun, htree nofun, hcode nofun, hin, hout nofun⟩
    constructor
    · intro hall
      have hok : encodable s = true := encodable_iff.mpr fun b hb => hasCode_iff.mpr (hall b (hinput ▸ hb))
      rw [if_pos hok] at hdone hbits
      rw [hinput] at hbits
      exact ⟨t, ht, hdone, hbits, by rw [hblen, hbits, length_codesOf], hframe⟩
    · rintro ⟨b, hb, hnone⟩
      have hbad : ¬ encodable s = true := fun hok =>
        hasCode_iff.mp (encodable_iff.mp hok b (by rwa [hinput])) hnone
      rw [if_neg hbad] at hdone hbits
      exact ⟨t, ht, hdone, hbits, by rw [hend.blen, hbits]; rfl, hframe⟩
  · have hinput : encodeInput s = [] := by simp [encodeInput, hzero]
    have hok : encodable s = true := by simp [encodable, hinput]
    obtain ⟨t, ht, hend⟩ := execEncode_completes hp fun _ => by simp [hzero]
    have hdone := hend.completed
    have hbits := hend.bits
    rw [if_pos hok] at hdone hbits
    rw [hinput] at hbits
    exact ⟨t, ht, hdone, hbits, by rw [hend.blen, hbits]; rfl⟩

/-- Settles O44: what ENCODE leaves is a function of the symbols it reads and their entries, and so is whether it completes. -/
theorem encodeDependsOnInputAndCodeAlone : Obligations.EncodeDependsOnInputAndCodeAlone := by
  intro s s' t hp hp' hin hilen hcode h
  have hend := encodeEnd_of_execEncode hp h
  have hinput := encodeInput_congr hin hilen
  have hable := encodable_congr hinput hcode
  obtain ⟨t', ht', hend'⟩ := execEncode_completes hp' (by rw [← hable, ← hin, ← hilen]; exact hend.readable)
  have hbits : t'.bits = t.bits := by rw [hend.bits, hend'.bits, hable, hinput, codesOf_congr hcode]
  exact ⟨t', ht', hbits, by rw [hend.blen, hend'.blen, hbits], by rw [hend.completed.err, hend'.completed.err, hable]⟩

/-- Settles O45: the events of the run, with the symbols it has passed. -/
theorem encoderBeatsAreTheCodes : Obligations.EncoderBeatsAreTheCodes := by
  intro s t hp hlen h
  rw [← encodeInput_of_length hlen]
  exact (encodeEnd_of_execEncode hp h).events

/-- Settles O46: the codes in input order are as long as the codes symbol by symbol, each between 1 and 255 bits. -/
theorem encodedLengthIsBounded : Obligations.EncodedLengthIsBounded := by
  intro s t hp hlen h hok
  have hend := encodeEnd_of_execEncode hp h
  have hall := hend.encodable_of_ok hok
  have hblen : t.blen.toNat = (codesOf s s.input).length := by
    rw [hend.blen_toNat, hend.bits, if_pos hall, encodeInput_of_length hlen]
  rw [encodable_iff, encodeInput_of_length hlen] at hall
  rw [hblen, ← hlen]
  exact ⟨(length_codesOf s _).trans (sum_map_eq_sum_count _ _), le_length_codesOf hall, length_codesOf_le s _⟩

end Sys2Proof.Machine
end

/-! PROOFS of the family `44_decoder.md`: the run of DECODE as a function of `BITS` and the tree (R104 to R111), and what it
makes of the codes ENCODE puts one after the other (R112). -/

section

namespace Sys2Proof.Machine

variable {W : Nat}

/-! ### R105, R108: what DECODE reads -/

/-- What one bit does to a walk that stands on `c`: the symbol it appends, if any, and the node the walk goes on from. There is no
answer where a record is not in use. -/
def decodeBit (s : State W) (c : Idx) (b : Bool) : Option (List Byte × Idx) :=
  (useNode s s.root).bind fun root =>
    if root.right = nullIdx then (useNode s root.left).map fun r => ([r.sym], c)
    else (useNode s c).bind fun n => (useNode s (n.child b)).map fun r =>
      match r.kind with
      | .leaf => ([r.sym], s.root)
      | .internal => ([], n.child b)

/-- What the `n` bits from position `k` on do to a walk that stands on `c`: the symbols they append and the node the walk ends on.
There is no answer where a bit is missing. -/
def decodeBits (s : State W) : Nat → Nat → Idx → Option (List Byte × Idx)
  | 0, _, c => some ([], c)
  | n + 1, k, c =>
    s.bits[k]?.bind fun b => (decodeBit s c b).bind fun r => (decodeBits s n (k + 1) r.2).map fun q => (r.1 ++ q.1, q.2)

/-- DECODE, accepted in `s`, after `k` bits: it has appended `x` and stands on `c`. -/
def decodeAfter (k : Nat) (x : List Byte) (c : Idx) (s : State W) : State W :=
  { accept (encode .decode) .decode s with
    out := x, olen := BitVec.ofNat _ x.length, bpos := BitVec.ofNat _ k, cur := c
    events := (x.map Event.sym).reverse ++ .accepted (encode .decode) :: s.events }

/-- DECODE, accepted in `s`, has completed after appending `x` and coming to `c` (R107). -/
def decodeStop (x : List Byte) (c : Idx) (s : State W) : State W :=
  if c = s.root then finishOk (decodeAfter s.blen.toNat x c s) else raise .decoding (decodeAfter s.blen.toNat x c s)

section

variable {s s' t : State W} {k n : Nat} {x y : List Byte} {c m : Idx} {b : Bool}

theorem decodeBits_succ : decodeBits s (n + 1) k c = some (y, m) ↔ ∃ b z d y', s.bits[k]? = some b ∧
    decodeBit s c b = some (z, d) ∧ decodeBits s n (k + 1) d = some (y', m) ∧ z ++ y' = y := by
  simp [decodeBits, Option.bind_eq_some_iff]

theorem decodeStart_eq (s : State W) : decodeStart s = decodeAfter 0 [] s.root s := rfl

theorem decodeAfter_bpos (hk : k ≤ s.blen.toNat) : (decodeAfter k x c s).bpos.toNat = k := by
  rw [decodeAfter, BitVec.toNat_ofNat, Nat.mod_eq_of_lt (Nat.lt_of_le_of_lt hk s.blen.isLt)]

theorem decodeHead_of_more (hk : k < s.blen.toNat) : decodeHead (decodeAfter k x c s) = .next (decodeAfter k x c s) := by
  refine if_pos ?_
  rw [BitVec.lt_def, decodeAfter_bpos hk.le]
  exact hk

theorem decodeHead_of_last : decodeHead (decodeAfter s.blen.toNat x c s) = .next (decodeStop x c s) := by
  have hend : ¬ (decodeAfter s.blen.toNat x c s).bpos < (decodeAfter s.blen.toNat x c s).blen := by
    rw [BitVec.lt_def, decodeAfter_bpos le_rfl]
    exact Nat.lt_irrefl _
  rw [decodeHead, if_neg hend, decodeStop, apply_ite Host.Outcome.next]
  rfl

theorem decodeStop_phase : (decodeStop x c s).phase = .idle := by
  unfold decodeStop
  split
  · rfl
  · exact raise_phase ..

/-- One bit consumed with one symbol appended. -/
theorem decodeHead_emitted (v : Byte) (d : Idx) :
    decodeHead { appendSym v (decodeAfter k x c s) with cur := d, bpos := (decodeAfter k x c s).bpos + 1#_ } =
      decodeHead (decodeAfter (k + 1) (x ++ [v]) d s) :=
  congrArg decodeHead (by simp [decodeAfter, appendSym, emit, BitVec.ofNat_add])

/-- One bit consumed with no symbol appended. -/
theorem decodeHead_moved (d : Idx) :
    decodeHead { decodeAfter k x c s with cur := d, bpos := (decodeAfter k x c s).bpos + 1#_ } =
      decodeHead (decodeAfter (k + 1) x d s) :=
  congrArg decodeHead (by simp [decodeAfter, BitVec.ofNat_add])

/-- A micro-step of DECODE is one bit of the walk. -/
theorem decodeMicro_eq_next_iff (hk : k < s.blen.toNat) : decodeMicro (decodeAfter k x c s) = .next t ↔
    ∃ b z d, s.bits[k]? = some b ∧ decodeBit s c b = some (z, d) ∧ decodeHead (decodeAfter (k + 1) (x ++ z) d s) = .next t := by
  have huse : ∀ i, useNode (decodeAfter k x c s) i = useNode s i := fun _ => rfl
  have hroot : (decodeAfter k x c s).root = s.root := rfl
  have hcur : (decodeAfter k x c s).cur = c := rfl
  have hread : inputBit (decodeAfter k x c s) = s.bits[k]? := by rw [inputBit, decodeAfter_bpos hk.le]; rfl
  simp only [decodeMicro, decodeBit, huse, hroot, hcur, hread]
  cases s.bits[k]? with
  | none => simp
  | some b =>
    cases useNode s s.root with
    | none => simp
    | some root =>
      by_cases hone : root.right = nullIdx
      · cases hleft : useNode s root.left with
        | none => simp [hone, hleft]
        | some r => simp [hone, hleft, ← decodeHead_emitted (c := c), hcur]
      · cases useNode s c with
        | none => simp [hone]
        | some p =>
          cases hnext : useNode s (p.child b) with
          | none => simp [hone, hnext]
          | some r =>
            cases hkind : r.kind with
            | leaf => simp [hone, hnext, hkind, ← decodeHead_emitted (c := c)]
            | internal => simp [hone, hnext, hkind, ← decodeHead_moved (c := c), hroot]

/-- The run of DECODE: it answers exactly when every bit is there and every record met is in use. -/
theorem runUnit_decodeMicro_eq_next_iff (hk : k + n = s.blen.toNat) :
    andThen (decodeHead (decodeAfter k x c s)) (runUnit decodeMicro n) = .next t ↔
      ∃ y m, decodeBits s n k c = some (y, m) ∧ t = decodeStop (x ++ y) m s := by
  induction n generalizing k x c with
  | zero =>
    obtain rfl : k = s.blen.toNat := hk
    rw [decodeHead_of_last, andThen_next, runUnit_idle _ _ decodeStop_phase]
    simp [decodeBits, eq_comm]
  | succ n ih =>
    have hrunning : (decodeAfter k x c s).phase ≠ .idle := nofun
    have hlt : k < s.blen.toNat := by omega
    rw [decodeHead_of_more hlt, andThen_next, runUnit_succ _ _ hrunning, andThen_eq_next]
    simp only [decodeMicro_eq_next_iff hlt, decodeBits_succ]
    constructor
    · rintro ⟨u, ⟨b, z, d, hb, hbit, hhead⟩, hrun⟩
      obtain ⟨y, m, hbits, rfl⟩ := (ih (by omega)).mp (andThen_eq_next.mpr ⟨u, hhead, hrun⟩)
      exact ⟨z ++ y, m, ⟨b, z, d, y, hb, hbit, hbits, rfl⟩, by rw [List.append_assoc]⟩
    · rintro ⟨_, m, ⟨b, z, d, y, hb, hbit, hbits, rfl⟩, rfl⟩
      obtain ⟨u, hhead, hrun⟩ := andThen_eq_next.mp
        ((ih (x := x ++ z) (by omega)).mpr ⟨y, m, hbits, by rw [List.append_assoc]⟩)
      exact ⟨u, ⟨b, z, d, hb, hbit, hhead⟩, hrun⟩

/-- DECODE with a tree that is not null. -/
theorem execDecode_eq_next_iff (hp : s.phase = .idle) (hroot : s.root ≠ nullIdx) :
    execDecode s = .next t ↔ ∃ y m, decodeBits s s.blen.toNat 0 s.root = some (y, m) ∧ t = decodeStop y m s := by
  have hstart : startDecode s = decodeHead (decodeAfter 0 [] s.root s) := if_neg hroot
  rw [execDecode, whenIdle_idle _ hp, hstart, runUnit_decodeMicro_eq_next_iff (Nat.zero_add _)]
  rfl

/-- DECODE with the null tree (R109). -/
theorem execDecode_of_null (hp : s.phase = .idle) (hroot : s.root = nullIdx) : execDecode s =
    .next (if s.blen = 0#_ then finishOk (decodeStart s) else raise .decoding (decodeStart s)) := by
  have hstart : startDecode s = .next (if s.blen = 0#_ then finishOk (decodeStart s) else raise .decoding (decodeStart s)) := by
    rw [apply_ite Host.Outcome.next]
    exact if_pos hroot
  rw [execDecode, whenIdle_idle _ hp, hstart, andThen_next, runUnit_idle]
  split
  · rfl
  · exact raise_phase ..

/-! ### R104, R107: what DECODE leaves -/

/-- DECODE, accepted in `s`, has completed in `t` with the status `e` and the output `x`. -/
structure Decoded (s : State W) (e : Err) (x : List Byte) (t : State W) : Prop where
  completed : Completed 0x5#4 e s t
  out : t.out = x
  olen : t.olen = BitVec.ofNat _ x.length
  frame : WritesOnly .decode s t

theorem decodeAfter_writesOnly : WritesOnly .decode s (decodeAfter k x c s) :=
  (accept_writesOnly (encode .decode) .decode).trans (writesOnly_decode ..)

theorem decoded_finishOk : Decoded s .ok x (finishOk (decodeAfter k x c s)) where
  completed := { idle := rfl, done := rfl, err := rfl, strict := rfl, host := rfl, queue := rfl, stack := rfl }
  out := rfl
  olen := rfl
  frame := decodeAfter_writesOnly.trans finishOk_writesOnly

theorem decoded_raise : Decoded s .decoding [] (raise .decoding (decodeAfter k x c s)) where
  completed := { idle := rfl, done := rfl, err := rfl, strict := rfl, host := rfl, queue := rfl, stack := rfl }
  out := rfl
  olen := rfl
  frame := decodeAfter_writesOnly.trans (raise_writesOnly _ rfl)

theorem decoded_decodeStop :
    Decoded s (if c = s.root then .ok else .decoding) (if c = s.root then x else []) (decodeStop x c s) := by
  unfold decodeStop
  split
  · exact decoded_finishOk
  · exact decoded_raise

/-- With the null tree nothing is decoded. -/
theorem exec_decode_of_null {s : State} (hp : s.phase = .idle) (hroot : s.root = nullIdx) :
    ∃ t, exec .decode s = .next t ∧ Decoded s (if s.blen = 0#_ then .ok else .decoding) [] t := by
  refine ⟨_, execDecode_of_null hp hroot, ?_⟩
  rw [decodeStart_eq]
  split
  · exact decoded_finishOk
  · exact decoded_raise

/-- The bits of `BITS` and the records in use alone decide what a run of DECODE reads. -/
theorem decodeBits_congr (hbits : s'.bits = s.bits) (hroot : s'.root = s.root) (huse : ∀ i, useNode s' i = useNode s i) :
    decodeBits s' n k c = decodeBits s n k c := by
  have hbit : ∀ c b, decodeBit s' c b = decodeBit s c b := fun c b => by simp only [decodeBit, hroot, huse]
  induction n generalizing k c with
  | zero => rfl
  | succ n ih => simp only [decodeBits, hbits, hbit, ih]

/-- DECODE with a tree that is not null completes where its walk over `BLEN` bits has an answer. -/
theorem exec_decode_of_decodeBits {s : State} {x : List Byte} {c : Idx} (hp : s.phase = .idle) (hroot : s.root ≠ nullIdx)
    (hbits : decodeBits s s.blen.toNat 0 s.root = some (x, c)) : exec .decode s = .next (decodeStop x c s) :=
  (execDecode_eq_next_iff hp hroot).mpr ⟨x, c, hbits, rfl⟩

/-- However DECODE ends, it has finished with an output or raised `DecodingError` with none. -/
theorem decoded_of_exec_decode {s t : State} (hp : s.phase = .idle) (h : exec .decode s = .next t) :
    (∃ x, Decoded s .ok x t) ∨ Decoded s .decoding [] t := by
  by_cases hroot : s.root = nullIdx
  · obtain ⟨u, hu, hdone⟩ := exec_decode_of_null hp hroot
    cases hu.symm.trans h
    split at hdone
    · exact .inl ⟨[], hdone⟩
    · exact .inr hdone
  · obtain ⟨x, c, -, rfl⟩ := (execDecode_eq_next_iff hp hroot).mp h
    have hdone := decoded_decodeStop (s := s) (x := x) (c := c)
    split at hdone
    · exact .inl ⟨x, hdone⟩
    · exact .inr hdone

/-! ### R108: the one-symbol tree -/

theorem TreeInv.root_ne_null_of_single (hs : TreeInv s) (h1 : s.nsym = 1#9) : s.root ≠ nullIdx := by
  rw [(hs.single_of_nsym h1).2]
  decide

theorem TreeInv.decodeBit_of_single (hs : TreeInv s) (h1 : s.nsym = 1#9) :
    decodeBit s c b = some ([(nodeNo s 0).sym], c) := by
  obtain ⟨hnnode, hroot⟩ := hs.single_of_nsym h1
  have hrec : nodeAt s 1#9 = internalRec (nodeNo s 0).weight 0#9 nullIdx := hs.single h1
  have huse : ∀ i, i < 2#9 → useNode s i = some (nodeAt s i) := fun i hi => useNode_of_lt (hnnode ▸ hi)
  simp [decodeBit, hroot, huse, hrec, internalRec, nodeAt_eq_nodeNo]

theorem TreeInv.decodeBits_of_single (hs : TreeInv s) (h1 : s.nsym = 1#9) (hk : k + n ≤ s.bits.length) :
    decodeBits s n k c = some (List.replicate n (nodeNo s 0).sym, c) := by
  induction n generalizing k with
  | zero => rfl
  | succ n ih =>
    have hb : s.bits[k]? = some s.bits[k] := List.getElem?_eq_getElem (by omega)
    exact decodeBits_succ.mpr ⟨_, _, _, _, hb, hs.decodeBit_of_single h1, ih (by omega), rfl⟩

/-! ### R105: the tree of two or more symbols -/

/-- A bit leads from an internal record to one of its children, which is in use. -/
theorem TreeInv.child_inUse (hs : TreeInv s) (h2 : 2 ≤ s.nsym.toNat) (hc : c < s.nnode) (hk : (nodeAt s c).kind = .internal) :
    (nodeAt s c).child b < s.nnode := by
  have hnull : (nodeAt s c).child b ≠ nullIdx := by
    cases b with
    | false => exact ne_nullIdx_of_lt (hs.children hc hk).1
    | true => exact hs.right_ne_null h2 hc hk
  exact BitVec.lt_trans (hs.child_lt hc hk hnull) hc

theorem TreeInv.decodeBits_eq_decodeWalk (hs : TreeInv s) (h2 : 2 ≤ s.nsym.toNat) {l : Bits} (hl : s.bits.drop k = l)
    (hc : c < s.nnode) (hk : (nodeAt s c).kind = .internal) : decodeBits s l.length k c = some (decodeWalk s c l) := by
  induction l generalizing k c with
  | nil => rfl
  | cons b l ih =>
    obtain ⟨hroot, hright⟩ := hs.root_right h2
    obtain ⟨hrootUse, hrootKind⟩ := hs.root_internal hroot
    have hnext := hs.child_inUse h2 (b := b) hc hk
    have hb : s.bits[k]? = some b := by rw [← List.head?_drop, hl]; rfl
    have hrest : s.bits.drop (k + 1) = l := by rw [← List.tail_drop, hl]; rfl
    rw [List.length_cons]
    cases hkind : (nodeAt s ((nodeAt s c).child b)).kind with
    | leaf =>
      have hbit : decodeBit s c b = some ([(nodeAt s ((nodeAt s c).child b)).sym], s.root) := by
        simp [decodeBit, useNode_of_lt, hrootUse, hright, hc, hnext, hkind]
      rw [decodeWalk_cons_leaf hkind]
      exact decodeBits_succ.mpr ⟨_, _, _, _, hb, hbit, ih hrest hrootUse hrootKind, rfl⟩
    | internal =>
      have hbit : decodeBit s c b = some ([], (nodeAt s c).child b) := by
        simp [decodeBit, useNode_of_lt, hrootUse, hright, hc, hnext, hkind]
      rw [decodeWalk_cons_internal hkind]
      exact decodeBits_succ.mpr ⟨_, _, _, _, hb, hbit, ih hrest hnext hkind, rfl⟩

end

/-! ### The obligations on one DECODE -/

/-- Settles O47: acceptance decides the null tree by `BLEN` alone. -/
theorem decodeWithTheNullTree : Obligations.DecodeWithTheNullTree := by
  intro s hp hroot
  obtain ⟨t, ht, hdone, hout, holen, hframe⟩ := exec_decode_of_null hp hroot
  exact ⟨t, ht, hdone, hout, holen, hframe.freq nofun, hframe.tree nofun, hframe.code nofun, hframe.input, hframe.bits nofun⟩

/-- Settles O48: each bit, of either value, appends the one symbol and leaves the walk on the root. -/
theorem decodeWithOneSymbolCopiesIt : Obligations.DecodeWithOneSymbolCopiesIt := by
  intro s hp hs h1 hlen
  have hroot := hs.root_ne_null_of_single h1
  have hbits := hs.decodeBits_of_single (k := 0) (n := s.blen.toNat) (c := s.root) h1 (by omega)
  have hend := decoded_decodeStop (s := s) (x := List.replicate s.blen.toNat (nodeNo s 0).sym) (c := s.root)
  simp only [if_true] at hend
  obtain ⟨hdone, hout, holen, hframe⟩ := hend
  refine ⟨_, exec_decode_of_decodeBits hp hroot hbits, hdone, hlen ▸ hout, ?_, hframe.freq nofun, hframe.tree nofun,
    hframe.code nofun, hframe.input, hframe.bits nofun⟩
  rw [holen, List.length_replicate, BitVec.ofNat_toNat, BitVec.setWidth_eq]

/-- Settles O49: the run of DECODE is the walk over `BITS`, and its end decides the status. -/
theorem decodeWalksTheTree : Obligations.DecodeWalksTheTree := by
  intro s hp hs h2 hlen
  obtain ⟨hroot, -⟩ := hs.root_right h2
  obtain ⟨hrootUse, hrootKind⟩ := hs.root_internal hroot
  have hbits := hs.decodeBits_eq_decodeWalk h2 (k := 0) (List.drop_zero (l := s.bits)) hrootUse hrootKind
  rw [hlen] at hbits
  have ht := exec_decode_of_decodeBits hp hroot hbits
  obtain ⟨hdone, hout, holen, hframe⟩ :=
    decoded_decodeStop (s := s) (x := (decodeWalk s s.root s.bits).1) (c := (decodeWalk s s.root s.bits).2)
  refine ⟨_, ht, fun hon => ?_, fun hoff => ?_, hframe.freq nofun, hframe.tree nofun, hframe.code nofun, hframe.input,
    hframe.bits nofun⟩
  · rw [if_pos hon] at hdone hout
    exact ⟨hdone, hout, (decoderEmitsAtMostOneSymbolPerBit s _ hp ht).1.symm⟩
  · rw [if_neg hoff] at hdone hout holen
    exact ⟨hdone, hout, holen⟩

/-- Settles O50: the status of each of the three trees of R20. -/
theorem decodingErrorHasTwoCauses : Obligations.DecodingErrorHasTwoCauses := by
  intro s t hp hs hlen h
  refine ⟨?_, ?_⟩
  · obtain ⟨hnsym, -, hroot⟩ | ⟨hnsym, -⟩ | ⟨h2, -⟩ := hs.regs
    · obtain ⟨u, hu, hdone, -⟩ := decodeWithTheNullTree s hp hroot
      cases hu.symm.trans h
      rw [hdone.err]
      simp [hroot]
    · obtain ⟨u, hu, hdone, -⟩ := decodeWithOneSymbolCopiesIt s hp hs hnsym hlen
      cases hu.symm.trans h
      rw [hdone.err]
      simp [hs.root_ne_null_of_single hnsym, hnsym]
    · obtain ⟨u, hu, hon, hoff, -⟩ := decodeWalksTheTree s hp hs h2 hlen
      cases hu.symm.trans h
      obtain ⟨hroot, -⟩ := hs.root_right h2
      by_cases hend : (decodeWalk s s.root s.bits).2 = s.root
      · rw [(hon hend).1.err]
        simp [hroot, hend]
      · rw [(hoff hend).1.err]
        simp [hroot, hend, h2]
  · obtain ⟨x, hdone, -⟩ | ⟨hdone, hout, holen, hframe⟩ := decoded_of_exec_decode hp h
    · simp [hdone.err]
    · exact ⟨absurd hdone.err, fun _ => ⟨hout, holen, hdone.done, hdone.idle, hframe.bits nofun, hframe.tree nofun⟩⟩

/-- Settles O51: what DECODE reads is a function of the bits and the records in use, and so is whether it completes. -/
theorem decodeDependsOnBitsAndTreeAlone : Obligations.DecodeDependsOnBitsAndTreeAlone := by
  intro s s' t hp hp' hbits hblen hroot hnnode hnode h
  have huse : ∀ i, useNode s' i = useNode s i := fun i => by
    simp only [useNode, ← hnnode]
    split
    next hlt => simp only [nodeAt_eq_nodeNo, hnode _ hlt]
    next => rfl
  by_cases hnull : s.root = nullIdx
  · obtain ⟨u, hu, hdone, hout, holen, -⟩ := exec_decode_of_null hp hnull
    cases hu.symm.trans h
    obtain ⟨t', ht', hdone', hout', holen', -⟩ := exec_decode_of_null hp' (hroot ▸ hnull)
    exact ⟨t', ht', hout'.trans hout.symm, holen'.trans holen.symm, by rw [hdone.err, hdone'.err, hblen]⟩
  · obtain ⟨x, c, hx, rfl⟩ := (execDecode_eq_next_iff hp hnull).mp h
    rw [← decodeBits_congr hbits.symm hroot.symm huse, hroot, hblen] at hx
    obtain ⟨hdone, hout, holen, -⟩ := decoded_decodeStop (s := s) (x := x) (c := c)
    obtain ⟨hdone', hout', holen', -⟩ := decoded_decodeStop (s := s') (x := x) (c := c)
    rw [← hroot] at hdone' hout' holen'
    exact ⟨_, exec_decode_of_decodeBits hp' (hroot ▸ hnull) hx, hout'.trans hout.symm, holen'.trans holen.symm,
      hdone'.err.trans hdone.err.symm⟩

end Sys2Proof.Machine
end

section

namespace Sys2Proof.Machine

variable {W : Nat}

/-! ### R112: decoding what was encoded -/

section

variable {s t : State W} {c i : Idx} {p rest : Bits} {b : Byte} {l : List Byte}

theorem CodesOfTree.congr (h : CodesOfTree s) (htree : SameTree s t) (hcode : t.code = s.code) : CodesOfTree t := by
  have hwalk := walk_congr htree
  obtain ⟨hnode, hnsym, -, hroot⟩ := htree
  have hno : ∀ i, nodeAt t i = nodeAt s i := fun i => nodeNo_congr hnode i.toNat
  have hcodes := codeAt_congr hcode
  constructor
  · simpa only [hnsym, hroot, hwalk, hno, hcodes] using h.leaf
  · simpa only [hnsym, hno, hcodes] using h.absent

/-- Down to a leaf, DECODE reads the path as the leaf's symbol and is back on the root. -/
theorem decodeWalk_append_of_walk (hwalk : walk s c p = some i) (hleaf : (nodeAt s i).kind = .leaf) (hp : p ≠ []) :
    decodeWalk s c (p ++ rest) = ((nodeAt s i).sym :: (decodeWalk s s.root rest).1, (decodeWalk s s.root rest).2) := by
  induction p generalizing c with
  | nil => exact absurd rfl hp
  | cons b p ih =>
    obtain ⟨-, -, -, hwalk⟩ := walk_cons.mp hwalk
    rw [List.cons_append]
    cases p with
    | nil =>
      rw [← walk_nil.mp hwalk] at hleaf ⊢
      exact decodeWalk_cons_leaf hleaf
    | cons a p =>
      obtain ⟨-, hkind, -⟩ := walk_cons.mp hwalk
      rw [decodeWalk_cons_internal hkind]
      exact ih hwalk (List.cons_ne_nil a p)

/-- An entry is the path to the leaf of its symbol. -/
theorem CodesOfTree.exists_path (h : CodesOfTree s) (hb : hasCode s b = true) : ∃ i p, i < s.nsym ∧ (nodeAt s i).sym = b ∧
    (codeAt s b).string = p ∧ p ≠ [] ∧ walk s s.root p = some i := by
  obtain ⟨i, hi, rfl⟩ := h.len_ne_zero_iff.mp (hasCode_iff.mp hb)
  obtain ⟨p, hpos, hp, hwalk, hcode⟩ := h.leaf i hi
  exact ⟨i, p, hi, rfl, by rw [hcode, string_ofPath hp], List.ne_nil_of_length_pos hpos, hwalk⟩

theorem CodesOfTree.decodeWalk_codesOf (h : CodesOfTree s) (hs : TreeInv s) (hl : ∀ b ∈ l, hasCode s b = true) :
    decodeWalk s s.root (codesOf s l) = (l, s.root) := by
  induction l with
  | nil => rfl
  | cons b l ih =>
    obtain ⟨hb, hrest⟩ := List.forall_mem_cons.mp hl
    obtain ⟨i, p, hi, rfl, hpath, hne, hwalk⟩ := h.exists_path hb
    have hcons : codesOf s ((nodeAt s i).sym :: l) = p ++ codesOf s l := by rw [← hpath]; rfl
    rw [hcons, decodeWalk_append_of_walk hwalk (hs.leaf_of_lt hi).2 hne, ih hrest]

/-- R92: with one symbol every code is one bit, and only that symbol has one. -/
theorem CodesOfTree.eq_replicate_of_single (h : CodesOfTree s) (hs : TreeInv s) (h1 : s.nsym = 1#9)
    (hl : ∀ b ∈ l, hasCode s b = true) : l = List.replicate (codesOf s l).length (nodeNo s 0).sym := by
  have hall : ∀ b ∈ l, b = (nodeNo s 0).sym := fun b hb => by
    by_contra hne
    have hlen := hasCode_iff.mp (hl b hb)
    rw [h.single hs h1, if_neg hne] at hlen
    exact hlen rfl
  have hone : (codeAt s (nodeNo s 0).sym).len.toNat = 1 := by
    rw [h.single hs h1, if_pos rfl, ofPath_len (by simp)]
    rfl
  have hrep := List.eq_replicate_of_mem hall
  have hlen : (codesOf s l).length = l.length := by
    rw [length_codesOf, hrep]
    simp [hone]
  rwa [hlen]

end

/-- With the code table of the tree, DECODE of codes gives their symbols. -/
theorem exec_decode_codesOf {s : State} {l : List Byte} (hp : s.phase = .idle) (hs : TreeInv s) (h : CodesOfTree s)
    (hl : ∀ b ∈ l, hasCode s b = true) (hbits : s.bits = codesOf s l) (hlen : s.bits.length = s.blen.toNat) :
    ∃ t, exec .decode s = .next t ∧ t.err = .ok ∧ t.out = l := by
  obtain ⟨hnsym, -, hroot⟩ | ⟨hnsym, -⟩ | ⟨h2, -⟩ := hs.regs
  · obtain rfl : l = [] := List.eq_nil_iff_forall_not_mem.mpr fun b hb => by
      obtain ⟨i, p, hi, -⟩ := h.exists_path (hl b hb)
      simp [hnsym] at hi
    have hblen : s.blen = 0#_ := BitVec.eq_of_toNat_eq (by rw [← hlen, hbits]; rfl)
    obtain ⟨t, ht, hdone, hout, -⟩ := decodeWithTheNullTree s hp hroot
    exact ⟨t, ht, hdone.err.trans (if_pos hblen), hout⟩
  · obtain ⟨t, ht, hdone, hout, -⟩ := decodeWithOneSymbolCopiesIt s hp hs hnsym hlen
    rw [hbits] at hout
    exact ⟨t, ht, hdone.err, hout.trans (h.eq_replicate_of_single hs hnsym hl).symm⟩
  · have hwalk := h.decodeWalk_codesOf hs hl
    rw [← hbits] at hwalk
    obtain ⟨t, ht, hon, -⟩ := decodeWalksTheTree s hp hs h2 hlen
    obtain ⟨hdone, hout, -⟩ := hon (by rw [hwalk])
    exact ⟨t, ht, hdone.err, by rw [hout, hwalk]⟩

/-- Settles O53: ENCODE leaves the codes of the input, and DECODE gives their symbols. -/
theorem decodeInvertsEncode : Obligations.DecodeInvertsEncode := by
  intro s hp hs hcodes hlen hall
  obtain ⟨hencode, -⟩ := encodeConcatenatesTheCodes
  obtain ⟨t, ht, hdone, hbits, hblen, -, htree, hcode, -⟩ := (hencode s hp hlen).1 hall
  have hsame := codeAt_congr hcode
  rw [← length_codesOf, ← hbits] at hblen
  rw [← codesOf_congr hsame] at hbits
  obtain ⟨u, hu, herr, hout⟩ := exec_decode_codesOf hdone.idle (hs.congr htree) (hcodes.congr htree hcode)
    (fun b hb => hasCode_iff.mpr (by rw [hsame]; exact hall b hb)) hbits hblen.symm
  exact ⟨t, u, ht, hu, herr, hout⟩

/-- In the code table of the tree BUILD leaves, every symbol counted has an entry (R77, R93 (a)). -/
theorem BuildEnd.len_ne_zero {w : Cmd} {s t u : State W} (h : BuildEnd w s t) (htree : SameTree t u) (hcodes : CodesOfTree u)
    {b : Byte} (hb : freqAt s b ≠ 0#_) : (codeAt u b).len ≠ 0#8 := by
  obtain ⟨hnode, hnsym, -⟩ := htree
  obtain ⟨k, hk, hget⟩ := List.mem_iff_getElem.mp (mem_countedSyms.mpr hb)
  have hleaf := h.leaves k b (List.getElem?_eq_some_iff.mpr ⟨hk, hget⟩)
  have hcount := h.count
  have hnat : (BitVec.ofNat 9 k).toNat = k := by
    rw [BitVec.toNat_ofNat]
    omega
  refine hcodes.len_ne_zero_iff.mpr ⟨BitVec.ofNat 9 k, ?_, ?_⟩
  · rw [BitVec.lt_def, hnat, hnsym]
    omega
  · rw [nodeAt_eq_nodeNo, hnat, nodeNo_congr hnode, hleaf]
    rfl

/-- Settles O54: COUNT, BUILD and GEN leave a tree, its code table and an entry for every symbol of `IN`, as O53 asks. -/
theorem roundTripRestoresTheInput : Obligations.RoundTripRestoresTheInput := by
  intro s i hp hlen hi
  obtain ⟨hcount, -⟩ := countComputesTheHistogram
  obtain ⟨s1, h1, hdone1, hfreq, hin1, -⟩ := hcount s hp hlen
  obtain ⟨s2, h2, hend2, hs2⟩ := exec_build (hi.imp_right And.left) hdone1.idle
  obtain ⟨-, -, hin2, -⟩ := hend2.otherSpaces
  obtain ⟨s3, h3, hdone3, hcodes, -, htree3, hin3, -⟩ := genRecordsEveryLeafsPath s2 hend2.completed.idle hs2
  have hinput : s3.input = s.input := hin3.1.trans (hin2.1.trans hin1.1)
  have hilen : s3.ilen = s.ilen := hin3.2.trans (hin2.2.trans hin1.2)
  have hall : ∀ b ∈ s3.input, (codeAt s3 b).len ≠ 0#8 := fun b hb => by
    refine hend2.len_ne_zero htree3 hcodes fun hzero => ?_
    have hpos := List.count_pos_iff.mpr (hinput ▸ hb)
    rw [← hfreq, hzero] at hpos
    exact absurd hpos (by simp)
  obtain ⟨s4, s5, h4, h5, herr, hout⟩ :=
    decodeInvertsEncode s3 hdone3.idle (hs2.congr htree3) hcodes (by rw [hinput, hilen, hlen]) hall
  exact ⟨s1, s2, s3, s4, s5, h1, h2, h3, h4, h5, herr, hout.trans hinput⟩

end Sys2Proof.Machine
end


/-! PROOFS of the family `45_control.md`: `NOP` and what acceptance starts (R114, R115), the completion of a command (R116),
commands while busy (R117), and the host's reads (R119). -/

section

namespace Sys2Proof.Machine

variable {W : Nat}

/-! ### R115: NOP -/

theorem execNop_idle {s : State W} (hp : s.phase = .idle) :
    execNop s = .next (complete .ok (accept (encode .nop) .idle s)) :=
  whenIdle_idle _ hp

/-- Settles O10: `NOP` is acceptance and completion with `OK`, which write the control state alone. -/
theorem nopOnlyClearsTheStatus : Obligations.NopOnlyClearsTheStatus := by
  intro s hp
  refine ⟨_, execNop_idle hp, rfl, rfl, rfl, ?_, rfl, ⟨rfl, rfl, rfl, rfl⟩, rfl, ⟨rfl, rfl⟩, ⟨rfl, rfl⟩, ⟨rfl, rfl⟩,
    ⟨rfl, rfl, rfl, rfl, rfl, rfl, rfl, rfl, rfl⟩, rfl⟩
  rw [statusWord_of_completed rfl rfl, complete_err]
  rfl

/-! ### R117: a command while busy -/

theorem exec_busy (i : Instr) {s : State} (hp : s.phase ≠ .idle) : exec i s = .next s := by
  rw [← execAt_eq_exec]
  exact execAt_busy i hp

/-- Whatever its word, a command line met while a unit runs changes nothing. -/
theorem runLine_busy (w : Cmd) {s : State} (hp : s.phase ≠ .idle) : runLine exec w s = .next s := by
  unfold runLine
  split
  · exact exec_busy _ hp
  · exact whenIdle_busy _ hp

/-- Settles O12: each way a command can come finds the block busy, and only the host's move is used up. -/
theorem commandWhileBusyIsIgnored : Obligations.CommandWhileBusyIsIgnored :=
  ⟨fun i _ hp => exec_busy i hp, fun _ w _ hp hh => (step_line hh).trans (runLine_busy w hp),
    fun _ _ _ hp hh => step_wrCmd_busy hp hh⟩

/-! ### R114: what acceptance leaves -/

/-- `t` is `s` with the command `i` accepted and its unit running. -/
structure Begun (i : Instr) (s t : State W) : Prop where
  strict : t.sLatch = (encode i).getLsbD 3
  phase : t.phase = unitOf i
  done : t.done = false
  err : t.err = s.err
  events : t.events = .accepted (encode i) :: s.events

/-- `t` is `s` with the command `i` accepted and, at once, completed. -/
structure BegunAndEnded (i : Instr) (s t : State W) : Prop where
  strict : t.sLatch = (encode i).getLsbD 3
  phase : t.phase = .idle
  done : t.done = true
  events : t.events = .completed t.err :: .accepted (encode i) :: s.events

theorem unitOf_toCode (i : Instr) : (unitOf i).toCode = (encode i).extractLsb' 0 3 := by
  cases i <;> rfl

theorem unitOf_ne_idle {i : Instr} {s : State W} (h : ¬ completesAtOnce i s) : unitOf i ≠ .idle := by
  cases i with
  | nop => exact absurd trivial h
  | _ => nofun

section

variable {s t : State W}

theorem eq_zero_of_not_pos {n : Nat} {x : BitVec n} (h : ¬ 0#n < x) : x = 0#n :=
  not_not.mp (mt (BitVec.pos_iff_ne_zero x).mpr h)

/-- Acceptance completes exactly the operations that have nothing to do (log 5); every other one is running. -/
theorem acceptWord_outcome {i : Instr} (hs : s.phase = .idle) (h : acceptWord (encode i) s = .next t) :
    (completesAtOnce i s ∧ BegunAndEnded i s t) ∨ (¬ completesAtOnce i s ∧ Begun i s t) := by
  rw [acceptWord, decode_encode] at h
  cases i with
  | nop =>
    cases (execNop_idle hs).symm.trans h
    exact .inl ⟨trivial, rfl, rfl, rfl, rfl⟩
  | count =>
    obtain ⟨hlt, rfl⟩ | ⟨hlt, rfl⟩ := countHead_cases h
    · exact .inr ⟨(BitVec.pos_iff_ne_zero _).mp hlt, rfl, rfl, rfl, rfl, rfl⟩
    · exact .inl ⟨eq_zero_of_not_pos hlt, rfl, rfl, rfl, rfl⟩
  | build => cases h; exact .inr ⟨id, rfl, rfl, rfl, rfl, rfl⟩
  | buildS => cases h; exact .inr ⟨id, rfl, rfl, rfl, rfl, rfl⟩
  | gen =>
    obtain ⟨hnull, h⟩ | ⟨hroot, -, -, h⟩ := startGen_cases h
    · obtain ⟨-, rfl⟩ | ⟨hstk, -⟩ := genHead_cases h
      · exact .inl ⟨hnull, rfl, rfl, rfl, rfl⟩
      · exact absurd rfl hstk
    · obtain ⟨hstk, -⟩ | ⟨-, rfl⟩ := genHead_cases h
      · exact absurd hstk (List.cons_ne_nil _ _)
      · exact .inr ⟨hroot, rfl, rfl, rfl, rfl, rfl⟩
  | encode =>
    obtain ⟨hlt, rfl⟩ | ⟨hlt, rfl⟩ := encodeHead_cases h
    · exact .inr ⟨(BitVec.pos_iff_ne_zero _).mp hlt, rfl, rfl, rfl, rfl, rfl⟩
    · exact .inl ⟨eq_zero_of_not_pos hlt, rfl, rfl, rfl, rfl⟩
  | decode =>
    obtain ⟨hnull, -, rfl⟩ | ⟨hnull, -, rfl⟩ | ⟨hroot, h⟩ := startDecode_cases h
    · exact .inl ⟨.inl hnull, rfl, rfl, rfl, rfl⟩
    · exact .inl ⟨.inl hnull, rfl, rfl, rfl, rfl⟩
    · obtain ⟨hlt, rfl⟩ | ⟨hlt, -, rfl⟩ | ⟨-, hcur, -⟩ := decodeHead_cases h
      · exact .inr ⟨not_or.mpr ⟨hroot, (BitVec.pos_iff_ne_zero _).mp hlt⟩, rfl, rfl, rfl, rfl, rfl⟩
      · exact .inl ⟨.inr (eq_zero_of_not_pos hlt), rfl, rfl, rfl, rfl⟩
      · exact absurd rfl hcur

end

/-- Settles O13: acceptance, unit by unit, and the code of the phase is the selector of the word. -/
theorem acceptanceLatchesTheCommand : Obligations.AcceptanceLatchesTheCommand := by
  intro w i s t hd hs h
  obtain rfl := encode_of_decode hd
  obtain ⟨honce, ht⟩ | ⟨hmore, ht⟩ := acceptWord_outcome hs h
  · exact ⟨ht.strict, fun _ => ⟨ht.phase, ht.done, ht.events⟩, absurd honce⟩
  · refine ⟨ht.strict, fun honce => absurd honce hmore, fun _ => ⟨?_, ?_, ht.done, ht.err, ht.events⟩⟩
    · rw [ht.phase, unitOf_toCode]
    · rw [ht.phase]; exact unitOf_ne_idle hmore

/-! ### R116: completion

Between acceptance and completion `S_LATCH` stands, and the block becomes idle by completion alone. -/

/-- From `s` a unit goes on, finishes or takes an error, with `S_LATCH` as it was. -/
inductive GoesOnOrStops (s : State W) : State W → Prop
  | goesOn (u : State W) (hp : u.phase = s.phase) (hl : u.sLatch = s.sLatch) : GoesOnOrStops s u
  | finishes (u : State W) (hl : u.sLatch = s.sLatch) : GoesOnOrStops s (finishOk u)
  | raises (e : Err) (u : State W) (hl : u.sLatch = s.sLatch) : GoesOnOrStops s (raise e u)

section

variable {s t : State W}

/-- An update before it that writes neither `PHASE` nor `S_LATCH` makes no difference. -/
theorem GoesOnOrStops.after {u : State W} (h : GoesOnOrStops u t) (hp : u.phase = s.phase) (hl : u.sLatch = s.sLatch) :
    GoesOnOrStops s t := by
  cases h with
  | goesOn _ hp' hl' => exact .goesOn _ (hp'.trans hp) (hl'.trans hl)
  | finishes v hl' => exact .finishes v (hl'.trans hl)
  | raises e v hl' => exact .raises e v (hl'.trans hl)

theorem countMicro_goesOnOrStops (h : countMicro s = .next t) : GoesOnOrStops s t := by
  obtain ⟨b, -, h⟩ := countMicro_cases h
  obtain ⟨-, rfl⟩ | ⟨-, rfl⟩ := countHead_cases h
  · exact .goesOn _ rfl rfl
  · exact .finishes _ rfl

theorem buildRoots_goesOnOrStops (h : buildRoots s = .next t) : GoesOnOrStops s t := by
  obtain ⟨-, -, rfl⟩ | ⟨-, -, rfl⟩ | ⟨-, rfl⟩ | ⟨-, -, rfl⟩ := buildRoots_cases h
  · exact .raises _ _ rfl
  · exact .finishes _ rfl
  · exact .finishes _ rfl
  · exact .goesOn _ rfl rfl

theorem scanNext_goesOnOrStops (h : scanNext s = .next t) : GoesOnOrStops s t := by
  obtain ⟨-, h⟩ | ⟨-, rfl⟩ := scanNext_cases h
  · exact (buildRoots_goesOnOrStops h).after rfl rfl
  · exact .goesOn _ rfl rfl

theorem buildMicro_goesOnOrStops (h : buildMicro s = .next t) : GoesOnOrStops s t := by
  obtain ⟨-, h⟩ | ⟨-, h⟩ := buildMicro_cases h
  · obtain ⟨-, h⟩ | ⟨-, -, h⟩ := buildScan_cases h
    · exact scanNext_goesOnOrStops h
    · exact (scanNext_goesOnOrStops h).after rfl rfl
  · obtain ⟨a, q, b, q', -, -, -, h⟩ := buildMerge_cases h
    obtain ⟨-, rfl⟩ | ⟨-, rfl⟩ := mergeHead_cases h
    · exact .finishes _ rfl
    · exact .goesOn _ rfl rfl

theorem genHead_goesOnOrStops (h : genHead s = .next t) : GoesOnOrStops s t := by
  obtain ⟨-, rfl⟩ | ⟨-, rfl⟩ := genHead_cases h
  · exact .finishes _ rfl
  · exact .goesOn _ rfl rfl

theorem genMicro_goesOnOrStops (h : genMicro s = .next t) : GoesOnOrStops s t := by
  obtain ⟨-, rfl⟩ | ⟨n, p, rest, -, -, -, ⟨-, h⟩ | ⟨-, h⟩⟩ := genMicro_cases h
  · exact .finishes _ rfl
  · exact (genHead_goesOnOrStops h).after rfl rfl
  · exact (genHead_goesOnOrStops h).after rfl rfl

theorem encodeMicro_goesOnOrStops (h : encodeMicro s = .next t) : GoesOnOrStops s t := by
  obtain ⟨b, -, ⟨-, -, rfl⟩ | ⟨-, -, rfl⟩ | ⟨-, -, rfl⟩ | ⟨-, -, h⟩⟩ := encodeMicro_cases h
  · exact .raises _ _ rfl
  · exact .goesOn _ rfl rfl
  · exact .goesOn _ rfl rfl
  · obtain ⟨-, rfl⟩ | ⟨-, rfl⟩ := encodeHead_cases h
    · exact .goesOn _ rfl rfl
    · exact .finishes _ rfl

theorem decodeHead_goesOnOrStops (h : decodeHead s = .next t) : GoesOnOrStops s t := by
  obtain ⟨-, rfl⟩ | ⟨-, -, rfl⟩ | ⟨-, -, rfl⟩ := decodeHead_cases h
  · exact .goesOn _ rfl rfl
  · exact .finishes _ rfl
  · exact .raises _ _ rfl

theorem decodeMicro_goesOnOrStops (h : decodeMicro s = .next t) : GoesOnOrStops s t := by
  obtain ⟨b, -, -, ⟨-, -, h⟩ | ⟨-, -, -, ⟨-, h⟩ | ⟨-, h⟩⟩⟩ := decodeMicro_cases h
  · exact (decodeHead_goesOnOrStops h).after rfl rfl
  · exact (decodeHead_goesOnOrStops h).after rfl rfl
  · exact (decodeHead_goesOnOrStops h).after rfl rfl

/-- A command with the strict flag `f` was taken: the flag is latched, and if the block is idle again then by completion, the last
event. -/
structure Taken (f : Bool) (t : State W) : Prop where
  strict : t.sLatch = f
  completed : t.phase = .idle → t.done = true ∧ ∃ es, t.events = .completed t.err :: es

theorem taken_of_acceptWord {i : Instr} (hs : s.phase = .idle) (h : acceptWord (encode i) s = .next t) :
    Taken ((encode i).getLsbD 3) t := by
  obtain ⟨-, ht⟩ | ⟨hmore, ht⟩ := acceptWord_outcome hs h
  · exact ⟨ht.strict, fun _ => ⟨ht.done, _, ht.events⟩⟩
  · exact ⟨ht.strict, fun hp => absurd (ht.phase.symm.trans hp) (unitOf_ne_idle hmore)⟩

/-- A running unit keeps this until it stops, and establishes it when it stops. -/
theorem Taken.of_goesOnOrStops {f : Bool} (hs : Taken f s) (hp : s.phase ≠ .idle) (h : GoesOnOrStops s t) : Taken f t := by
  cases h with
  | goesOn _ hp' hl => exact ⟨hl.trans hs.strict, fun hi => absurd (hp'.symm.trans hi) hp⟩
  | finishes u hl => exact ⟨hl.trans hs.strict, fun _ => ⟨rfl, u.events, rfl⟩⟩
  | raises e u hl => exact ⟨(raise_sLatch u e).trans (hl.trans hs.strict), fun _ => ⟨rfl, u.events, by simp⟩⟩

/-- A run that started with a command taken ends in an idle block with the command completed. -/
theorem taken_of_run {micro : State W → Result W} {o : Result W} {n : Nat} {f : Bool}
    (start : ∀ u, o = .next u → Taken f u) (stops : ∀ u v, micro u = .next v → GoesOnOrStops u v)
    (h : andThen o (runUnit micro n) = .next t) : Taken f t ∧ t.phase = .idle :=
  start_then_run (Taken f) start (fun u v hu hp hv => hu.of_goesOnOrStops hp (stops u v hv)) h

theorem taken_of_execAt {i : Instr} (hs : s.phase = .idle) (h : execAt i s = .next t) :
    Taken ((encode i).getLsbD 3) t ∧ t.phase = .idle := by
  have start := fun u => taken_of_acceptWord (i := i) (t := u) hs
  simp only [acceptWord, decode_encode] at start
  cases i with
  | nop =>
    have ht := start t h
    cases (execNop_idle hs).symm.trans h
    exact ⟨ht, rfl⟩
  | count => exact taken_of_run start (fun _ _ => countMicro_goesOnOrStops) ((whenIdle_idle _ hs).symm.trans h)
  | build => exact taken_of_run start (fun _ _ => buildMicro_goesOnOrStops) ((whenIdle_idle _ hs).symm.trans h)
  | buildS => exact taken_of_run start (fun _ _ => buildMicro_goesOnOrStops) ((whenIdle_idle _ hs).symm.trans h)
  | gen => exact taken_of_run start (fun _ _ => genMicro_goesOnOrStops) ((whenIdle_idle _ hs).symm.trans h)
  | encode => exact taken_of_run start (fun _ _ => encodeMicro_goesOnOrStops) ((whenIdle_idle _ hs).symm.trans h)
  | decode => exact taken_of_run start (fun _ _ => decodeMicro_goesOnOrStops) ((whenIdle_idle _ hs).symm.trans h)

end

/-- Settles O16: a unit runs until the block is idle, and only completion makes it so. -/
theorem takenCommandsComplete : Obligations.TakenCommandsComplete := by
  intro i s t hs h
  rw [← execAt_eq_exec] at h
  obtain ⟨ht, hp⟩ := taken_of_execAt hs h
  obtain ⟨hdone, hevents⟩ := ht.completed hp
  exact ⟨hp, hdone, ht.strict, (execAt_writesOnly h).host, hevents⟩

/-! ### R119: the host's reads -/

section

variable {s : State} {rest : List HostMove}

theorem step_rdNode {i : Idx} (hp : s.phase = .idle) (hh : s.host = .access (.rdNode i) :: rest) :
    step s = .next { s with host := rest, events := .answer (rdNode s i) :: s.events } :=
  step_access_idle hp hh

theorem step_rdBits {k : Nat} (hp : s.phase = .idle) (hh : s.host = .access (.rdBits k) :: rest) :
    step s = .next { s with host := rest, events := .answer (rdBit s.bits[k]?) :: s.events } :=
  step_access_idle hp hh

theorem step_rdOut {k : Nat} (hp : s.phase = .idle) (hh : s.host = .access (.rdOut k) :: rest) :
    step s = .next { s with host := rest, events := .answer (rdByte s.out[k]?) :: s.events } :=
  step_access_idle hp hh

theorem step_rdIn {k : Nat} (hp : s.phase = .idle) (hh : s.host = .access (.rdIn k) :: rest) :
    step s = .next { s with host := rest, events := .answer (rdByte s.input[k]?) :: s.events } :=
  step_access_idle hp hh

end

theorem rdNode_null (s : State W) : rdNode s nullIdx = .notAccepted := if_pos rfl

theorem rdNode_inUse {s : State W} {i : Idx} (hne : i ≠ nullIdx) (hi : i < s.nnode) :
    rdNode s i = .node (nodeAt s i).pack :=
  (if_neg hne).trans (if_pos hi)

theorem rdNode_notInUse {s : State W} {i : Idx} (hne : i ≠ nullIdx) (hi : s.nnode ≤ i) :
    rdNode s i = .node (Config.freeNode W s.free i.toNat) :=
  (if_neg hne).trans (if_neg (BitVec.not_lt.mpr hi))

/-- Settles O21: each read is answered by its own entry; for `NODE` by the three ranges of its index, for a sequence by whether it
has the position. -/
theorem hostReadsReturnTheirEntries : Obligations.HostReadsReturnTheirEntries := by
  intro s a rest hp hh
  refine ⟨?freq, ?code, ?used, ?unused, ?null, ?bits, ?out, ?input⟩
  case freq => rintro b rfl; exact step_access_idle hp hh
  case code => rintro b rfl; exact step_access_idle hp hh
  case used => rintro i rfl hi hne; rw [step_rdNode hp hh, rdNode_inUse hne hi]
  case unused => rintro i rfl hi hne; exact ⟨_, by rw [step_rdNode hp hh, rdNode_notInUse hne hi]⟩
  case null => rintro rfl; rw [step_rdNode hp hh, rdNode_null]
  case bits =>
    rintro k rfl
    rw [step_rdBits hp hh]
    exact ⟨fun v hv => by rw [hv, rdBit], fun hk => by rw [List.getElem?_eq_none hk, rdBit]⟩
  case out =>
    rintro k rfl
    rw [step_rdOut hp hh]
    exact ⟨fun v hv => by rw [hv, rdByte], fun hk => by rw [List.getElem?_eq_none hk, rdByte]⟩
  case input =>
    rintro k rfl
    rw [step_rdIn hp hh]
    exact ⟨fun v hv => by rw [hv, rdByte], fun hk => by rw [List.getElem?_eq_none hk, rdByte]⟩

end Sys2Proof.Machine
end

/-! PROOFS of the family `60_exceptions.md`: what taking an error leaves (R125), and which command reports which error (R123, R126 to
R129). -/

section

namespace Sys2Proof.Machine

variable {W : Nat}

/-! ### R125: taking an error -/

/-- Settles O14: the output of the running operation is emptied, the control state is written, and nothing else is. -/
theorem raiseEmptiesOutputAndReports : Obligations.RaiseEmptiesOutputAndReports := by
  intro e s
  have hframe : WritesOnly s.phase s (raise e s) := raise_writesOnly e rfl
  refine ⟨raise_err s e, raise_done s e, raise_phase s e, fun hp => ⟨?_, ?_⟩, hframe.bits, fun hp => ⟨?_, ?_⟩, hframe.out,
    raise_freq s e, ⟨raise_node s e, raise_nsym s e, raise_nnode s e, raise_root s e⟩, raise_code s e, hframe.input⟩
  · rw [raise_bits, if_pos hp]
  · rw [raise_blen, if_pos hp]
  · rw [raise_out, if_pos hp]
  · rw [raise_olen, if_pos hp]

/-! ### R123: COUNT and GEN raise nothing

A running unit of these becomes idle by `finish OK` alone, whatever the tables and sequences hold. -/

/-- The block still runs, or it has completed with `OK`. -/
def OkOnceIdle (t : State W) : Prop := t.phase = .idle → t.err = .ok

section

variable {s t : State W}

theorem countHead_okOnceIdle (h : countHead s = .next t) (hp : s.phase ≠ .idle) : OkOnceIdle t := by
  obtain ⟨-, rfl⟩ | ⟨-, rfl⟩ := countHead_cases h
  · exact fun hi => absurd hi hp
  · exact fun _ => finishOk_err _

theorem countMicro_okOnceIdle (h : countMicro s = .next t) (hp : s.phase ≠ .idle) : OkOnceIdle t := by
  obtain ⟨_, -, h⟩ := countMicro_cases h
  exact countHead_okOnceIdle h hp

theorem startCount_okOnceIdle (h : startCount s = .next t) : OkOnceIdle t :=
  countHead_okOnceIdle h nofun

theorem genHead_okOnceIdle (h : genHead s = .next t) (hp : s.phase ≠ .idle) : OkOnceIdle t := by
  obtain ⟨-, rfl⟩ | ⟨-, rfl⟩ := genHead_cases h
  · exact fun _ => finishOk_err _
  · exact fun hi => absurd hi hp

theorem startGen_okOnceIdle (h : startGen s = .next t) : OkOnceIdle t := by
  obtain ⟨-, h⟩ | ⟨-, -, -, h⟩ := startGen_cases h
  · exact genHead_okOnceIdle h nofun
  · exact genHead_okOnceIdle h nofun

theorem genMicro_okOnceIdle (h : genMicro s = .next t) (hp : s.phase ≠ .idle) : OkOnceIdle t := by
  obtain ⟨-, rfl⟩ | ⟨_, _, _, -, -, -, ⟨-, h⟩ | ⟨-, h⟩⟩ := genMicro_cases h
  · exact fun _ => finishOk_err _
  · exact genHead_okOnceIdle h hp
  · exact genHead_okOnceIdle h hp

theorem err_of_execCount (hs : s.phase = .idle) (h : execCount s = .next t) : t.err = .ok := by
  rw [execCount, whenIdle_idle _ hs] at h
  obtain ⟨hok, hidle⟩ := start_then_run OkOnceIdle (fun _ => startCount_okOnceIdle)
    (fun _ _ _ hp hu => countMicro_okOnceIdle hu hp) h
  exact hok hidle

theorem err_of_execGen (hs : s.phase = .idle) (h : execGen s = .next t) : t.err = .ok := by
  rw [execGen, whenIdle_idle _ hs] at h
  obtain ⟨hok, hidle⟩ := start_then_run OkOnceIdle (fun _ => startGen_okOnceIdle)
    (fun _ _ _ hp hu => genMicro_okOnceIdle hu hp) h
  exact hok hidle

end

/-! ### R126: BUILD and BUILD.S -/

theorem buildErr_build (s : State W) : buildErr (encode .build) s = .ok := rfl

/-- `BUILD.S` raises `EmptyInputError` exactly on the empty table; an N = 1 table does not raise it. -/
theorem buildErr_buildS (s : State W) :
    buildErr (encode .buildS) s = if countedSyms s = [] then .emptyInput else .ok :=
  if_congr (and_iff_right rfl) rfl rfl

theorem err_of_exec_build {i : Instr} (hi : i = .build ∨ i = .buildS) {s t : State} (hs : s.phase = .idle)
    (h : exec i s = .next t) : t.err = buildErr (encode i) s := by
  obtain ⟨u, hu, hend, -⟩ := exec_build hi hs
  cases hu.symm.trans h
  exact hend.completed.err

/-! ### R123: the statuses of each command -/

/-- Settles O18: the status of each command, unit by unit; only ENCODE, DECODE and `BUILD.S` have one that is not `OK`. -/
theorem eachErrorHasOneSource : Obligations.EachErrorHasOneSource := by
  intro i s t hs h
  cases i with
  | nop =>
    cases (execNop_idle hs).symm.trans h
    simp
  | count => simp [err_of_execCount hs h]
  | build => simp [err_of_exec_build (.inl rfl) hs h, buildErr_build]
  | buildS =>
    rw [err_of_exec_build (.inr rfl) hs h, buildErr_buildS, ← countedSyms_eq_nil]
    split <;> simp [*]
  | gen => simp [err_of_execGen hs h]
  | encode =>
    rw [(encodeEnd_of_execEncode hs h).completed.err]
    split <;> simp
  | decode =>
    obtain ⟨_, hdone⟩ | hdone := decoded_of_exec_decode hs h
    · simp [hdone.completed.err]
    · simp [hdone.completed.err]

end Sys2Proof.Machine
end

/-! PROOFS of the family `70_reset_and_hazards.md`: `rst` puts the block into the reset state, whatever it was doing (R141, R146). -/

section

namespace Sys2Proof.Machine

/-! ### R141, R146: a step whose move is `rst` -/

/-- The step is the hard reset, whatever the phase: only the move is taken off first. -/
theorem step_rst {s : State} {rest : List HostMove} (hh : s.host = .rst :: rest) :
    step s = .next (hardReset { s with host := rest }) := by
  simp only [step, stepWith, fetchMove_cons hh]

/-- The hard reset keeps of the old state only what is the model's own: the moves left, the events and the free-value counter. -/
theorem hardReset_eq (s : State) :
    hardReset s = { State.reset with host := s.host, events := .reset :: s.events, free := s.free + 1 } := rfl

/-- Settles O3: the step is the hard reset, which overwrites every element of the block. -/
theorem resetWinsOverAnyOperation : Obligations.ResetWinsOverAnyOperation := by
  intro s rest hh
  rw [step_rst hh, hardReset_eq]

end Sys2Proof.Machine
end
